-- ==== Sys2Proof/Word.lean ====
section
/-!
DEFINITION. The words of the UART driver controller (UDC): every host register, index and counter is
32 bits and unsigned (R5, R7, D2, D11); every data path moves one byte (R74).
-/

namespace Sys2Proof

/-- A host register, an index, a counter, a host-memory address, a command word or a PRI word: 32 bits (R7, R35). -/
abbrev Word := BitVec 32

/-- One byte of `Buf`, of host memory or of a hardware FIFO (R70). -/
abbrev Byte := BitVec 8

end Sys2Proof
end

