-- ==== Sys2Proof/Syntax.lean ====
section
/-!
DEFINITION. The instructions of the UDC, one constructor per row of spec/opcode_table.json: the 16 host
commands (format H, R102) and the 9 requests of the peripheral register interface (format P, R111). Beside them, the
four ports (R100), the interrupt sources and the events of the environment (R20, R115): the steps by which the host, the
line, the tick source and the scheduler move the machine.
-/

namespace Sys2Proof

/-- The four command interfaces of the host register file; `OPC[7:4]` is the port's number (R100). -/
inductive Port where
  | cfg
  | rx
  | tx
  | isr
deriving DecidableEq, Repr, Inhabited

/-- One constructor per row of the opcode table. An operand is here only when the instruction's own word carries
it; the operands `A0` and `A1` of a host command are host registers, which stand in the state (R100, R101). -/
inductive Instr where
  /-- `CONFIGURE` (R280); `lcrf` is `IMM16[4:0]`, the word format of R104. -/
  | configure (lcrf : BitVec 5)
  /-- `SET_READ_TIMEOUT` (R281). -/
  | setReadTimeout
  /-- `SET_WRITE_TIMEOUT` (R282). -/
  | setWriteTimeout
  /-- `STATUS` (R283). -/
  | status
  /-- `LEN` (R172). -/
  | len
  /-- `ENABLE_RX` (R170). -/
  | enableRx
  /-- `DISABLE_RX` (R171). -/
  | disableRx
  /-- `READ` (R180). -/
  | read
  /-- `READ_BYTE` (R181). -/
  | readByte
  /-- `ENABLE_TX` (R210). -/
  | enableTx
  /-- `DISABLE_TX` (R211). -/
  | disableTx
  /-- `WRITE` (R222). -/
  | write
  /-- `WRITE_STRING` (R212). -/
  | writeString
  /-- `WRITE_BYTE` (R223); `b` is `IMM16[7:0]`. -/
  | writeByte (b : Byte)
  /-- `FLUSH` (R224). -/
  | flush
  /-- `SERVICE_INTERRUPT` (R250). -/
  | serviceInterrupt
  /-- `PRI.LOAD` (R300). -/
  | priLoad
  /-- `PRI.STORE` (R301). -/
  | priStore (b : Byte)
  /-- `PRI.STATUS` (R302). -/
  | priStatus
  /-- `PRI.SET_IE` (R303). -/
  | priSetIe (mask : BitVec 3)
  /-- `PRI.INT_SOURCE` (R304). -/
  | priIntSource
  /-- `PRI.SET_RX_TRIG` (R305). -/
  | priSetRxTrig (n : BitVec 8)
  /-- `PRI.SET_TX_TRIG` (R306). -/
  | priSetTxTrig (n : BitVec 8)
  /-- `PRI.SET_BAUD_DIV` (R307). -/
  | priSetBaudDiv (n : BitVec 28)
  /-- `PRI.CFG_WORD_FORMAT` (R308). -/
  | priCfgWordFormat (lcrf : BitVec 5)
deriving DecidableEq, Repr, Inhabited

/-- The port a host command belongs to (R102); a PRI request belongs to none. -/
def Instr.port : Instr → Option Port
  | .configure _ => some .cfg
  | .setReadTimeout => some .cfg
  | .setWriteTimeout => some .cfg
  | .status => some .cfg
  | .len => some .cfg
  | .enableRx => some .rx
  | .disableRx => some .rx
  | .read => some .rx
  | .readByte => some .rx
  | .enableTx => some .tx
  | .disableTx => some .tx
  | .write => some .tx
  | .writeString => some .tx
  | .writeByte _ => some .tx
  | .flush => some .tx
  | .serviceInterrupt => some .isr
  | .priLoad => none
  | .priStore _ => none
  | .priStatus => none
  | .priSetIe _ => none
  | .priIntSource => none
  | .priSetRxTrig _ => none
  | .priSetTxTrig _ => none
  | .priSetBaudDiv _ => none
  | .priCfgWordFormat _ => none

/-- One scheduled step of one agent (R9, R20): the host's accesses, the platform's reset, a turn of one of the three
sequencers that have a phase register, and the steps of the agents TICK and LINE. -/
inductive Event where
  /-- HOST writes `bytes` bytes of `v` at byte offset `off` of the register window (R35, R75). -/
  | hostWrite (off : BitVec 8) (bytes : Nat) (v : Word)
  /-- HOST reads `bytes` bytes at byte offset `off` of the register window (R35, R75). -/
  | hostRead (off : BitVec 8) (bytes : Nat)
  /-- HOST stores one byte of host memory (R71). -/
  | memWrite (a : Word) (b : Byte)
  /-- HOST loads one byte of host memory (R71). -/
  | memRead (a : Word)
  /-- The platform applies reset (R380). -/
  | reset
  /-- RXSEQ is offered its next step. -/
  | rxSeq
  /-- TXSEQ is offered its next step. -/
  | txSeq
  /-- ISRSEQ is offered its next step. -/
  | isrSeq
  /-- The step of agent TICK (R137). -/
  | tick
  /-- `LINE_RX(b)` (R313). -/
  | lineRx (b : Byte)
  /-- `LINE_TX` (R314). -/
  | lineTx
  /-- `LINE_ERR(f)` (R315). -/
  | lineErr (f : BitVec 4)
  /-- `RX_IDLE` (R316). -/
  | rxIdle
deriving DecidableEq, Repr, Inhabited

end Sys2Proof
end

