-- ==== Sys2Proof/Config.lean ====
section
/-!
DEFINITION. What an implementation fixes and what the spec leaves open: the parameters of R5 as one plain
record (a field of the state, which no step changes), their constraints and the reference configuration, and the free values,
which are constants with no body.
-/

namespace Sys2Proof.Config

/-- `ISR_PREEMPT_MODEL` (R9): may steps of the other sequencers stand between the steps of one interrupt service? -/
inductive PreemptModel where
  | interleaved
  | runToCompletion
deriving DecidableEq, Repr, Inhabited

/-- The parameters of R5 that are numbers, booleans or names. `BAUDDIV` is `Config.baudDiv`; `TICK` is a unit and has
no value here (R5, R137). -/
structure Params where
  /-- `CAP_MAX`, bytes of the ring-buffer RAM. -/
  capMax : Nat
  /-- `RXFIFO_DEPTH`. -/
  rxDepth : Nat
  /-- `TXFIFO_DEPTH`. -/
  txDepth : Nat
  /-- `RX_TRIG`, the receive trigger level `ENABLE_RX` programs. -/
  rxTrig : Nat
  /-- `TX_TRIG_MAX`, the largest level the selector mux picks. -/
  txTrigMax : Nat
  /-- `HAS_LINE_STATUS`. -/
  hasLineStatus : Bool
  /-- `ISR_PREEMPT_MODEL`. -/
  isrPreempt : PreemptModel
deriving DecidableEq, Repr, Inhabited

/-- The constraint column of R5. -/
def Params.ok (p : Params) : Bool :=
  decide (2 ≤ p.capMax) && decide (p.capMax ≤ 2 ^ 31) &&
  decide (1 ≤ p.rxDepth) && decide (p.rxDepth ≤ 255) &&
  decide (1 ≤ p.txDepth) && decide (p.txDepth ≤ 255) &&
  decide (1 ≤ p.rxTrig) && decide (p.rxTrig ≤ p.rxDepth) &&
  decide (1 ≤ p.txTrigMax) && decide (p.txTrigMax ≤ p.txDepth)

/-- The reference configuration REF (R5, D37). DESIGN CHOICE (log 1), safe: `State.reset` carries it, and every
statement quantifies over the record. -/
def Params.ref : Params :=
  { capMax := 256, rxDepth := 8, txDepth := 8, rxTrig := 1, txTrigMax := 4, hasLineStatus := true,
    isrPreempt := .interleaved }

/-- `BAUDDIV`, "total function from a 32-bit baud rate to a 28-bit divisor", uninterpreted (R5, D26). -/
opaque baudDiv : Word → BitVec 28

/-- The schedule (R43: "the choice of which enabled step runs next", the line's bytes and moments, the ticks, the
host's accesses), once no event is placed in the state: the free value for the n-th such choice. DESIGN CHOICE (log 2), safe. -/
opaque schedule : Nat → Event

/-- Contents of slot `i` of `Buf` after reset number `epoch` while no enqueue has written it (R21, R45, U15: "any
value"): a free value. DESIGN CHOICE (log 5), safe. -/
opaque bufByte (epoch i : Nat) : Byte

end Sys2Proof.Config
end

