-- ==== Sys2Proof/WellFormed.lean ====
section
/-!
DEFINITION. Well-formed instructions: which operand values the spec gives a meaning. The widths of the operand
fields are in the types; the two checks that are left are the legal ranges of the trigger levels (R305, R306, U8).
-/

namespace Sys2Proof

/-- Legal receive trigger level: `1 <= n <= RXFIFO_DEPTH` (R305). -/
def rxLevelOk (p : Config.Params) (n : BitVec 8) : Bool :=
  decide (1 ≤ n.toNat) && decide (n.toNat ≤ p.rxDepth)

/-- Legal transmit trigger level: `1 <= n <= TXFIFO_DEPTH` (R306). -/
def txLevelOk (p : Config.Params) (n : BitVec 8) : Bool :=
  decide (1 ≤ n.toNat) && decide (n.toNat ≤ p.txDepth)

/-- An instruction is well formed when every operand its word carries is one the spec gives a meaning. -/
def Instr.wellFormed (p : Config.Params) : Instr → Bool
  | .configure _ => true
  | .setReadTimeout => true
  | .setWriteTimeout => true
  | .status => true
  | .len => true
  | .enableRx => true
  | .disableRx => true
  | .read => true
  | .readByte => true
  | .enableTx => true
  | .disableTx => true
  | .write => true
  | .writeString => true
  | .writeByte _ => true
  | .flush => true
  | .serviceInterrupt => true
  | .priLoad => true
  | .priStore _ => true
  | .priStatus => true
  | .priSetIe _ => true
  | .priIntSource => true
  | .priSetRxTrig n => rxLevelOk p n
  | .priSetTxTrig n => txLevelOk p n
  | .priSetBaudDiv _ => true
  | .priCfgWordFormat _ => true

end Sys2Proof
end

