-- ==== Sys2Proof/Decode.lean ====
section
/-!
DEFINITION. The decoder, total on any 32-bit word and read straight from the match and mask columns of R102 and
R111, and after it the encoder, written from the field layouts of formats H and P (R100, R104, R111).
-/

namespace Sys2Proof

/-- A word selects a row exactly when `w & mask == match` (R102, R111). -/
def rowHit (w mask pattern : Word) : Bool := w &&& mask == pattern

/-- The host command a command word stands for, whatever port it is written to (R102). -/
def decodeHost (w : Word) : Option Instr :=
  if rowHit w 0xFFE0FFFF#32 0x00000001#32 then some (.configure (w.extractLsb' 16 5))
  else if rowHit w 0xFFFFFFFF#32 0x00000002#32 then some .setReadTimeout
  else if rowHit w 0xFFFFFFFF#32 0x00000003#32 then some .setWriteTimeout
  else if rowHit w 0xFFFFFFFF#32 0x00000004#32 then some .status
  else if rowHit w 0xFFFFFFFF#32 0x00000005#32 then some .len
  else if rowHit w 0xFFFFFFFF#32 0x00000010#32 then some .enableRx
  else if rowHit w 0xFFFFFFFF#32 0x00000011#32 then some .disableRx
  else if rowHit w 0xFFFFFFFF#32 0x00000012#32 then some .read
  else if rowHit w 0xFFFFFFFF#32 0x00000013#32 then some .readByte
  else if rowHit w 0xFFFFFFFF#32 0x00000020#32 then some .enableTx
  else if rowHit w 0xFFFFFFFF#32 0x00000021#32 then some .disableTx
  else if rowHit w 0xFFFFFFFF#32 0x00000022#32 then some .write
  else if rowHit w 0xFFFFFFFF#32 0x00000023#32 then some .writeString
  else if rowHit w 0xFF00FFFF#32 0x00000024#32 then some (.writeByte (w.extractLsb' 16 8))
  else if rowHit w 0xFFFFFFFF#32 0x00000025#32 then some .flush
  else if rowHit w 0xFFFFFFFF#32 0x00000030#32 then some .serviceInterrupt
  else none

/-- The legal commands of one port: a word that is no row of R102 for this port is an illegal command (R113). -/
def decodeCmd (p : Port) (w : Word) : Option Instr :=
  match decodeHost w with
  | some i => if i.port = some p then some i else none
  | none => none

/-- The request a PRI word stands for (R111); `REQ` 0x9 to 0xF and non-zero unused `DATA` bits are no request. -/
def decodePri (w : Word) : Option Instr :=
  if rowHit w 0xFFFFFFFF#32 0x00000000#32 then some .priLoad
  else if rowHit w 0xFFFFFF00#32 0x10000000#32 then some (.priStore (w.extractLsb' 0 8))
  else if rowHit w 0xFFFFFFFF#32 0x20000000#32 then some .priStatus
  else if rowHit w 0xFFFFFFF8#32 0x30000000#32 then some (.priSetIe (w.extractLsb' 0 3))
  else if rowHit w 0xFFFFFFFF#32 0x40000000#32 then some .priIntSource
  else if rowHit w 0xFFFFFF00#32 0x50000000#32 then some (.priSetRxTrig (w.extractLsb' 0 8))
  else if rowHit w 0xFFFFFF00#32 0x60000000#32 then some (.priSetTxTrig (w.extractLsb' 0 8))
  else if rowHit w 0xF0000000#32 0x70000000#32 then some (.priSetBaudDiv (w.extractLsb' 0 28))
  else if rowHit w 0xFFFFFFE0#32 0x80000000#32 then some (.priCfgWordFormat (w.extractLsb' 0 5))
  else none

/-- Any word of the opcode table: a host command or a PRI request. No word is both. -/
def decodeWord (w : Word) : Option Instr :=
  match decodeHost w with
  | some i => some i
  | none => decodePri w

/-- The instruction the decoder reads from a table row's bits: every row is one 32-bit word, so the bits above
`nbits` are zero and a longer number is no word of this block (R100, R111). -/
def decodeTableWord (nbits w : Nat) : Option Instr :=
  if w < 2 ^ 32 then decodeWord (BitVec.ofNat 32 (w % 2 ^ nbits)) else none

/-- Format H (R100): `IMM16` in bits 31:16, `Z` = 0 in bits 15:8, `OPC` in bits 7:0. -/
def formatH (opc : BitVec 8) (imm16 : BitVec 16) : Word := imm16 ++ 0#8 ++ opc

/-- Format P (R111): `REQ` in bits 31:28, `DATA` in bits 27:0. -/
def formatP (req : BitVec 4) (data : BitVec 28) : Word := req ++ data

/-- The word of an instruction, from the field columns of R102 and R111. -/
def encode : Instr → Word
  | .configure lcrf => formatH 0x01#8 (lcrf.setWidth 16)
  | .setReadTimeout => formatH 0x02#8 0#16
  | .setWriteTimeout => formatH 0x03#8 0#16
  | .status => formatH 0x04#8 0#16
  | .len => formatH 0x05#8 0#16
  | .enableRx => formatH 0x10#8 0#16
  | .disableRx => formatH 0x11#8 0#16
  | .read => formatH 0x12#8 0#16
  | .readByte => formatH 0x13#8 0#16
  | .enableTx => formatH 0x20#8 0#16
  | .disableTx => formatH 0x21#8 0#16
  | .write => formatH 0x22#8 0#16
  | .writeString => formatH 0x23#8 0#16
  | .writeByte b => formatH 0x24#8 (b.setWidth 16)
  | .flush => formatH 0x25#8 0#16
  | .serviceInterrupt => formatH 0x30#8 0#16
  | .priLoad => formatP 0x0#4 0#28
  | .priStore b => formatP 0x1#4 (b.setWidth 28)
  | .priStatus => formatP 0x2#4 0#28
  | .priSetIe mask => formatP 0x3#4 (mask.setWidth 28)
  | .priIntSource => formatP 0x4#4 0#28
  | .priSetRxTrig n => formatP 0x5#4 (n.setWidth 28)
  | .priSetTxTrig n => formatP 0x6#4 (n.setWidth 28)
  | .priSetBaudDiv n => formatP 0x7#4 n
  | .priCfgWordFormat lcrf => formatP 0x8#4 (lcrf.setWidth 28)

/-- The port a command word names in `OPC[7:4]` (R100): 0 CFG, 1 RX, 2 TX, 3 ISR; a word that names no port is
presented to CFG, where it is illegal (R113). -/
def wordPort (w : Word) : Port :=
  if w.extractLsb' 4 4 = 1#4 then .rx
  else if w.extractLsb' 4 4 = 2#4 then .tx
  else if w.extractLsb' 4 4 = 3#4 then .isr
  else .cfg

/-- The latched `OPC` of a command word (R100). -/
def opcField (w : Word) : BitVec 8 := w.extractLsb' 0 8

/-- The latched `IMM16` of a command word (R100). -/
def immField (w : Word) : BitVec 16 := w.extractLsb' 16 16

end Sys2Proof
end

