-- ==== Sys2Proof/Machine/State.lean ====
section
/-!
DEFINITION. The state of the UDC (R21 to R42), of the peripheral behind the PRI (R310), of host memory (R71) and of
the model's bench (what the environment does next), all plain data; the state after reset (R45, R310, R380); the reasons a
step can stop. INVENTORY.md lists every field with its rule and its reset value.
-/

namespace Sys2Proof.Machine

/-- A byte memory: (address, byte) pairs, addresses strictly rising. -/
abbrev Memory := List Host.Cell

/-- `isr_state` (R29, R108): the tri-state marker; the code 3 never occurs, so there is no fourth constructor. -/
inductive IsrMark where
  | idle
  | inRx
  | inTx
deriving DecidableEq, Repr, Inhabited

/-- `rx_phase` (R37): the labels of 41_receive.md and `IDLE`. -/
inductive RxPhase where
  | idle
  | en1 | en2
  | dr1 | dr2 | dr3
  | p1 | p2a | p2b | p3 | p3c | p4 | p4l | p5 | p5s | p5l | p6
  | copy | adv | fin1 | fin2
deriving DecidableEq, Repr, Inhabited

/-- `tx_phase` (R37): the labels of 42_transmit.md and `IDLE`. -/
inductive TxPhase where
  | idle
  | te1
  | dt1 | dt2 | dt3
  | w1s | w1p | w3 | w4 | w5 | w6 | w7 | w7l | w8 | w9 | w10
  | fl1 | fl2
deriving DecidableEq, Repr, Inhabited

/-- `isr_phase` (R37): the labels of 43_isr.md and `IDLE`. -/
inductive IsrPhase where
  | idle
  | s0 | i1 | i2 | i3 | i3f | i4 | i5 | i6 | i7
  | s1 | t1 | t1a | t1w | t2s | t3 | t4 | t5
  | s2 | st1
deriving DecidableEq, Repr, Inhabited

/-- A timer (R41, R137). -/
structure Timer where
  armed : Bool
  count : Word
deriving DecidableEq, Repr, Inhabited

/-- `tx_pending` (R27): `src` false = bytes in host memory at `base`, true = the single byte in `tx_byte`. -/
structure TxDesc where
  base : Word
  len : Word
  src : Bool
deriving DecidableEq, Repr, Inhabited

/-- The writable and response registers of the host register file (R35, R36). The command registers hold nothing:
a read of one returns 0. -/
structure HostRegs where
  cfA0 : Word
  cfA1 : Word
  cfRsp : Word
  cfN : Word
  rxA0 : Word
  rxA1 : Word
  rxRsp : Word
  rxN : Word
  txA0 : Word
  txA1 : Word
  txRsp : Word
  txN : Word
  svRsp : Word
deriving DecidableEq, Repr, Inhabited

/-- The Driver's shared state (R21 to R34), but for the contents of `Buf`. -/
structure Driver where
  cap : Word
  rxEnabled : Bool
  nextRead : Word
  nextWrite : Word
  overflow : Bool
  rxWake : Bool
  rxWakeRequested : Bool
  txPending : TxDesc
  txCursor : Word
  txByte : Byte
  txDone : Bool
  isrState : IsrMark
  readTimeout : Word
  writeTimeout : Word
  errMask : BitVec 4
  ie : BitVec 3
  txEnabled : Bool
  fatal : Bool
  fatalCause : BitVec 4
deriving DecidableEq, Repr, Inhabited

/-- RXSEQ's private registers (R38) and `rx_phase`. -/
structure RxSeq where
  phase : RxPhase
  op : BitVec 8
  a0 : Word
  a1 : Word
  nwSnap : Word
  rdN : Word
  rdByte : Byte
  rdOvf : Bool
  timer : Timer
  waitOk : Bool
deriving DecidableEq, Repr, Inhabited

/-- TXSEQ's private registers (R39) and `tx_phase`. -/
structure TxSeq where
  phase : TxPhase
  op : BitVec 8
  a0 : Word
  a1 : Word
  imm : BitVec 16
  i : Word
  waitOk : Bool
  timer : Timer
deriving DecidableEq, Repr, Inhabited

/-- ISRSEQ's private registers (R40) and `isr_phase`. -/
structure IsrSeq where
  phase : IsrPhase
  cause : BitVec 3
  byte : Byte
  more : Bool
  nw1 : Word
  stored : Bool
  full : Bool
deriving DecidableEq, Repr, Inhabited

/-- The peripheral behind the PRI: the reference model's state (R310). -/
structure Peripheral where
  rxFifo : List Byte
  txFifo : List Byte
  rxTrig : BitVec 8
  txTrig : BitVec 8
  pmask : BitVec 3
  hwerr : BitVec 4
  rxStale : Bool
  lcr : BitVec 5
  div : BitVec 28
  wire : List Byte
deriving DecidableEq, Repr, Inhabited

/-- The PRI itself (R111): the last request word and its response word, and `pending`, a request word placed on the
interface from outside the block, which the next step answers (the block's own requests are answered inside the step that
makes them, and never stand here). -/
structure PriBus where
  pending : Option Word
  req : Word
  rsp : Word
deriving DecidableEq, Repr, Inhabited

/-- The model's bench: what the environment does next, and what the host last read. -/
structure Bench where
  /-- Scheduled steps, the next one first. -/
  inputs : List Event
  /-- How many steps the free schedule has chosen. -/
  eventNo : Nat
  /-- What the host's last read returned. -/
  hostData : Word
  /-- How many resets the platform has applied since power-up; it selects the free contents of `Buf`. -/
  resetNo : Nat
deriving DecidableEq, Repr, Inhabited

/-- The whole machine. -/
@[ext]
structure State where
  cfg : Config.Params
  regs : HostRegs
  drv : Driver
  rx : RxSeq
  tx : TxSeq
  isr : IsrSeq
  buf : Memory
  hostMem : Memory
  per : Peripheral
  pri : PriBus
  env : Bench
deriving DecidableEq, Repr, Inhabited

/-- Why a step stops with a fault. Both are safe: no run from `State.reset` meets one (the statement
`GoodStatesOnlyRefuseContractBreaks` says so). -/
inductive Fault where
  /-- Raised by a sequencer's turn whose latched opcode is no command of its port: a state the rules never make. Safe. -/
  | corruptLatch
  /-- Raised by an access to `Buf` at or above `CAP_MAX`, an address the RAM does not have (R21, R72). Safe. -/
  | bufRange
deriving DecidableEq, Repr

/-- Why the model gives a step no result. All are safe: the model claims nothing of what the hardware then does. -/
inductive Refusal where
  /-- An instruction with no meaning yet. No arm of this model raises it. Safe. -/
  | notModelled (mnemonic : String)
  /-- A command issued to a busy RX or TX port (R114 (c), U1): raised by the host's `CMD` write. Safe. -/
  | portBusy
  /-- `READ` or `READ_BYTE` issued while receive is disabled (R180, R181, U3). Safe. -/
  | rxDisabled
  /-- `WRITE`, `WRITE_STRING` or `WRITE_BYTE` issued while transmit is disabled (R212, U4). Safe. -/
  | txDisabled
  /-- `PRI.LOAD` on an empty receive FIFO (R300, U6). Safe. -/
  | loadEmpty
  /-- `PRI.STORE` on a full transmit FIFO (R301, U6). Safe. -/
  | storeFull
  /-- A trigger level outside its legal range (R305, R306, U8). Safe. -/
  | triggerRange
  /-- A sub-register or misaligned access to the host register file (R75, U9). Safe. -/
  | hrfAccess
  /-- A word on the PRI that is no request of R111, where the block "never" sends one. Safe. -/
  | badPriWord
deriving DecidableEq, Repr

/-- What a step answers. -/
abbrev Result := Host.Outcome State Fault Refusal

/-- The sentinel "wait forever" (R30, R105). -/
def infTimeout : Word := 0xFFFFFFFF#32

/-! ### Reset (R45, R380, R310) -/

/-- A disarmed timer, count 0 (R41). -/
def Timer.reset : Timer := { armed := false, count := 0#32 }

/-- The empty descriptor (R27). -/
def TxDesc.empty : TxDesc := { base := 0#32, len := 0#32, src := false }

/-- "every `A0`, `A1`, `RSP` and `N` register is 0" (R35). -/
def HostRegs.reset : HostRegs :=
  { cfA0 := 0#32, cfA1 := 0#32, cfRsp := 0#32, cfN := 0#32, rxA0 := 0#32, rxA1 := 0#32, rxRsp := 0#32, rxN := 0#32,
    txA0 := 0#32, txA1 := 0#32, txRsp := 0#32, txN := 0#32, svRsp := 0#32 }

/-- The Driver rows of R45's table. -/
def Driver.reset : Driver :=
  { cap := 0#32, rxEnabled := false, nextRead := 0#32, nextWrite := 0#32, overflow := false, rxWake := false,
    rxWakeRequested := false, txPending := TxDesc.empty, txCursor := 0#32, txByte := 0#8, txDone := false,
    isrState := .idle, readTimeout := infTimeout, writeTimeout := infTimeout, errMask := 0#4, ie := 0#3,
    txEnabled := false, fatal := false, fatalCause := 0#4 }

/-- RXSEQ after reset (R37, R38). -/
def RxSeq.reset : RxSeq :=
  { phase := .idle, op := 0#8, a0 := 0#32, a1 := 0#32, nwSnap := 0#32, rdN := 0#32, rdByte := 0#8, rdOvf := false,
    timer := Timer.reset, waitOk := false }

/-- TXSEQ after reset (R37, R39). -/
def TxSeq.reset : TxSeq :=
  { phase := .idle, op := 0#8, a0 := 0#32, a1 := 0#32, imm := 0#16, i := 0#32, waitOk := false, timer := Timer.reset }

/-- ISRSEQ after reset (R37, R40). -/
def IsrSeq.reset : IsrSeq :=
  { phase := .idle, cause := 0#3, byte := 0#8, more := false, nw1 := 0#32, stored := false, full := false }

/-- The peripheral at the power-up of the platform (R310). -/
def Peripheral.powerUp : Peripheral :=
  { rxFifo := [], txFifo := [], rxTrig := 1#8, txTrig := 1#8, pmask := 0#3, hwerr := 0#4, rxStale := false,
    lcr := 0#5, div := 0#28, wire := [] }

/-- The PRI after the reset step, whose one request is `set_interrupt_enable(0)` (R380). -/
def PriBus.reset : PriBus := { pending := none, req := 0x30000000#32, rsp := 0#32 }

/-- The bench of a machine whose environment has done nothing yet. -/
def Bench.reset : Bench := { inputs := [], eventNo := 0, hostData := 0#32, resetNo := 0 }

/-- The machine right after the power-up of the platform and the reset step (R45, R310, R380), in the reference
configuration. No slot of `Buf` and no byte of host memory is listed. -/
def State.reset : State :=
  { cfg := Config.Params.ref, regs := HostRegs.reset, drv := Driver.reset, rx := RxSeq.reset, tx := TxSeq.reset,
    isr := IsrSeq.reset, buf := [], hostMem := [], per := Peripheral.powerUp, pri := PriBus.reset, env := Bench.reset }

/-! ### One named update per component; no update of `cfg` exists, so no step changes a parameter (R43) -/

def State.setRegs (s : State) (x : HostRegs) : State := { s with regs := x }
def State.setDrv (s : State) (x : Driver) : State := { s with drv := x }
def State.setRx (s : State) (x : RxSeq) : State := { s with rx := x }
def State.setTx (s : State) (x : TxSeq) : State := { s with tx := x }
def State.setIsr (s : State) (x : IsrSeq) : State := { s with isr := x }
def State.setBuf (s : State) (x : Memory) : State := { s with buf := x }
def State.setHostMem (s : State) (x : Memory) : State := { s with hostMem := x }
def State.setPer (s : State) (x : Peripheral) : State := { s with per := x }
def State.setPri (s : State) (x : PriBus) : State := { s with pri := x }
def State.setEnv (s : State) (x : Bench) : State := { s with env := x }

end Sys2Proof.Machine
end

