-- ==== Sys2Proof/Machine/Flags.lean ====
section
/-!
DEFINITION. Every flag computation of the spec: the codes of the small fields (R106 to R110), the raw interrupt
conditions (R311), the gated cause and `irq` (R140), the PRI's response words (R111), the response register (R36), the
readback register `STATE` (R42), the resolution of a read's error (R182).
-/

namespace Sys2Proof.Machine

/-- `isr_state` as its two bits (R108). -/
def isrCode : IsrMark → BitVec 2
  | .idle => 0#2
  | .inRx => 1#2
  | .inTx => 2#2

/-- The error names of R106. -/
inductive ErrName where
  | ok
  | timeout
  | bufferOverflow
  | hardwareError
  | illegalCommand
deriving DecidableEq, Repr, Inhabited

/-- Field `ERR` of a response (R106). -/
def errCode : ErrName → BitVec 4
  | .ok => 0#4
  | .timeout => 1#4
  | .bufferOverflow => 2#4
  | .hardwareError => 3#4
  | .illegalCommand => 15#4

/-- The fatal causes of R107. -/
inductive FatalName where
  | rxAlreadyEnabled
  | capacityTooSmall
  | wakeOnEmpty
  | capacityTooLarge
deriving DecidableEq, Repr, Inhabited

/-- `fatal_cause` (R107). -/
def fatalCode : FatalName → BitVec 4
  | .rxAlreadyEnabled => 1#4
  | .capacityTooSmall => 2#4
  | .wakeOnEmpty => 3#4
  | .capacityTooLarge => 4#4

/-! ### Interrupt sources (R109): bit 0 `RX`, bit 1 `TX`, bit 2 `ST` -/

def srcRx : BitVec 3 := 1#3
def srcTx : BitVec 3 := 2#3
def srcSt : BitVec 3 := 4#3

/-- Is the source's bit set in a mask or a cause? -/
def hasRx (m : BitVec 3) : Bool := m.getLsbD 0
def hasTx (m : BitVec 3) : Bool := m.getLsbD 1
def hasSt (m : BitVec 3) : Bool := m.getLsbD 2

/-- The sources `ENABLE_RX` sets: `RX | (ST if HAS_LINE_STATUS else 0)` (R170). -/
def rxSources (p : Config.Params) : BitVec 3 := if p.hasLineStatus then srcRx ||| srcSt else srcRx

/-- `raw.RX` (R311). -/
def rawRx (d : Peripheral) : Bool :=
  decide (d.rxTrig.toNat ≤ d.rxFifo.length) || (decide (1 ≤ d.rxFifo.length) && d.rxStale)

/-- `raw.TX` (R311): at least `tx_trig` free slots. -/
def rawTx (p : Config.Params) (d : Peripheral) : Bool :=
  decide (d.txTrig.toNat ≤ p.txDepth - d.txFifo.length)

/-- `raw.ST` (R311). -/
def rawSt (p : Config.Params) (d : Peripheral) : Bool := p.hasLineStatus && decide (d.hwerr ≠ 0#4)

/-- Three booleans as the mask of R109. -/
def srcMask (rx tx st : Bool) : BitVec 3 := BitVec.ofBool st ++ BitVec.ofBool tx ++ BitVec.ofBool rx

/-- The three raw conditions (R311). -/
def rawCond (p : Config.Params) (d : Peripheral) : BitVec 3 := srcMask (rawRx d) (rawTx p d) (rawSt p d)

/-- The cause the peripheral answers: `raw & pmask` (R304). -/
def pendingCause (s : State) : BitVec 3 := rawCond s.cfg s.per &&& s.per.pmask

/-- The gated cause of the block: `raw & ie` (R140). -/
def gatedCause (s : State) : BitVec 3 := rawCond s.cfg s.per &&& s.drv.ie

/-- The interrupt request line (R140): a pure function of the state, whatever `fatal` is (U10). -/
def irq (s : State) : Bool := decide (gatedCause s ≠ 0#3)

/-! ### The peripheral's status (R302) and the PRI's response words (R111) -/

/-- What `PRI.status()` returns. -/
structure PStat where
  receiveNotEmpty : Bool
  transmitFull : Bool
  transmitDone : Bool
  flags : BitVec 4
deriving DecidableEq, Repr, Inhabited

/-- `transmit_done`: the transmit FIFO holds no byte (R302, C4). -/
def transmitDone (d : Peripheral) : Bool := d.txFifo.isEmpty

/-- The status of R302; on a variant without line status the flags are always 0. -/
def peripheralStatus (p : Config.Params) (d : Peripheral) : PStat :=
  { receiveNotEmpty := decide (1 ≤ d.rxFifo.length)
    transmitFull := decide (d.txFifo.length = p.txDepth)
    transmitDone := transmitDone d
    flags := if p.hasLineStatus then d.hwerr else 0#4 }

/-- Response of `LOAD`: bits 7:0 the byte, bit 8 `has_more` (R111). -/
def loadRsp (b : Byte) (more : Bool) : Word := 0#23 ++ BitVec.ofBool more ++ b

/-- Response of `STATUS`: bits 0, 1, 2 the three flags, bits 7:4 the error flags (R111). -/
def statusRsp (t : PStat) : Word :=
  0#24 ++ t.flags ++ 0#1 ++ BitVec.ofBool t.transmitDone ++ BitVec.ofBool t.transmitFull ++ BitVec.ofBool t.receiveNotEmpty

/-- Response of `INT_SOURCE`: bits 2:0 the cause (R111). -/
def causeRsp (c : BitVec 3) : Word := 0#29 ++ c

/-! ### The response register (R36) -/

/-- A response register while its port is busy: `BUSY` = 1 and every other field 0 (R36). -/
def busyWord : Word := 0x00010000#32

/-- The word `Respond` writes: `BUSY` 0, `BYTE`, `HWERR`, `ERR` (R146). -/
def rspWord (err hwerr : BitVec 4) (byte : Byte) : Word := 0#16 ++ byte ++ hwerr ++ err

/-- Field `BUSY` of a response register (R36). -/
def busyBit (w : Word) : Bool := w.getLsbD 16

/-- The error a completed read reports: a hardware error first, then an overflow (R182, R345 (a)). -/
def readErr (e : BitVec 4) (ovf : Bool) : ErrName :=
  if e ≠ 0#4 then .hardwareError else if ovf then .bufferOverflow else .ok

/-! ### The readback register `STATE` (R42) -/

def stateWord (d : Driver) : Word :=
  0#8 ++ d.fatalCause ++ 0#3 ++ BitVec.ofBool d.fatal ++ d.errMask ++ 0#1 ++ d.ie ++ BitVec.ofBool d.txEnabled ++
    BitVec.ofBool d.rxEnabled ++ BitVec.ofBool d.txDone ++ BitVec.ofBool d.rxWake ++ BitVec.ofBool d.rxWakeRequested ++
    BitVec.ofBool d.overflow ++ isrCode d.isrState

end Sys2Proof.Machine
end

