-- ==== Sys2Proof/Machine/Ops.lean ====
section
/-!
DEFINITION. The named operations over memory, the PRI, the enable mask, the Notes, the timers and the response
registers. `raiseFatal` (R145) is the block's one exception entry; `applyReset` (R380) beside it is the only return from it;
`respond` (R146) ends a command, the interrupt service among them.
-/

namespace Sys2Proof.Machine

/-! ### Byte memories: (address, byte) pairs, addresses strictly rising -/

/-- The byte listed at an address. -/
def Memory.get : Memory → Nat → Option Byte
  | [], _ => none
  | (a, b) :: m, k => if a = k then some b else Memory.get m k

/-- List a byte at an address, in place. -/
def Memory.put : Memory → Nat → Byte → Memory
  | [], k, v => [(k, v)]
  | (a, b) :: m, k, v =>
    if k < a then (k, v) :: (a, b) :: m else if k = a then (k, v) :: m else (a, b) :: Memory.put m k v

/-- Unlist an address. -/
def Memory.erase : Memory → Nat → Memory
  | [], _ => []
  | (a, b) :: m, k => if a = k then m else (a, b) :: Memory.erase m k

/-- Every listed address is at least `lo`, and the addresses strictly rise. -/
def Memory.risingFrom : Nat → Memory → Bool
  | _, [] => true
  | lo, (a, _) :: m => decide (lo ≤ a) && Memory.risingFrom (a + 1) m

/-- Every listed address lies below `n`. -/
def Memory.below (n : Nat) (m : Memory) : Bool := m.all fun c => decide (c.1 < n)

/-- What an unlisted address of host memory reads as: zero. DESIGN CHOICE (log 4), unsafe: the spec gives host
memory no contents. -/
def unlistedByte : Byte := 0#8

/-- The canonical form of host memory: addresses strictly rising and inside the 2^32 bytes of R70, and no entry equal
to what an unlisted address reads as. -/
def Memory.wf (m : Memory) : Bool :=
  Memory.risingFrom 0 m && Memory.below (2 ^ 32) m && m.all fun c => decide (c.2 ≠ unlistedByte)

/-- The canonical form of `Buf`: addresses strictly rising and inside the RAM of `CAP_MAX` bytes (R21). A slot is listed
exactly when an enqueue has written it since reset; an unlisted slot has no value of the model's, so that no entry can equal
it. -/
def Memory.bufWf (capMax : Nat) (m : Memory) : Bool := Memory.risingFrom 0 m && Memory.below capMax m

/-- `MemRead(addr, 1)` (R71). -/
def memRead (s : State) (a : Word) : Byte := (Memory.get s.hostMem a.toNat).getD unlistedByte

/-- `MemWrite(addr, 1, v)` (R71), which keeps the canonical form. -/
def memWrite (s : State) (a : Word) (v : Byte) : State :=
  s.setHostMem (if v = unlistedByte then Memory.erase s.hostMem a.toNat else Memory.put s.hostMem a.toNat v)

/-- The contents of slot `i` of `Buf`: what an enqueue wrote there, else a free value (R21, U15). -/
def bufSlot (s : State) (i : Nat) : Byte := (Memory.get s.buf i).getD (Config.bufByte s.env.resetNo i)

/-- `Buf[i]` (R72): no byte at or above `CAP_MAX`. -/
def bufGet (s : State) (i : Nat) : Option Byte := if i < s.cfg.capMax then some (bufSlot s i) else none

/-- `Buf[i] <- v` (R72). -/
def bufPut (s : State) (i : Nat) (v : Byte) : Option State :=
  if i < s.cfg.capMax then some (s.setBuf (Memory.put s.buf i v)) else none

/-! ### The nine requests of the PRI (R300 to R308): effect, request word and response word in one step -/

/-- The words of one exchange on the PRI (R111). -/
def priExchange (s : State) (req : Instr) (rsp : Word) : State :=
  s.setPri { s.pri with req := encode req, rsp := rsp }

/-- `PRI.load()` (R300): the byte and `has_more`; no result on an empty FIFO (U6). -/
def priLoad (s : State) : Option (State × Byte × Bool) :=
  match s.per.rxFifo with
  | [] => none
  | b :: rest =>
    let more := !rest.isEmpty
    some (priExchange (s.setPer { s.per with rxFifo := rest, rxStale := s.per.rxStale && more }) .priLoad (loadRsp b more),
      b, more)

/-- `PRI.store(b)` (R301); no result on a full FIFO (U6). -/
def priStore (s : State) (b : Byte) : Option State :=
  if s.per.txFifo.length < s.cfg.txDepth then
    some (priExchange (s.setPer { s.per with txFifo := s.per.txFifo ++ [b] }) (.priStore b) 0#32)
  else none

/-- `PRI.status()` (R302): read-to-clear. -/
def priStatus (s : State) : State × PStat :=
  let t := peripheralStatus s.cfg s.per
  (priExchange (s.setPer { s.per with hwerr := 0#4 }) .priStatus (statusRsp t), t)

/-- `PRI.set_interrupt_enable(m)` (R303). -/
def priSetIe (s : State) (m : BitVec 3) : State :=
  priExchange (s.setPer { s.per with pmask := m }) (.priSetIe m) 0#32

/-- `PRI.interrupt_source()` (R304). -/
def priIntSource (s : State) : State × BitVec 3 :=
  let c := pendingCause s
  (priExchange s .priIntSource (causeRsp c), c)

/-- `PRI.set_receive_trigger_level(n)` (R305); no result outside the legal range (U8). -/
def priSetRxTrig (s : State) (n : BitVec 8) : Option State :=
  if rxLevelOk s.cfg n then some (priExchange (s.setPer { s.per with rxTrig := n }) (.priSetRxTrig n) 0#32) else none

/-- `PRI.set_transmit_trigger_level(n)` (R306); no result outside the legal range (U8). -/
def priSetTxTrig (s : State) (n : BitVec 8) : Option State :=
  if txLevelOk s.cfg n then some (priExchange (s.setPer { s.per with txTrig := n }) (.priSetTxTrig n) 0#32) else none

/-- `PRI.set_baud_divisor(n)` (R307). -/
def priSetBaudDiv (s : State) (n : BitVec 28) : State :=
  priExchange (s.setPer { s.per with div := n }) (.priSetBaudDiv n) 0#32

/-- `PRI.configure_word_format(f)` (R308). -/
def priCfgWordFormat (s : State) (f : BitVec 5) : State :=
  priExchange (s.setPer { s.per with lcr := f }) (.priCfgWordFormat f) 0#32

/-- A request that the spec gives no result becomes a refusal under its own name. -/
def orRefuse (r : Option State) (why : Refusal) : Result :=
  match r with
  | some t => .next t
  | none => .refused why

/-! ### Interrupt enables, status, Notes, the wake-request flag -/

/-- `IE_SET(m)` (R139): the shadow and the peripheral's mask in one step. -/
def ieSet (s : State) (m : BitVec 3) : State := priSetIe (s.setDrv { s.drv with ie := s.drv.ie ||| m }) (s.drv.ie ||| m)

/-- `IE_CLR(m)` (R139). -/
def ieClr (s : State) (m : BitVec 3) : State :=
  priSetIe (s.setDrv { s.drv with ie := s.drv.ie &&& ~~~m }) (s.drv.ie &&& ~~~m)

/-- `PStatus()` (R142): every status read keeps the error flags in `err_mask`. -/
def pStatus (s : State) : State × PStat :=
  let (s1, t) := priStatus s
  (s1.setDrv { s1.drv with errMask := s1.drv.errMask ||| t.flags }, t)

/-- `StatusTake()` (R143). -/
def statusTake (s : State) : State × BitVec 4 := (s.setDrv { s.drv with errMask := 0#4 }, s.drv.errMask)

/-- `clear(rx_wake)` (R134). -/
def clearRxWake (s : State) : State := s.setDrv { s.drv with rxWake := false }

/-- `wake(rx_wake)` (R135). -/
def wakeRx (s : State) : State := s.setDrv { s.drv with rxWake := true }

/-- `clear(tx_done)` (R134). -/
def clearTxDone (s : State) : State := s.setDrv { s.drv with txDone := false }

/-- `wake(tx_done)` (R135). -/
def wakeTx (s : State) : State := s.setDrv { s.drv with txDone := true }

/-- `CAS(rx_wake_requested, requested, none)` (R138). -/
def casWakeRequest (s : State) : State × Bool :=
  (s.setDrv { s.drv with rxWakeRequested := false }, s.drv.rxWakeRequested)

/-! ### Timers (R137) -/

/-- `arm(t, T)`: with `INF` the timer stays disarmed and its count stands. -/
def Timer.arm (t : Timer) (limit : Word) : Timer :=
  if limit = infTimeout then { t with armed := false } else { armed := true, count := limit }

/-- `disarm(t)`. -/
def Timer.disarm (t : Timer) : Timer := { t with armed := false }

/-- `expired(t)`. -/
def Timer.expired (t : Timer) : Bool := t.armed && decide (t.count = 0#32)

/-- What one tick does to one timer. -/
def Timer.tick (t : Timer) : Timer := if t.armed && decide (t.count ≠ 0#32) then { t with count := t.count - 1#32 } else t

/-! ### Fatal, respond, issue (R145, R146, R114) -/

/-- `raise Fatal(c)` (R145): the phase and the port's `BUSY` stay as they are. -/
def raiseFatal (s : State) (c : FatalName) : State := s.setDrv { s.drv with fatal := true, fatalCause := fatalCode c }

/-- `phase <- P` of RXSEQ. -/
def rxGo (s : State) (p : RxPhase) : State := s.setRx { s.rx with phase := p }

/-- `phase <- P` of TXSEQ. -/
def txGo (s : State) (p : TxPhase) : State := s.setTx { s.tx with phase := p }

/-- `phase <- P` of ISRSEQ. -/
def isrGo (s : State) (p : IsrPhase) : State := s.setIsr { s.isr with phase := p }

/-- `Respond(CFG, err, hwerr, byte, n)` (R146). -/
def respondCfg (s : State) (err : ErrName) (hwerr : BitVec 4) (byte : Byte) (n : Word) : State :=
  s.setRegs { s.regs with cfRsp := rspWord (errCode err) hwerr byte, cfN := n }

/-- `Respond(RX, err, hwerr, byte, n)` (R146). -/
def respondRx (s : State) (err : ErrName) (hwerr : BitVec 4) (byte : Byte) (n : Word) : State :=
  rxGo (s.setRegs { s.regs with rxRsp := rspWord (errCode err) hwerr byte, rxN := n }) .idle

/-- `Respond(TX, err, hwerr, byte, n)` (R146). -/
def respondTx (s : State) (err : ErrName) (hwerr : BitVec 4) (byte : Byte) (n : Word) : State :=
  txGo (s.setRegs { s.regs with txRsp := rspWord (errCode err) hwerr byte, txN := n }) .idle

/-- `Respond(ISR)` (R146, R347): it only clears `SVRSP.BUSY`. -/
def respondIsr (s : State) : State :=
  isrGo (s.setRegs { s.regs with svRsp := s.regs.svRsp &&& ~~~busyWord }) .idle

/-- The response of the idle ISR port to an illegal word (R113, R340): the port has no `N`. That `SVRSP` can so be non-zero
outside bit 16, against R35, is log 6. -/
def respondIsrIllegal (s : State) : State := s.setRegs { s.regs with svRsp := rspWord (errCode .illegalCommand) 0#4 0#8 }

/-- Issue of a legal command on the idle RX port (R114 (a)): latch, `RSP` busy, `N` 0, first phase. -/
def issueRx (s : State) (w : Word) (first : RxPhase) : State :=
  (s.setRegs { s.regs with rxRsp := busyWord, rxN := 0#32 }).setRx
    { s.rx with op := opcField w, a0 := s.regs.rxA0, a1 := s.regs.rxA1, phase := first }

/-- Issue of a legal command on the idle TX port (R114 (a)). -/
def issueTx (s : State) (w : Word) (first : TxPhase) : State :=
  (s.setRegs { s.regs with txRsp := busyWord, txN := 0#32 }).setTx
    { s.tx with op := opcField w, imm := immField w, a0 := s.regs.txA0, a1 := s.regs.txA1, phase := first }

/-- Issue of `SERVICE_INTERRUPT` on the idle ISR port (R250). -/
def issueIsr (s : State) : State := isrGo (s.setRegs { s.regs with svRsp := busyWord }) .s0

/-! ### Who may step (R9, R145) -/

/-- Under `run_to_completion`, the other sequencers stand still while an interrupt service is in progress (R9). -/
def isrHolds (s : State) : Bool := decide (s.cfg.isrPreempt = .runToCompletion) && decide (s.isr.phase ≠ .idle)

/-- A step of the reader, the writer or the configuration sequencer: none is taken in the fatal state (R145) nor
while an interrupt service holds the others (R9); a step that is not taken leaves the state as it is. -/
def appStep (s : State) (k : Result) : Result := if s.drv.fatal || isrHolds s then .next s else k

/-- A step that only the fatal state stops (R114, R145): the interrupt engine's, and the issue of an RX or TX command, which
is the host's (R20). -/
def liveStep (s : State) (k : Result) : Result := if s.drv.fatal then .next s else k

/-! ### Reset (R380) -/

/-- `RESET`: every state element of R45's table takes its value and the peripheral's mask becomes 0; the rest of the
peripheral, host memory and the environment are untouched. That a CFG command write which waits in `env.inputs` (log 7) survives
the reset is the model's choice (DESIGN CHOICE, unsafe, log 27). -/
def applyReset (s : State) : State :=
  priSetIe
    { s with
      regs := HostRegs.reset, drv := Driver.reset, rx := RxSeq.reset, tx := TxSeq.reset, isr := IsrSeq.reset, buf := [],
      env := { s.env with resetNo := s.env.resetNo + 1 } }
    0#3

end Sys2Proof.Machine
end

