-- ==== Sys2Proof/Machine/Operands.lean ====
section
/-!
DEFINITION. Operand forms: the ring arithmetic of the index operands (R130, R131, R133), the threshold-selector mux
(R141), the payload of a transmit command in its two forms and of the staged remainder (R144), the latched command words
(R101), and the byte view of a host register (R74).
-/

namespace Sys2Proof.Machine

/-! ### Ring arithmetic -/

/-- `idx_next(i)` (R130). -/
def idxNext (cap i : Word) : Word := if i.toNat + 1 = cap.toNat then 0#32 else i + 1#32

/-- `ring_len(nr, nw)` (R131), 0 when receive is disabled (`cap` = 0). -/
def ringLen (cap nr nw : Word) : Nat :=
  if cap.toNat = 0 then 0
  else if nr.toNat ≤ nw.toNat then nw.toNat - nr.toNat
  else cap.toNat + nw.toNat - nr.toNat

/-- `(r + n) mod cap`, "computed as `r + n` if `r + n < cap`, else `r + n - cap`" (R133). -/
def idxAdd (cap r : Word) (n : Nat) : Word :=
  if r.toNat + n < cap.toNat then BitVec.ofNat 32 (r.toNat + n) else BitVec.ofNat 32 (r.toNat + n - cap.toNat)

/-- The slot of byte `k` of a dequeue from `r`: "When `r + k` reaches `cap` it continues at index 0" (R133). -/
def slotAt (cap r : Word) (k : Nat) : Nat := (r.toNat + k) % cap.toNat

/-- How many bytes a dequeue of at most `limit` takes (R133). -/
def takeCount (cap nr snap : Word) (limit : Nat) : Nat := min limit (ringLen cap nr snap)

/-! ### The threshold-selector mux -/

/-- `TXSEL(rem)` (R141). -/
def txSel (trigMax rem : Nat) : Nat :=
  if trigMax ≤ rem then trigMax else if 1 ≤ rem then rem else 1

/-- The level of `TXSEL` as the 8-bit operand of the request (R306). -/
def txLevel (s : State) (rem : Nat) : BitVec 8 := BitVec.ofNat 8 (txSel s.cfg.txTrigMax rem)

/-! ### Payloads -/

/-- Where the payload of a transmit command stands: host memory at `A0` (`WRITE`, `WRITE_STRING`), or the byte in the
latched immediate (`WRITE_BYTE`, R223). -/
inductive PayloadForm where
  | memory
  | immediate
deriving DecidableEq, Repr, Inhabited

/-- The payload's length `L` (R212, R223). -/
def payloadLen (s : State) : PayloadForm → Word
  | .memory => s.tx.a1
  | .immediate => 1#32

/-- Byte `tx_i` of the whole payload, as the fast path fetches it (R144). -/
def payloadByte (s : State) : PayloadForm → Byte
  | .memory => memRead s (s.tx.a0 + s.tx.i)
  | .immediate => s.tx.imm.extractLsb' 0 8

/-- The descriptor of the remainder (R214, R223). -/
def stagedDesc (s : State) : PayloadForm → TxDesc
  | .memory => { base := s.tx.a0 + s.tx.i, len := s.tx.a1 - s.tx.i, src := false }
  | .immediate => { base := 0#32, len := 1#32, src := true }

/-- What staging leaves in `tx_byte` (R223): only `WRITE_BYTE` writes it. -/
def stagedByte (s : State) : PayloadForm → Byte
  | .memory => s.drv.txByte
  | .immediate => s.tx.imm.extractLsb' 0 8

/-- `Payload(k)`, byte `k` of the staged remainder (R144). -/
def payload (s : State) (k : Word) : Byte :=
  if s.drv.txPending.src then s.drv.txByte else memRead s (s.drv.txPending.base + k)

/-- Bytes of the staged remainder still to push: `tx_pending.len - tx_cursor` (R141). -/
def remaining (s : State) : Nat := s.drv.txPending.len.toNat - s.drv.txCursor.toNat

/-! ### Latched commands (R101, R114): what a sequencer is executing -/

/-- The command RXSEQ has latched. -/
def latchedRx (s : State) : Option Instr := decodeCmd .rx (formatH s.rx.op 0#16)

/-- The command TXSEQ has latched. -/
def latchedTx (s : State) : Option Instr := decodeCmd .tx (formatH s.tx.op s.tx.imm)

/-! ### Byte order of a host register (R74) -/

/-- Byte lane `k` of a register, little-endian: lane 0 is bits 7:0. -/
def regLane (w : Word) (k : Nat) : Byte := w.extractLsb' (8 * k) 8

end Sys2Proof.Machine
end

