-- ==== Sys2Proof/Machine/ConfigCmds.lean ====
section
/-!
DEFINITION. The meanings of the CFG port's commands (44_config.md, and `LEN` of 41_receive.md R172). Each is issued
and executed in one atomic step (R114 (a)), so the port is never busy.
-/

namespace Sys2Proof.Machine

/-- The body shared by the CFG commands: a step of CFGSEQ that always responds. -/
def cfgStep (s t : State) : Result := appStep s (.next t)

/-- `CONFIGURE` (R280): the two requests in order, then `OK`; the UDC keeps no copy of either. -/
def execConfigure (lcrf : BitVec 5) (s : State) : Result :=
  cfgStep s (respondCfg (priSetBaudDiv (priCfgWordFormat s lcrf) (Config.baudDiv s.regs.cfA0)) .ok 0#4 0#8 0#32)

/-- `SET_READ_TIMEOUT` (R281). -/
def execSetReadTimeout (s : State) : Result :=
  cfgStep s (respondCfg (s.setDrv { s.drv with readTimeout := s.regs.cfA0 }) .ok 0#4 0#8 0#32)

/-- `SET_WRITE_TIMEOUT` (R282). -/
def execSetWriteTimeout (s : State) : Result :=
  cfgStep s (respondCfg (s.setDrv { s.drv with writeTimeout := s.regs.cfA0 }) .ok 0#4 0#8 0#32)

/-- `STATUS` (R283): the error mask as data, with `ERR` = `OK`. -/
def execStatus (s : State) : Result :=
  cfgStep s (respondCfg (statusTake s).1 .ok (statusTake s).2 0#8 ((statusTake s).2.setWidth 32))

/-- `LEN` (R172): unread bytes, 0 with receive disabled. -/
def execLen (s : State) : Result :=
  cfgStep s (respondCfg s .ok 0#4 0#8
    (if s.drv.rxEnabled then BitVec.ofNat 32 (ringLen s.drv.cap s.drv.nextRead s.drv.nextWrite) else 0#32))

end Sys2Proof.Machine
end

