-- ==== Sys2Proof/Machine/Pri.lean ====
section
/-!
DEFINITION. The meanings of the nine PRI requests (45_pri.md): the peripheral's answer to one request word. The
peripheral is no sequencer of the UDC: it answers in the fatal state too (R145: "Environment agents continue").
-/

namespace Sys2Proof.Machine

/-- `PRI.LOAD` (R300); an empty FIFO gives the request no meaning (U6). -/
def execPriLoad (s : State) : Result := orRefuse ((priLoad s).map fun r => r.1) .loadEmpty

/-- `PRI.STORE b` (R301); a full FIFO gives the request no meaning (U6). -/
def execPriStore (b : Byte) (s : State) : Result := orRefuse (priStore s b) .storeFull

/-- `PRI.STATUS` (R302). The bare request: `err_mask` is `PStatus`'s business (R142). -/
def execPriStatus (s : State) : Result := .next (priStatus s).1

/-- `PRI.SET_IE mask` (R303). The bare request: the shadow `ie` is `IE_SET`'s and `IE_CLR`'s business (R139). -/
def execPriSetIe (mask : BitVec 3) (s : State) : Result := .next (priSetIe s mask)

/-- `PRI.INT_SOURCE` (R304). -/
def execPriIntSource (s : State) : Result := .next (priIntSource s).1

/-- `PRI.SET_RX_TRIG n` (R305); outside the legal range no meaning (U8). -/
def execPriSetRxTrig (n : BitVec 8) (s : State) : Result := orRefuse (priSetRxTrig s n) .triggerRange

/-- `PRI.SET_TX_TRIG n` (R306); outside the legal range no meaning (U8). -/
def execPriSetTxTrig (n : BitVec 8) (s : State) : Result := orRefuse (priSetTxTrig s n) .triggerRange

/-- `PRI.SET_BAUD_DIV n` (R307). -/
def execPriSetBaudDiv (n : BitVec 28) (s : State) : Result := .next (priSetBaudDiv s n)

/-- `PRI.CFG_WORD_FORMAT lcrf` (R308). -/
def execPriCfgWordFormat (lcrf : BitVec 5) (s : State) : Result := .next (priCfgWordFormat s lcrf)

end Sys2Proof.Machine
end

