-- ==== Sys2Proof/Machine/Receive.lean ====
section
/-!
DEFINITION. The meanings of the RX port's commands (41_receive.md). `exec` of a command is its next atomic step:
its issue when the port is idle, else the step that `rx_phase` names. One definition per label; the wait protocol P1 to P6 and
the completion ADV, FIN1, FIN2 are shared by `READ` and `READ_BYTE` (R173, R182).
-/

namespace Sys2Proof.Machine

/-! ### ENABLE_RX (R170) -/

/-- EN1's writes when the capacity is accepted. -/
def rxEnable (s : State) : State :=
  s.setDrv
    { s.drv with
      cap := s.rx.a0, nextRead := 0#32, nextWrite := 0#32, overflow := false, rxWakeRequested := false, rxWake := false,
      rxEnabled := true }

/-- EN1: already enabled, then too small, then too large, else enable and program the trigger level. -/
def rxEN1 (s : State) : Result :=
  if s.drv.rxEnabled then .next (raiseFatal s .rxAlreadyEnabled)
  else if s.rx.a0.toNat < 2 then .next (raiseFatal s .capacityTooSmall)
  else if s.cfg.capMax < s.rx.a0.toNat then .next (raiseFatal s .capacityTooLarge)
  else
    match priSetRxTrig (rxEnable s) (BitVec.ofNat 8 s.cfg.rxTrig) with
    | some t => .next (rxGo t .en2)
    | none => .refused .triggerRange

/-- EN2: enable the receive source, and the status source where the variant has it; respond with the capacity. -/
def rxEN2 (s : State) : Result := .next (respondRx (ieSet s (rxSources s.cfg)) .ok 0#4 0#8 s.rx.a0)

/-! ### DISABLE_RX (R171) -/

/-- DR1. -/
def rxDR1 (s : State) : Result :=
  if s.drv.rxEnabled then .next (rxGo (ieClr s (srcRx ||| srcSt)) .dr2)
  else .next (respondRx s .ok 0#4 0#8 0#32)

/-- DR2: hold until `isr_state != in-rx`. -/
def rxDR2 (s : State) : Result := if s.drv.isrState = .inRx then .next s else .next (rxGo s .dr3)

/-- DR3: release the ring and respond with the capacity released. -/
def rxDR3 (s : State) : Result :=
  .next (respondRx
    (s.setDrv
      { s.drv with
        rxEnabled := false, cap := 0#32, nextRead := 0#32, nextWrite := 0#32, overflow := false, rxWakeRequested := false })
    .ok 0#4 0#8 s.drv.cap)

/-! ### The wait protocol (R173 to R179, R183) -/

/-- P1 (R174). -/
def rxP1 (s : State) : Result :=
  if s.drv.nextWrite ≠ s.drv.nextRead then .next (s.setRx { s.rx with nwSnap := s.drv.nextWrite, phase := .copy })
  else .next (rxGo s .p2a)

/-- P2A (R175). -/
def rxP2A (s : State) : Result := .next (rxGo (clearRxWake s) .p2b)

/-- P2B (R176). -/
def rxP2B (s : State) : Result := .next (rxGo (s.setDrv { s.drv with rxWakeRequested := true }) .p3)

/-- P3 (R177). -/
def rxP3 (s : State) : Result :=
  if s.drv.nextWrite ≠ s.drv.nextRead then .next (s.setRx { s.rx with nwSnap := s.drv.nextWrite, phase := .p3c })
  else .next (rxGo s .p4)

/-- P3C (R177): the swap's result is not used. -/
def rxP3C (s : State) : Result := .next (rxGo (casWakeRequest s).1 .copy)

/-- P4 (R178): enter the sleep with the timeout then current. -/
def rxP4 (s : State) : Result :=
  .next (s.setRx { s.rx with timer := s.rx.timer.arm s.drv.readTimeout, phase := .p4l })

/-- P4L (R178): hold until woken or expired; a signal wins over an expiry (R136). -/
def rxP4L (s : State) : Result :=
  if s.drv.rxWake || s.rx.timer.expired then
    .next (s.setRx
      { s.rx with
        waitOk := s.drv.rxWake, timer := s.rx.timer.disarm, phase := if s.drv.rxWake then .p6 else .p5 })
  else .next s

/-- P5 (R179): a genuine timeout when the swap succeeds, else the unconditional second sleep. -/
def rxP5 (s : State) : Result :=
  if (casWakeRequest s).2 then .next (respondRx (casWakeRequest s).1 .timeout 0#4 0#8 0#32)
  else .next (rxGo (casWakeRequest s).1 .p5s)

/-- P5S (R179). -/
def rxP5S (s : State) : Result := .next (s.setRx { s.rx with timer := s.rx.timer.arm infTimeout, phase := .p5l })

/-- P5L (R179): hold until signalled. -/
def rxP5L (s : State) : Result := if s.drv.rxWake then .next (rxGo s .p6) else .next s

/-- P6 (R183): woken on an empty buffer is fatal. -/
def rxP6 (s : State) : Result :=
  if s.drv.nextWrite = s.drv.nextRead then .next (raiseFatal s .wakeOnEmpty)
  else .next (s.setRx { s.rx with nwSnap := s.drv.nextWrite, phase := .copy })

/-! ### Delivering the data (R180 to R182) -/

/-- COPY's loop: `n` bytes from byte `k` on, host memory byte `k` from slot `(next_read + k) mod cap`. -/
def copyBytes : Nat → Nat → State → Option State
  | 0, _, s => some s
  | n + 1, k, s =>
    match bufGet s (slotAt s.drv.cap s.drv.nextRead k) with
    | some b => copyBytes n (k + 1) (memWrite s (s.rx.a0 + BitVec.ofNat 32 k) b)
    | none => none

/-- How many bytes COPY of `READ` takes: `min(L, ring_len(next_read, nw_snap))`. -/
def copyCount (s : State) : Nat := takeCount s.drv.cap s.drv.nextRead s.rx.nwSnap s.rx.a1.toNat

/-- COPY of `READ` (R180). -/
def rxCopy (s : State) : Result :=
  match copyBytes (copyCount s) 0 s with
  | some t => .next (t.setRx { t.rx with rdN := BitVec.ofNat 32 (copyCount s), phase := .adv })
  | none => .fault .bufRange

/-- COPY of `READ_BYTE` (R181): no host-memory write. -/
def rxCopyByte (s : State) : Result :=
  match bufGet s s.drv.nextRead.toNat with
  | some b => .next (s.setRx { s.rx with rdByte := b, rdN := 1#32, phase := .adv })
  | none => .fault .bufRange

/-- ADV (R180). -/
def rxADV (s : State) : Result :=
  .next (rxGo (s.setDrv { s.drv with nextRead := idxAdd s.drv.cap s.drv.nextRead s.rx.rdN.toNat }) .fin1)

/-- FIN1 (R182): the atomic test-and-clear of `overflow`. -/
def rxFIN1 (s : State) : Result :=
  .next ((s.setDrv { s.drv with overflow := false }).setRx { s.rx with rdOvf := s.drv.overflow, phase := .fin2 })

/-- FIN2 (R182): take the error mask, resolve the error, respond with the byte given and `N = rd_n`. -/
def rxFIN2 (byte : Byte) (s : State) : Result :=
  .next (respondRx (statusTake s).1 (readErr (statusTake s).2 s.rx.rdOvf) (statusTake s).2 byte s.rx.rdN)

/-- The steps `READ` and `READ_BYTE` share, by label; a label of another command means that the port is busy with
that command (U1). -/
def rxShared (byte : Byte) (s : State) : Result :=
  match s.rx.phase with
  | .p1 => rxP1 s
  | .p2a => rxP2A s
  | .p2b => rxP2B s
  | .p3 => rxP3 s
  | .p3c => rxP3C s
  | .p4 => rxP4 s
  | .p4l => rxP4L s
  | .p5 => rxP5 s
  | .p5s => rxP5S s
  | .p5l => rxP5L s
  | .p6 => rxP6 s
  | .adv => rxADV s
  | .fin1 => rxFIN1 s
  | .fin2 => rxFIN2 byte s
  | .copy => .refused .portBusy
  | .idle => .refused .portBusy
  | .en1 => .refused .portBusy
  | .en2 => .refused .portBusy
  | .dr1 => .refused .portBusy
  | .dr2 => .refused .portBusy
  | .dr3 => .refused .portBusy

/-! ### The meanings -/

/-- A step of an RX command: the host's issue on the idle port (R114 (a)), else a step of RXSEQ. -/
def rxStep (s : State) (issue work : Result) : Result :=
  if s.rx.phase = .idle then liveStep s issue else appStep s work

/-- `ENABLE_RX` (R170): issue, EN1, EN2. -/
def execEnableRx (s : State) : Result :=
  rxStep s (.next (issueRx s (encode .enableRx) .en1)) <|
    match s.rx.phase with
    | .en1 => rxEN1 s
    | .en2 => rxEN2 s
    | _ => .refused .portBusy

/-- `DISABLE_RX` (R171): issue, DR1, DR2, DR3. -/
def execDisableRx (s : State) : Result :=
  rxStep s (.next (issueRx s (encode .disableRx) .dr1)) <|
    match s.rx.phase with
    | .dr1 => rxDR1 s
    | .dr2 => rxDR2 s
    | .dr3 => rxDR3 s
    | _ => .refused .portBusy

/-- RD0 (R180), "at issue": no meaning with receive disabled (U3), an immediate `OK` for length 0. -/
def rxRD0 (s : State) : Result :=
  if !s.drv.rxEnabled then .refused .rxDisabled
  else if s.regs.rxA1 = 0#32 then .next (respondRx (issueRx s (encode .read) .idle) .ok 0#4 0#8 0#32)
  else .next (issueRx s (encode .read) .p1)

/-- RB0 (R181), "at issue". -/
def rxRB0 (s : State) : Result :=
  if !s.drv.rxEnabled then .refused .rxDisabled else .next (issueRx s (encode .readByte) .p1)

/-- `READ` (R180): RD0, the wait protocol, COPY, ADV, FIN1, FIN2. -/
def execRead (s : State) : Result :=
  rxStep s (rxRD0 s) <|
    match s.rx.phase with
    | .copy => rxCopy s
    | _ => rxShared 0#8 s

/-- `READ_BYTE` (R181): RB0, the wait protocol, COPY, ADV, FIN1, FIN2. -/
def execReadByte (s : State) : Result :=
  rxStep s (rxRB0 s) <|
    match s.rx.phase with
    | .copy => rxCopyByte s
    | _ => rxShared s.rx.rdByte s

end Sys2Proof.Machine
end

