-- ==== Sys2Proof/Machine/Service.lean ====
section
/-!
DEFINITION. The interrupt service engine (43_isr.md): `SERVICE_INTERRUPT` and the labels S0 to ST1 of ISRSEQ. No step
is a hold (R267 (1)).
-/

namespace Sys2Proof.Machine

/-! ### Receive section (R251 to R258) -/

/-- A dispatch step: sample the gated cause, latch it and, if the section's bit is set, mark `isr_state`, all in one
step (R251, R259, R265). -/
def isrDispatch (s : State) (hit : BitVec 3 → Bool) (mark : IsrMark) (enter skip : IsrPhase) : State :=
  let c := (priIntSource s).2
  let t := (priIntSource s).1
  if hit c then (t.setDrv { t.drv with isrState := mark }).setIsr { t.isr with cause := c, phase := enter }
  else t.setIsr { t.isr with cause := c, phase := skip }

/-- S0 (R251). -/
def isrS0 (s : State) : Result := .next (isrDispatch s hasRx .inRx .i1 .s1)

/-- I1 (R252). -/
def isrI1 (s : State) : Result :=
  match priLoad s with
  | some (t, b, more) => .next (t.setIsr { t.isr with byte := b, more := more, phase := .i2 })
  | none => .refused .loadEmpty

/-- I2 (R253): the full test against the `next_read` just loaded. -/
def isrI2 (s : State) : Result :=
  let nw1 := idxNext s.drv.cap s.drv.nextWrite
  .next (s.setIsr
    { s.isr with nw1 := nw1, stored := decide (nw1 ≠ s.drv.nextRead), phase := if nw1 = s.drv.nextRead then .i3f else .i3 })

/-- I3 (R254): store at the old `next_write`. -/
def isrI3 (s : State) : Result :=
  match bufPut s s.drv.nextWrite.toNat s.isr.byte with
  | some t => .next (isrGo t .i4)
  | none => .fault .bufRange

/-- I3F (R254): drop. -/
def isrI3F (s : State) : Result := .next (isrGo (s.setDrv { s.drv with overflow := true }) .i7)

/-- I4 (R255): publish. -/
def isrI4 (s : State) : Result := .next (isrGo (s.setDrv { s.drv with nextWrite := s.isr.nw1 }) .i5)

/-- I5 (R256): consume the wake request. -/
def isrI5 (s : State) : Result := .next (isrGo (casWakeRequest s).1 (if (casWakeRequest s).2 then .i6 else .i7))

/-- I6 (R257): wake the consumer. -/
def isrI6 (s : State) : Result := .next (isrGo (wakeRx s) .i7)

/-- I7 (R258): loop or leave. -/
def isrI7 (s : State) : Result :=
  if s.isr.more then .next (isrGo s .i1) else .next (isrGo (s.setDrv { s.drv with isrState := .idle }) .s1)

/-! ### Transmit section (R259 to R265) -/

/-- S1 (R259). -/
def isrS1 (s : State) : Result := .next (isrDispatch s hasTx .inTx .t1 .s2)

/-- T1 (R260). -/
def isrT1 (s : State) : Result :=
  .next (isrGo s (if s.drv.txPending.len.toNat ≤ s.drv.txCursor.toNat then .t1a else .t2s))

/-- T1A (R260). -/
def isrT1A (s : State) : Result := .next (isrGo (ieClr s srcTx) .t1w)

/-- T1W (R261). -/
def isrT1W (s : State) : Result := .next (isrGo (wakeTx s) .t5)

/-- T2S (R262). -/
def isrT2S (s : State) : Result :=
  let full := (pStatus s).2.transmitFull
  .next ((pStatus s).1.setIsr { s.isr with full := full, phase := if full then .t4 else .t3 })

/-- T3 (R263): push one payload byte, fetched now. -/
def isrT3 (s : State) : Result :=
  match priStore s (payload s s.drv.txCursor) with
  | none => .refused .storeFull
  | some t =>
    .next (isrGo (t.setDrv { t.drv with txCursor := s.drv.txCursor + 1#32 })
      (if s.drv.txCursor + 1#32 = s.drv.txPending.len then .t4 else .t2s))

/-- T4 (R264): retune the trigger level. -/
def isrT4 (s : State) : Result :=
  match priSetTxTrig s (txLevel s (remaining s)) with
  | some t => .next (isrGo t .t5)
  | none => .refused .triggerRange

/-- T5 (R265): leave the transmit section. -/
def isrT5 (s : State) : Result := .next (isrGo (s.setDrv { s.drv with isrState := .idle }) .s2)

/-! ### Status section (R265, R266) -/

/-- S2 (R265): dispatch the status section, or return. -/
def isrS2 (s : State) : Result :=
  let c := (priIntSource s).2
  let t := (priIntSource s).1.setIsr { s.isr with cause := c }
  if hasSt c then .next (isrGo t .st1) else .next (respondIsr t)

/-- ST1 (R266): capture the line errors and return. -/
def isrST1 (s : State) : Result := .next (respondIsr (pStatus s).1)

/-- `SERVICE_INTERRUPT` (R250): its issue on the idle engine, else the step that `isr_phase` names. -/
def execServiceInterrupt (s : State) : Result :=
  liveStep s <|
    match s.isr.phase with
    | .idle => .next (issueIsr s)
    | .s0 => isrS0 s
    | .i1 => isrI1 s
    | .i2 => isrI2 s
    | .i3 => isrI3 s
    | .i3f => isrI3F s
    | .i4 => isrI4 s
    | .i5 => isrI5 s
    | .i6 => isrI6 s
    | .i7 => isrI7 s
    | .s1 => isrS1 s
    | .t1 => isrT1 s
    | .t1a => isrT1A s
    | .t1w => isrT1W s
    | .t2s => isrT2S s
    | .t3 => isrT3 s
    | .t4 => isrT4 s
    | .t5 => isrT5 s
    | .s2 => isrS2 s
    | .st1 => isrST1 s

end Sys2Proof.Machine
end

