-- ==== Sys2Proof/Machine/Transmit.lean ====
section
/-!
DEFINITION. The meanings of the TX port's commands (42_transmit.md). `exec` of a command is its next atomic step: its
issue when the port is idle, else the step that `tx_phase` names. The steps W0 to W10 are shared by the three write commands
(R116, R222, R223), which differ in where the payload stands.
-/

namespace Sys2Proof.Machine

/-! ### ENABLE_TX and DISABLE_TX (R210, R211) -/

/-- TE1. -/
def txTE1 (s : State) : Result := .next (respondTx (s.setDrv { s.drv with txEnabled := true }) .ok 0#4 0#8 0#32)

/-- DT1. -/
def txDT1 (s : State) : Result :=
  if s.drv.txEnabled then .next (txGo (ieClr s srcTx) .dt2) else .next (respondTx s .ok 0#4 0#8 0#32)

/-- DT2: hold until `isr_state != in-tx`. -/
def txDT2 (s : State) : Result := if s.drv.isrState = .inTx then .next s else .next (txGo s .dt3)

/-- DT3. -/
def txDT3 (s : State) : Result := .next (respondTx (s.setDrv { s.drv with txEnabled := false }) .ok 0#4 0#8 0#32)

/-! ### Writing (R212 to R221) -/

/-- W0 (R212), "at issue": no meaning with transmit disabled (U4), an immediate `OK` for an empty payload. `w` is the
command word, `len` its payload's length. -/
def txW0 (w len : Word) (s : State) : Result :=
  if !s.drv.txEnabled then .refused .txDisabled
  else if len = 0#32 then .next (respondTx ((issueTx s w .idle).setTx { (issueTx s w .idle).tx with i := 0#32 }) .ok 0#4 0#8 0#32)
  else .next ((issueTx s w .w1s).setTx { (issueTx s w .w1s).tx with i := 0#32 })

/-- W1S (R213). -/
def txW1S (s : State) : Result :=
  .next (txGo (pStatus s).1 (if (pStatus s).2.transmitFull then .w3 else .w1p))

/-- W1P (R213): push one payload byte; the last one responds. -/
def txW1P (form : PayloadForm) (s : State) : Result :=
  match priStore s (payloadByte s form) with
  | none => .refused .storeFull
  | some t =>
    if s.tx.i + 1#32 = payloadLen s form then
      .next (respondTx (t.setTx { t.tx with i := s.tx.i + 1#32 }) .ok 0#4 0#8 (payloadLen s form))
    else .next (t.setTx { t.tx with i := s.tx.i + 1#32, phase := .w1s })

/-- W3 (R214): stage the remainder. -/
def txW3 (form : PayloadForm) (s : State) : Result :=
  .next (txGo
    (s.setDrv { s.drv with txPending := stagedDesc s form, txByte := stagedByte s form, txCursor := 0#32 }) .w4)

/-- W4 (R215): tune the trigger level to `L - tx_i`. -/
def txW4 (form : PayloadForm) (s : State) : Result :=
  match priSetTxTrig s (txLevel s ((payloadLen s form).toNat - s.tx.i.toNat)) with
  | some t => .next (txGo t .w5)
  | none => .refused .triggerRange

/-- W5 (R216). -/
def txW5 (s : State) : Result := .next (txGo (clearTxDone s) .w6)

/-- W6 (R217). -/
def txW6 (s : State) : Result := .next (txGo (ieSet s srcTx) .w7)

/-- W7 (R218). -/
def txW7 (s : State) : Result :=
  .next (s.setTx { s.tx with timer := s.tx.timer.arm s.drv.writeTimeout, phase := .w7l })

/-- W7L (R218): hold until signalled or expired; a signal wins (R136). -/
def txW7L (s : State) : Result :=
  if s.drv.txDone || s.tx.timer.expired then
    .next (s.setTx
      { s.tx with
        waitOk := s.drv.txDone, timer := s.tx.timer.disarm, phase := if s.drv.txDone then .w9 else .w8 })
  else .next s

/-- W8 (R219). -/
def txW8 (s : State) : Result := .next (txGo (ieClr s srcTx) .w9)

/-- W9 (R220): hold until `isr_state != in-tx`. -/
def txW9 (s : State) : Result := if s.drv.isrState = .inTx then .next s else .next (txGo s .w10)

/-- W10 (R221): account, empty the descriptor, respond. -/
def txW10 (s : State) : Result :=
  .next (respondTx (s.setDrv { s.drv with txPending := TxDesc.empty, txCursor := 0#32 })
    (if s.tx.waitOk then .ok else .timeout) 0#4 0#8 (s.tx.i + s.drv.txCursor))

/-- The labels of a write command in flight; a label of another command means that the port is busy with that
command (U1). -/
def txWriteStep (form : PayloadForm) (s : State) : Result :=
  match s.tx.phase with
  | .w1s => txW1S s
  | .w1p => txW1P form s
  | .w3 => txW3 form s
  | .w4 => txW4 form s
  | .w5 => txW5 s
  | .w6 => txW6 s
  | .w7 => txW7 s
  | .w7l => txW7L s
  | .w8 => txW8 s
  | .w9 => txW9 s
  | .w10 => txW10 s
  | .idle => .refused .portBusy
  | .te1 => .refused .portBusy
  | .dt1 => .refused .portBusy
  | .dt2 => .refused .portBusy
  | .dt3 => .refused .portBusy
  | .fl1 => .refused .portBusy
  | .fl2 => .refused .portBusy

/-! ### FLUSH (R224) -/

/-- FL1. -/
def txFL1 (s : State) : Result :=
  .next (s.setTx { s.tx with timer := s.tx.timer.arm s.drv.writeTimeout, phase := .fl2 })

/-- FL2: hold until the FIFO is empty or the timer has expired; an empty FIFO wins (R345 (d)). -/
def txFL2 (s : State) : Result :=
  if transmitDone s.per || s.tx.timer.expired then
    .next (respondTx ((pStatus s).1.setTx { s.tx with timer := s.tx.timer.disarm })
      (if (pStatus s).2.transmitDone then .ok else .timeout) 0#4 0#8 0#32)
  else .next s

/-! ### The meanings -/

/-- A step of a TX command: the host's issue on the idle port (R114 (a)), else a step of TXSEQ. -/
def txStep (s : State) (issue work : Result) : Result :=
  if s.tx.phase = .idle then liveStep s issue else appStep s work

/-- `ENABLE_TX` (R210): issue, TE1. -/
def execEnableTx (s : State) : Result :=
  txStep s (.next (issueTx s (encode .enableTx) .te1)) <|
    match s.tx.phase with
    | .te1 => txTE1 s
    | _ => .refused .portBusy

/-- `DISABLE_TX` (R211): issue, DT1, DT2, DT3. -/
def execDisableTx (s : State) : Result :=
  txStep s (.next (issueTx s (encode .disableTx) .dt1)) <|
    match s.tx.phase with
    | .dt1 => txDT1 s
    | .dt2 => txDT2 s
    | .dt3 => txDT3 s
    | _ => .refused .portBusy

/-- `WRITE` (R222): exactly as `WRITE_STRING`, with its own opcode. -/
def execWrite (s : State) : Result :=
  txStep s (txW0 (encode .write) s.regs.txA1 s) (txWriteStep .memory s)

/-- `WRITE_STRING` (R212). -/
def execWriteString (s : State) : Result :=
  txStep s (txW0 (encode .writeString) s.regs.txA1 s) (txWriteStep .memory s)

/-- `WRITE_BYTE b` (R223): one byte, from the latched immediate; no host memory is touched. -/
def execWriteByte (b : Byte) (s : State) : Result :=
  txStep s (txW0 (encode (.writeByte b)) 1#32 s) (txWriteStep .immediate s)

/-- `FLUSH` (R224): issue, FL1, FL2. -/
def execFlush (s : State) : Result :=
  txStep s (.next (issueTx s (encode .flush) .fl1)) <|
    match s.tx.phase with
    | .fl1 => txFL1 s
    | .fl2 => txFL2 s
    | _ => .refused .portBusy

end Sys2Proof.Machine
end

