-- ==== Sys2Proof/Machine/Dispatch.lean ====
section
/-!
DEFINITION. One arm per instruction, each a direct call of its meaning. For a host command, `exec` is the command's
next atomic step: its issue when its port is idle, else the step its port's phase names (R9, R37, R114).
-/

namespace Sys2Proof.Machine

def exec (i : Instr) (s : State) : Host.Outcome State Fault Refusal :=
  match i with
  | .configure lcrf => Sys2Proof.Machine.execConfigure lcrf s
  | .setReadTimeout => Sys2Proof.Machine.execSetReadTimeout s
  | .setWriteTimeout => Sys2Proof.Machine.execSetWriteTimeout s
  | .status => Sys2Proof.Machine.execStatus s
  | .len => Sys2Proof.Machine.execLen s
  | .enableRx => Sys2Proof.Machine.execEnableRx s
  | .disableRx => Sys2Proof.Machine.execDisableRx s
  | .read => Sys2Proof.Machine.execRead s
  | .readByte => Sys2Proof.Machine.execReadByte s
  | .enableTx => Sys2Proof.Machine.execEnableTx s
  | .disableTx => Sys2Proof.Machine.execDisableTx s
  | .write => Sys2Proof.Machine.execWrite s
  | .writeString => Sys2Proof.Machine.execWriteString s
  | .writeByte b => Sys2Proof.Machine.execWriteByte b s
  | .flush => Sys2Proof.Machine.execFlush s
  | .serviceInterrupt => Sys2Proof.Machine.execServiceInterrupt s
  | .priLoad => Sys2Proof.Machine.execPriLoad s
  | .priStore b => Sys2Proof.Machine.execPriStore b s
  | .priStatus => Sys2Proof.Machine.execPriStatus s
  | .priSetIe mask => Sys2Proof.Machine.execPriSetIe mask s
  | .priIntSource => Sys2Proof.Machine.execPriIntSource s
  | .priSetRxTrig n => Sys2Proof.Machine.execPriSetRxTrig n s
  | .priSetTxTrig n => Sys2Proof.Machine.execPriSetTxTrig n s
  | .priSetBaudDiv n => Sys2Proof.Machine.execPriSetBaudDiv n s
  | .priCfgWordFormat lcrf => Sys2Proof.Machine.execPriCfgWordFormat lcrf s

end Sys2Proof.Machine
end

