-- ==== Sys2Proof/Machine/Line.lean ====
section
/-!
DEFINITION. The environment's steps: the agents LINE (R313 to R317) and TICK (R137). A step whose enabling condition
is false is not taken: the state stays as it is.
-/

namespace Sys2Proof.Machine

/-- The flag `OE` (R110). -/
def flagOE : BitVec 4 := 1#4

/-- `LINE_RX(b)` (R313): append, or lose the byte and latch `OE` where the variant detects it. -/
def lineRx (s : State) (b : Byte) : State :=
  if s.per.rxFifo.length < s.cfg.rxDepth then s.setPer { s.per with rxFifo := s.per.rxFifo ++ [b] }
  else if s.cfg.hasLineStatus then s.setPer { s.per with hwerr := s.per.hwerr ||| flagOE }
  else s

/-- `LINE_TX` (R314): the line takes the oldest byte. -/
def lineTx (s : State) : State :=
  match s.per.txFifo with
  | [] => s
  | b :: rest => s.setPer { s.per with txFifo := rest, wire := s.per.wire ++ [b] }

/-- `LINE_ERR(f)` (R315): `f` is non-zero. -/
def lineErr (s : State) (f : BitVec 4) : State :=
  if s.cfg.hasLineStatus && decide (f ≠ 0#4) then s.setPer { s.per with hwerr := s.per.hwerr ||| f } else s

/-- `RX_IDLE` (R316). -/
def rxIdle (s : State) : State :=
  if 1 ≤ s.per.rxFifo.length then s.setPer { s.per with rxStale := true } else s

/-- The TICK step (R137): both timers. -/
def tick (s : State) : State :=
  (s.setRx { s.rx with timer := s.rx.timer.tick }).setTx { s.tx with timer := s.tx.timer.tick }

end Sys2Proof.Machine
end

