-- ==== Sys2Proof/Machine/HostPort.lean ====
section
/-!
DEFINITION. Where instructions are fetched: the host register file (R35), whose `CMD` writes issue commands (R113,
R114), the latches of the three sequencers, which continue them, and the PRI. Beside them, the events of the environment.
-/

namespace Sys2Proof.Machine

/-! ### The host register file (R35) -/

/-- A host read of register `k`: side-effect free (R77 (e)); a `W`-only or reserved register reads 0. -/
def readReg (s : State) (k : Nat) : Word :=
  match k with
  | 1 => s.regs.cfA0
  | 2 => s.regs.cfA1
  | 3 => s.regs.cfRsp
  | 4 => s.regs.cfN
  | 9 => s.regs.rxA0
  | 10 => s.regs.rxA1
  | 11 => s.regs.rxRsp
  | 12 => s.regs.rxN
  | 17 => s.regs.txA0
  | 18 => s.regs.txA1
  | 19 => s.regs.txRsp
  | 20 => s.regs.txN
  | 27 => s.regs.svRsp
  | 32 => stateWord s.drv
  | 33 => s.drv.nextRead
  | 34 => s.drv.nextWrite
  | 35 => s.drv.cap
  | 36 => s.drv.txCursor
  | 37 => s.drv.txPending.len
  | 38 => s.drv.readTimeout
  | 39 => s.drv.writeTimeout
  | _ => 0#32

/-- The port whose `CMD` register has number `k`. -/
def cmdPort (k : Nat) : Option Port :=
  match k with
  | 0 => some .cfg
  | 8 => some .rx
  | 16 => some .tx
  | 24 => some .isr
  | _ => none

/-- The number of a port's `CMD` register (R35, R102). -/
def cmdReg : Port → Nat
  | .cfg => 0
  | .rx => 8
  | .tx => 16
  | .isr => 24

/-- The offset of a port's `CMD` register (R35). -/
def cmdOffset (p : Port) : BitVec 8 := BitVec.ofNat 8 (4 * cmdReg p)

/-- A host write of an operand register; every other register that is no `CMD` ignores a write (R35). -/
def writeOperand (s : State) (k : Nat) (v : Word) : State :=
  match k with
  | 1 => s.setRegs { s.regs with cfA0 := v }
  | 2 => s.setRegs { s.regs with cfA1 := v }
  | 9 => s.setRegs { s.regs with rxA0 := v }
  | 10 => s.setRegs { s.regs with rxA1 := v }
  | 17 => s.setRegs { s.regs with txA0 := v }
  | 18 => s.setRegs { s.regs with txA1 := v }
  | _ => s

/-- "A port is busy exactly when its sequencer's phase is not `IDLE`"; CFG has no phase (R37). -/
def portBusy (s : State) : Port → Bool
  | .cfg => false
  | .rx => decide (s.rx.phase ≠ .idle)
  | .tx => decide (s.tx.phase ≠ .idle)
  | .isr => decide (s.isr.phase ≠ .idle)

/-- The response to an illegal command word on an idle port (R113): `ERR` = 15 on every port, `N` 0 where the port has one. -/
def illegalCmd (s : State) : Port → State
  | .cfg => respondCfg s .illegalCommand 0#4 0#8 0#32
  | .rx => respondRx s .illegalCommand 0#4 0#8 0#32
  | .tx => respondTx s .illegalCommand 0#4 0#8 0#32
  | .isr => respondIsrIllegal s

/-- Under `run_to_completion` a legal CFG command cannot be issued while an interrupt service is in progress: its issue is
its execution, a step of CFGSEQ (R9, R114 (a), R346). -/
def cfgHeld (s : State) (p : Port) : Bool := decide (p = .cfg) && isrHolds s

/-- The host's write waits its turn behind the events already placed (R8: a step that is not enabled yet). -/
def putOff (s : State) (e : Event) : State := s.setEnv { s.env with inputs := s.env.inputs ++ [e] }

/-- A host write of word `w` to the `CMD` register of port `p` (R114). In the fatal state it is ignored; (c) on a busy RX or
TX port it has no meaning, (d) on the busy ISR port it is ignored; (b) an illegal word is answered with `ERR` = 15; (a) a legal
one is issued, at once but for a CFG command that is held, which waits (log 7). -/
def cmdWrite (p : Port) (w : Word) (s : State) : Result :=
  if s.drv.fatal then .next s
  else if portBusy s p then (if p = .isr then .next s else .refused .portBusy)
  else
    match decodeCmd p w with
    | some i => if cfgHeld s p then .next (putOff s (.hostWrite (cmdOffset p) 4 w)) else exec i s
    | none => .next (illegalCmd s p)

/-- Is the access one whole register at its own offset (R75, U9)? -/
def wholeReg (off : BitVec 8) (bytes : Nat) : Bool := decide (bytes = 4) && decide (off.toNat % 4 = 0)

/-- A host write to the register window. -/
def hostWrite (off : BitVec 8) (bytes : Nat) (v : Word) (s : State) : Result :=
  if wholeReg off bytes then
    match cmdPort (off.toNat / 4) with
    | some p => cmdWrite p v s
    | none => .next (writeOperand s (off.toNat / 4) v)
  else .refused .hrfAccess

/-- The host latches what it read. -/
def latchHostData (s : State) (v : Word) : State := s.setEnv { s.env with hostData := v }

/-- A host read of the register window. -/
def hostRead (off : BitVec 8) (bytes : Nat) (s : State) : Result :=
  if wholeReg off bytes then .next (latchHostData s (readReg s (off.toNat / 4))) else .refused .hrfAccess

/-! ### The turns of the sequencers: a sequencer in progress executes the command it has latched -/

/-- RXSEQ's turn; an idle sequencer has no step. -/
def rxTurn (s : State) : Result :=
  if s.rx.phase = .idle then .next s
  else
    match latchedRx s with
    | some i => exec i s
    | none => .fault .corruptLatch

/-- TXSEQ's turn. -/
def txTurn (s : State) : Result :=
  if s.tx.phase = .idle then .next s
  else
    match latchedTx s with
    | some i => exec i s
    | none => .fault .corruptLatch

/-- ISRSEQ's turn: the ISR port has the one command. -/
def isrTurn (s : State) : Result := if s.isr.phase = .idle then .next s else exec .serviceInterrupt s

/-! ### The events of the environment -/

/-- What one scheduled event does. -/
def runEvent (e : Event) (s : State) : Result :=
  match e with
  | .hostWrite off bytes v => hostWrite off bytes v s
  | .hostRead off bytes => hostRead off bytes s
  | .memWrite a b => .next (memWrite s a b)
  | .memRead a => .next (latchHostData s ((memRead s a).setWidth 32))
  | .reset => .next (applyReset s)
  | .rxSeq => rxTurn s
  | .txSeq => txTurn s
  | .isrSeq => isrTurn s
  | .tick => .next (tick s)
  | .lineRx b => .next (lineRx s b)
  | .lineTx => .next (lineTx s)
  | .lineErr f => .next (lineErr s f)
  | .rxIdle => .next (rxIdle s)

/-- Is an event one of the host's accesses? They happen in the order in which they are placed. -/
def hostAccess : Event → Bool
  | .hostWrite _ _ _ | .hostRead _ _ | .memWrite _ _ | .memRead _ => true
  | .reset | .rxSeq | .txSeq | .isrSeq | .tick | .lineRx _ | .lineTx | .lineErr _ | .rxIdle => false

/-- Is an event the issue of a CFG command that is held? -/
def heldEvent (s : State) : Event → Bool
  | .hostWrite off bytes w =>
    wholeReg off bytes && decide (off = cmdOffset .cfg) && !s.drv.fatal && cfgHeld s .cfg && (decodeCmd .cfg w).isSome
  | _ => false

/-- May the event be taken now? While the host waits for a held issue, its accesses wait behind it; that a reset does not
wait is the model's choice (DESIGN CHOICE, unsafe, log 27). -/
def mayTake (s : State) (e : Event) : Bool := !(s.env.inputs.head?.any (heldEvent s)) || !hostAccess e

/-- The next event: the first one placed in the state that may be taken, else the free schedule's next choice (R43). -/
def nextEvent (s : State) : Event := (s.env.inputs.find? (mayTake s)).getD (Config.schedule s.env.eventNo)

/-- The state once its next event has been taken off. -/
def takeEvent (s : State) : State :=
  if s.env.inputs.any (mayTake s) then s.setEnv { s.env with inputs := s.env.inputs.eraseP (mayTake s) }
  else s.setEnv { s.env with eventNo := s.env.eventNo + 1 }

/-- The request word waiting on the PRI is taken off it. -/
def takePri (s : State) : State := s.setPri { s.pri with pending := none }

/-- The peripheral answers a request word waiting on the PRI (R111). -/
def answerPri (w : Word) (s : State) : Result :=
  match decodePri w with
  | some i => exec i (takePri s)
  | none => .refused .badPriWord

/-- Place an instruction's word where the next step fetches it: a PRI request on the PRI, any other word as the host's
next write, to the `CMD` register of the port it names. -/
def placeWord (s : State) (w : Word) : State :=
  match decodePri w with
  | some _ => s.setPri { s.pri with pending := some w }
  | none =>
    (takePri s).setEnv { s.env with inputs := .hostWrite (cmdOffset (wordPort w)) 4 w :: s.env.inputs }

end Sys2Proof.Machine
end

