-- ==== Sys2Proof/Machine/Step.lean ====
section
/-!
DEFINITION. One atomic step of the machine (R9): a request word waiting on the PRI is answered; else the next event
of the schedule happens.
-/

namespace Sys2Proof.Machine

/-- One step. -/
def step (s : State) : Host.Outcome State Fault Refusal :=
  match s.pri.pending with
  | some w => answerPri w s
  | none => runEvent (nextEvent s) (takeEvent s)

/-- `s` with the instruction whose bits are `w` placed where the next step fetches. -/
def State.withFetchWord (s : State) (nbits w : Nat) : State := placeWord s (BitVec.ofNat 32 (w % 2 ^ nbits))

end Sys2Proof.Machine
end

