-- ==== Sys2Proof/Safety.lean ====
section
/-!
DEFINITION. The terms in which claims are stated: a faulted run (R145, D5), the contents of the ring (R132, R133), the
good states (what every run from reset keeps: R22, R26 to R32, R37, R44, R184, R225, R312), and whole commands as repeated
steps.
-/

namespace Sys2Proof.Machine

/-- "A model treats a run that reaches `fatal = 1` as faulted: the state is never final" (R145). -/
def State.faulted (s : State) : Bool := s.drv.fatal

/-- A state in which no command is in flight and the run is not faulted. -/
def State.quiet (s : State) : Bool :=
  !s.faulted && decide (s.rx.phase = .idle) && decide (s.tx.phase = .idle) && decide (s.isr.phase = .idle)

/-- A reader's, writer's or configuration step can be taken: not in the fatal state (R145), nor while an interrupt
service holds the application contexts (R9). -/
def State.appReady (s : State) : Bool := !s.drv.fatal && !isrHolds s

/-! ### The ring as a queue -/

/-- Number of unread bytes (R131). -/
def unread (s : State) : Nat := ringLen s.drv.cap s.drv.nextRead s.drv.nextWrite

/-- The unread bytes, oldest first: byte `k` stands in slot `(next_read + k) mod cap` (R132, R133). -/
def ringContents (s : State) : List Byte :=
  (List.range (unread s)).map fun k => bufSlot s (slotAt s.drv.cap s.drv.nextRead k)

/-! ### Phase classes -/

/-- The labels `READ` and `READ_BYTE` go through (R173 to R183). -/
def rxReading : RxPhase → Bool
  | .p1 | .p2a | .p2b | .p3 | .p3c | .p4 | .p4l | .p5 | .p5s | .p5l | .p6 | .copy | .adv | .fin1 | .fin2 => true
  | .idle | .en1 | .en2 | .dr1 | .dr2 | .dr3 => false

/-- The labels at which receive is certainly enabled. -/
def rxNeedsRing : RxPhase → Bool
  | .idle | .en1 | .dr1 => false
  | .en2 | .dr2 | .dr3 => true
  | .p1 | .p2a | .p2b | .p3 | .p3c | .p4 | .p4l | .p5 | .p5s | .p5l | .p6 | .copy | .adv | .fin1 | .fin2 => true

/-- From the request of a wake (P2B) to the verdict of P5. -/
def rxRequesting : RxPhase → Bool
  | .p3 | .p4 | .p4l | .p5 => true
  | .idle | .en1 | .en2 | .dr1 | .dr2 | .dr3 | .p1 | .p2a | .p2b | .p3c | .p5s | .p5l | .p6 | .copy | .adv | .fin1 | .fin2 =>
    false

/-- Asleep, or about to sleep, having seen an empty buffer. -/
def rxAsleep : RxPhase → Bool
  | .p4 | .p4l => true
  | .idle | .en1 | .en2 | .dr1 | .dr2 | .dr3 | .p1 | .p2a | .p2b | .p3 | .p3c | .p5 | .p5s | .p5l | .p6 | .copy | .adv | .fin1
  | .fin2 => false

/-- In the unconditional second sleep (R179). -/
def rxSecondSleep : RxPhase → Bool
  | .p5s | .p5l => true
  | .idle | .en1 | .en2 | .dr1 | .dr2 | .dr3 | .p1 | .p2a | .p2b | .p3 | .p3c | .p4 | .p4l | .p5 | .p6 | .copy | .adv | .fin1
  | .fin2 => false

/-- Between the clear of the Note (P2A) and the verdict of P6. -/
def rxWaiting : RxPhase → Bool
  | .p2b | .p3 | .p4 | .p4l | .p5 | .p5s | .p5l | .p6 => true
  | .idle | .en1 | .en2 | .dr1 | .dr2 | .dr3 | .p1 | .p2a | .p3c | .copy | .adv | .fin1 | .fin2 => false

/-- The labels the write commands go through (R212). -/
def txWriting : TxPhase → Bool
  | .w1s | .w1p | .w3 | .w4 | .w5 | .w6 | .w7 | .w7l | .w8 | .w9 | .w10 => true
  | .idle | .te1 | .dt1 | .dt2 | .dt3 | .fl1 | .fl2 => false

/-- The labels at which `TXIE` may be 1 (R217, R219). -/
def txArmed : TxPhase → Bool
  | .w7 | .w7l | .w8 => true
  | .idle | .te1 | .dt1 | .dt2 | .dt3 | .w1s | .w1p | .w3 | .w4 | .w5 | .w6 | .w9 | .w10 | .fl1 | .fl2 => false

/-- The labels at which the engine may be in its transmit section. -/
def txShared : TxPhase → Bool
  | .w7 | .w7l | .w8 | .w9 => true
  | .idle | .te1 | .dt1 | .dt2 | .dt3 | .w1s | .w1p | .w3 | .w4 | .w5 | .w6 | .w10 | .fl1 | .fl2 => false

/-- The labels from staging to accounting, where `tx_pending` is the remainder of the command in flight (R214, R221). -/
def txStaged : TxPhase → Bool
  | .w4 | .w5 | .w6 | .w7 | .w7l | .w8 | .w9 | .w10 => true
  | .idle | .te1 | .dt1 | .dt2 | .dt3 | .w1s | .w1p | .w3 | .fl1 | .fl2 => false

/-- The labels before staging, where part of the payload is still to push. -/
def txFilling : TxPhase → Bool
  | .w1s | .w1p | .w3 => true
  | .idle | .te1 | .dt1 | .dt2 | .dt3 | .w4 | .w5 | .w6 | .w7 | .w7l | .w8 | .w9 | .w10 | .fl1 | .fl2 => false

/-- The labels of the engine's sections and the mark each carries (R29, R251, R259). -/
def isrMarkOf : IsrPhase → IsrMark
  | .i1 | .i2 | .i3 | .i3f | .i4 | .i5 | .i6 | .i7 => .inRx
  | .t1 | .t1a | .t1w | .t2s | .t3 | .t4 | .t5 => .inTx
  | .idle | .s0 | .s1 | .s2 | .st1 => .idle

/-- The labels after a `load` in the receive section, where `isr_more` is the news of that load. -/
def isrLoaded : IsrPhase → Bool
  | .i2 | .i3 | .i3f | .i4 | .i5 | .i6 | .i7 => true
  | .idle | .s0 | .i1 | .s1 | .t1 | .t1a | .t1w | .t2s | .t3 | .t4 | .t5 | .s2 | .st1 => false

/-! ### Which command a busy port is executing -/

/-- The payload's form of a write command. -/
def formOf : Option Instr → PayloadForm
  | some (.writeByte _) => .immediate
  | _ => .memory

/-- The payload's form of the latched write command. -/
def latchedForm (s : State) : PayloadForm := formOf (latchedTx s)

/-- The commands that go through a phase of RXSEQ. -/
def rxRuns : RxPhase → Option Instr → Bool
  | .idle, _ => true
  | .en1, i => decide (i = some .enableRx)
  | .en2, i => decide (i = some .enableRx)
  | .dr1, i => decide (i = some .disableRx)
  | .dr2, i => decide (i = some .disableRx)
  | .dr3, i => decide (i = some .disableRx)
  | .p1, i => decide (i = some .read ∨ i = some .readByte)
  | .p2a, i => decide (i = some .read ∨ i = some .readByte)
  | .p2b, i => decide (i = some .read ∨ i = some .readByte)
  | .p3, i => decide (i = some .read ∨ i = some .readByte)
  | .p3c, i => decide (i = some .read ∨ i = some .readByte)
  | .p4, i => decide (i = some .read ∨ i = some .readByte)
  | .p4l, i => decide (i = some .read ∨ i = some .readByte)
  | .p5, i => decide (i = some .read ∨ i = some .readByte)
  | .p5s, i => decide (i = some .read ∨ i = some .readByte)
  | .p5l, i => decide (i = some .read ∨ i = some .readByte)
  | .p6, i => decide (i = some .read ∨ i = some .readByte)
  | .copy, i => decide (i = some .read ∨ i = some .readByte)
  | .adv, i => decide (i = some .read ∨ i = some .readByte)
  | .fin1, i => decide (i = some .read ∨ i = some .readByte)
  | .fin2, i => decide (i = some .read ∨ i = some .readByte)

/-- A write command (R212, R222, R223). -/
def isWrite : Option Instr → Bool
  | some .write => true
  | some .writeString => true
  | some (.writeByte _) => true
  | _ => false

/-- The commands that go through a phase of TXSEQ. -/
def txRuns : TxPhase → Option Instr → Bool
  | .idle, _ => true
  | .te1, i => decide (i = some .enableTx)
  | .dt1, i => decide (i = some .disableTx)
  | .dt2, i => decide (i = some .disableTx)
  | .dt3, i => decide (i = some .disableTx)
  | .fl1, i => decide (i = some .flush)
  | .fl2, i => decide (i = some .flush)
  | .w1s, i => isWrite i
  | .w1p, i => isWrite i
  | .w3, i => isWrite i
  | .w4, i => isWrite i
  | .w5, i => isWrite i
  | .w6, i => isWrite i
  | .w7, i => isWrite i
  | .w7l, i => isWrite i
  | .w8, i => isWrite i
  | .w9, i => isWrite i
  | .w10, i => isWrite i

/-! ### Good states: what every run from reset keeps -/

/-- The peripheral and the PRI: nothing waits on the PRI, the peripheral's mask equals `ie` (R32, R44), the trigger levels
are legal (R305, R306), the FIFOs fit (R310), and a variant without line status shows no error flag (R31, R32, U13). -/
structure PeripheralGood (s : State) : Prop where
  noPending : s.pri.pending = none
  maskIsIe : s.per.pmask = s.drv.ie
  rxTrig : rxLevelOk s.cfg s.per.rxTrig = true
  txTrig : txLevelOk s.cfg s.per.txTrig = true
  rxFits : s.per.rxFifo.length ≤ s.cfg.rxDepth
  txFits : s.per.txFifo.length ≤ s.cfg.txDepth
  noStatus : s.cfg.hasLineStatus = false → s.per.hwerr = 0#4 ∧ s.drv.errMask = 0#4 ∧ hasSt s.drv.ie = false

/-- Both memories are in their canonical form. -/
structure MemoryGood (s : State) : Prop where
  buf : Memory.bufWf s.cfg.capMax s.buf = true
  host : Memory.wf s.hostMem = true

/-- The ports: `BUSY` says whether the phase is `IDLE` (R37), while it is 1 every other field reads 0 and bits 31:17 always do
(R36), CFG is never busy (R114), an idle `SVRSP` is 0 or shows an illegal word (R35, R113, log 6), and a busy sequencer has
latched the command it is executing. -/
structure PortsGood (s : State) : Prop where
  cfBusy : busyBit s.regs.cfRsp = false
  rxBusy : busyBit s.regs.rxRsp = true ↔ s.rx.phase ≠ .idle
  txBusy : busyBit s.regs.txRsp = true ↔ s.tx.phase ≠ .idle
  rxRest : s.rx.phase ≠ .idle → s.regs.rxRsp = busyWord ∧ s.regs.rxN = 0#32
  txRest : s.tx.phase ≠ .idle → s.regs.txRsp = busyWord ∧ s.regs.txN = 0#32
  svBusy : s.isr.phase ≠ .idle → s.regs.svRsp = busyWord
  svIdle : s.isr.phase = .idle → s.regs.svRsp = 0#32 ∨ s.regs.svRsp = 0x0000000F#32
  cfTop : s.regs.cfRsp.extractLsb' 17 15 = 0#15
  rxTop : s.regs.rxRsp.extractLsb' 17 15 = 0#15
  txTop : s.regs.txRsp.extractLsb' 17 15 = 0#15
  rxLatch : rxRuns s.rx.phase (latchedRx s) = true
  txLatch : txRuns s.tx.phase (latchedTx s) = true

/-- The receive ring: indices inside the capacity while enabled (R22, R44), everything 0 while disabled, a receive section
only while enabled (R251), the release of DR3 only with no section in flight (R171, R391), the producer's candidate index
never the consumer's (R132), the consumer's snapshot never past the producer (R133), and every unread slot written by an
enqueue (R21, R133). -/
structure RingGood (s : State) : Prop where
  on : s.drv.rxEnabled = true →
    2 ≤ s.drv.cap.toNat ∧ s.drv.cap.toNat ≤ s.cfg.capMax ∧ s.drv.nextRead.toNat < s.drv.cap.toNat ∧
      s.drv.nextWrite.toNat < s.drv.cap.toNat
  off : s.drv.rxEnabled = false → s.drv.cap = 0#32 ∧ s.drv.nextRead = 0#32 ∧ s.drv.nextWrite = 0#32
  sourceOn : hasRx s.drv.ie = true → s.drv.rxEnabled = true
  sectionOn : s.drv.isrState = .inRx → s.drv.rxEnabled = true
  phaseOn : rxNeedsRing s.rx.phase = true → s.drv.rxEnabled = true
  release : s.rx.phase = .dr2 ∨ s.rx.phase = .dr3 → hasRx s.drv.ie = false
  released : s.rx.phase = .dr3 → s.drv.isrState ≠ .inRx
  candidate : s.isr.phase = .i3 ∨ s.isr.phase = .i4 →
    s.isr.nw1 = idxNext s.drv.cap s.drv.nextWrite ∧ s.isr.nw1 ≠ s.drv.nextRead
  stored : s.isr.phase = .i4 → Memory.get s.buf s.drv.nextWrite.toNat = some s.isr.byte
  snapshot : s.rx.phase = .p3c ∨ s.rx.phase = .copy →
    s.rx.nwSnap.toNat < s.drv.cap.toNat ∧ s.rx.nwSnap ≠ s.drv.nextRead ∧
      ringLen s.drv.cap s.drv.nextRead s.rx.nwSnap ≤ unread s
  taken : s.rx.phase = .adv → 1 ≤ s.rx.rdN.toNat ∧ s.rx.rdN.toNat ≤ unread s
  written : ∀ k, k < unread s → (Memory.get s.buf (slotAt s.drv.cap s.drv.nextRead k)).isSome = true

/-- A `READ` with length 0 never reaches the wait protocol (R180). -/
structure ReadGood (s : State) : Prop where
  nonEmpty : rxReading s.rx.phase = true → latchedRx s = some .read → s.rx.a1 ≠ 0#32

/-- The wait protocol (R173 to R183): no wake-up is lost. A request that is gone without a signal is in the engine's hands
at I6; a sleeper who has data to take has been signalled or is about to be. -/
structure WakeGood (s : State) : Prop where
  requested : rxRequesting s.rx.phase = true →
    s.drv.rxWake = true ∨ s.drv.rxWakeRequested = true ∨ s.isr.phase = .i6
  asleep : rxAsleep s.rx.phase = true → s.drv.nextWrite ≠ s.drv.nextRead →
    s.drv.rxWake = true ∨ s.isr.phase = .i5 ∨ s.isr.phase = .i6
  secondSleep : rxSecondSleep s.rx.phase = true → s.drv.rxWake = true ∨ s.isr.phase = .i6
  sound : s.cfg.isrPreempt = .runToCompletion → rxWaiting s.rx.phase = true → s.drv.rxWake = true →
    s.drv.nextWrite ≠ s.drv.nextRead
  soundWindow : s.cfg.isrPreempt = .runToCompletion → s.isr.phase = .i5 ∨ s.isr.phase = .i6 →
    s.drv.nextWrite ≠ s.drv.nextRead
  wokenData : s.cfg.isrPreempt = .runToCompletion → s.rx.phase = .p6 → s.drv.nextWrite ≠ s.drv.nextRead

/-- The engine: `isr_state` says which section its phase is in (R29), and a `load` is made only on a FIFO that holds a byte
(R300). -/
structure EngineGood (s : State) : Prop where
  mark : s.drv.isrState = isrMarkOf s.isr.phase
  loadable : s.isr.phase = .i1 → s.per.rxFifo ≠ []
  more : isrLoaded s.isr.phase = true → s.isr.more = true → s.per.rxFifo ≠ []

/-- The transmit path: `TXIE` = 1 only in the window from W6 to W8 (R217, R219, R225), a transmit section only while a write
sleeps or spins, `tx_done` set only after `TXIE` was cleared (R260), a `store` only on a FIFO with room (R301), the
accounting of R221 (the bytes pushed and staged make up the payload), and the descriptor of R214 and R223, which stands from
staging to accounting. -/
structure TransmitGood (s : State) : Prop where
  armed : hasTx s.drv.ie = true → txArmed s.tx.phase = true
  section_ : s.drv.isrState = .inTx → txShared s.tx.phase = true
  cleared : s.tx.phase = .w6 → s.drv.txDone = false
  doneOff : s.tx.phase = .w7 ∨ s.tx.phase = .w7l → s.drv.txDone = true → hasTx s.drv.ie = false
  wakeOff : s.isr.phase = .t1w → hasTx s.drv.ie = false
  roomFast : s.tx.phase = .w1p → s.per.txFifo.length < s.cfg.txDepth
  roomIsr : s.isr.phase = .t3 → s.per.txFifo.length < s.cfg.txDepth
  cursor : s.drv.txCursor.toNat ≤ s.drv.txPending.len.toNat
  more : s.isr.phase = .t2s ∨ s.isr.phase = .t3 → s.drv.txCursor.toNat < s.drv.txPending.len.toNat
  finished : s.isr.phase = .t1a ∨ s.isr.phase = .t1w → s.drv.txCursor = s.drv.txPending.len
  filling : txFilling s.tx.phase = true → s.tx.i.toNat < (payloadLen s (latchedForm s)).toNat
  staged : txStaged s.tx.phase = true →
    s.tx.i.toNat + s.drv.txPending.len.toNat = (payloadLen s (latchedForm s)).toNat
  done : s.tx.phase = .w7 ∨ s.tx.phase = .w7l → s.drv.txDone = true → s.drv.txCursor = s.drv.txPending.len
  abandoned : s.tx.phase = .w8 → s.tx.waitOk = false
  woken : s.tx.phase = .w9 ∨ s.tx.phase = .w10 → s.tx.waitOk = true → s.drv.txCursor = s.drv.txPending.len
  described : txStaged s.tx.phase = true → s.drv.txPending = stagedDesc s (latchedForm s)
  kept : txStaged s.tx.phase = true → latchedForm s = .immediate → s.drv.txByte = s.tx.imm.extractLsb' 0 8

/-- A good state: every run from `State.reset` stays in these, whatever the schedule. -/
structure State.Good (s : State) : Prop where
  cfgOk : s.cfg.ok = true
  peripheral : PeripheralGood s
  memory : MemoryGood s
  ports : PortsGood s
  ring : RingGood s
  reading : ReadGood s
  wake : WakeGood s
  engine : EngineGood s
  transmit : TransmitGood s

/-! ### The opcode table's rows -/

/-- The mask column of R102 and R111. -/
def rowMask : Instr → Word
  | .configure _ => 0xFFE0FFFF#32
  | .writeByte _ => 0xFF00FFFF#32
  | .priStore _ => 0xFFFFFF00#32
  | .priSetIe _ => 0xFFFFFFF8#32
  | .priSetRxTrig _ => 0xFFFFFF00#32
  | .priSetTxTrig _ => 0xFFFFFF00#32
  | .priSetBaudDiv _ => 0xF0000000#32
  | .priCfgWordFormat _ => 0xFFFFFFE0#32
  | .setReadTimeout | .setWriteTimeout | .status | .len | .enableRx | .disableRx | .read | .readByte | .enableTx
  | .disableTx | .write | .writeString | .flush | .serviceInterrupt | .priLoad | .priStatus | .priIntSource => 0xFFFFFFFF#32

/-- The match column of R102 and R111. -/
def rowMatch : Instr → Word
  | .configure _ => 0x00000001#32
  | .setReadTimeout => 0x00000002#32
  | .setWriteTimeout => 0x00000003#32
  | .status => 0x00000004#32
  | .len => 0x00000005#32
  | .enableRx => 0x00000010#32
  | .disableRx => 0x00000011#32
  | .read => 0x00000012#32
  | .readByte => 0x00000013#32
  | .enableTx => 0x00000020#32
  | .disableTx => 0x00000021#32
  | .write => 0x00000022#32
  | .writeString => 0x00000023#32
  | .writeByte _ => 0x00000024#32
  | .flush => 0x00000025#32
  | .serviceInterrupt => 0x00000030#32
  | .priLoad => 0x00000000#32
  | .priStore _ => 0x10000000#32
  | .priStatus => 0x20000000#32
  | .priSetIe _ => 0x30000000#32
  | .priIntSource => 0x40000000#32
  | .priSetRxTrig _ => 0x50000000#32
  | .priSetTxTrig _ => 0x60000000#32
  | .priSetBaudDiv _ => 0x70000000#32
  | .priCfgWordFormat _ => 0x80000000#32

/-- Do two instructions stand in one row of the table? No two rows have one match value. -/
def sameRow (i j : Instr) : Bool := decide (rowMatch i = rowMatch j)

/-! ### Whole commands -/

/-- `k` steps of one instruction, with no other agent's step in between. -/
def execTimes (i : Instr) : Nat → State → Result
  | 0, s => .next s
  | k + 1, s =>
    match exec i s with
    | .next t => execTimes i k t
    | .fault r => .fault r
    | .refused r => .refused r

/-- `k` steps of the machine. -/
def stepTimes : Nat → State → Result
  | 0, s => .next s
  | k + 1, s =>
    match step s with
    | .next t => stepTimes k t
    | .fault r => .fault r
    | .refused r => .refused r

/-- Byte `k` of the whole payload of a write command in flight, in either form (R144). -/
def payloadAt (s : State) : PayloadForm → Nat → Byte
  | .memory, k => memRead s (s.tx.a0 + BitVec.ofNat 32 k)
  | .immediate, _ => s.tx.imm.extractLsb' 0 8

/-- How many payload bytes the write command in flight has handed to the transmit FIFO: the fast path's, and the engine's
once the remainder is staged (R221). -/
def pushed (s : State) : Nat := s.tx.i.toNat + (if txStaged s.tx.phase then s.drv.txCursor.toNat else 0)

/-- Everything but host memory and what the host last read. -/
def State.forgetMem (s : State) : State := (s.setHostMem []).setEnv { s.env with hostData := 0#32 }

/-- The payload of a `WRITE` of `len` bytes at `a`, in order (R71, R74). -/
def payloadList (s : State) (a : Word) (len : Nat) : List Byte :=
  (List.range len).map fun k => memRead s (a + BitVec.ofNat 32 k)

end Sys2Proof.Machine
end

