-- ==== Sys2Proof/Certificates/Slice0/Obligations.lean ====
section
/-!
DEFINITION. The statements for the provers. Each docstring says which rules of spec/ it formalises. A conclusion
`exec i s = .next { s with ... }` gives the whole frame: every field, every register and every byte of both memories that is not
written in it is unchanged.
-/

section

open Sys2Proof Sys2Proof.Machine

/-! ### Encoding -/

/-- Format H and format P carry every operand bit: decoding an encoded instruction gives it back, at its own port, and an
accepted word is the encoding of what it is read as (R100, R102, R111). -/
def Obligations.DecodeEncodeAgree : Prop :=
  (∀ i : Instr, decodeWord (encode i) = some i) ∧
  (∀ (i : Instr) (p : Port), i.port = some p → decodeCmd p (encode i) = some i) ∧
  (∀ i : Instr, i.port = none → decodePri (encode i) = some i) ∧
  (∀ (w : Word) (i : Instr), decodeWord w = some i → encode i = w)

/-- The decoder selects a row exactly when `w & mask == match`, a host command on its own port only (R102, R111, R113). -/
def Obligations.DecodeFollowsRows : Prop :=
  (∀ (i : Instr) (p : Port) (w : Word), i.port = some p →
    ((∃ j, decodeCmd p w = some j ∧ sameRow i j = true) ↔ w &&& rowMask i = rowMatch i)) ∧
  (∀ (i : Instr) (w : Word), i.port = none →
    ((∃ j, decodePri w = some j ∧ sameRow i j = true) ↔ w &&& rowMask i = rowMatch i)) ∧
  (∀ (p : Port) (w : Word), decodeCmd p w = none ↔ ∀ i : Instr, i.port = some p → w &&& rowMask i ≠ rowMatch i)

/-- A few words written out from R100, R102 and R111, and words that R113 calls illegal. -/
def Obligations.DecodeSanityWords : Prop :=
  decodeCmd .cfg 0x00130001#32 = some (.configure 0x13#5) ∧ decodeCmd .rx 0x00000012#32 = some .read ∧
  decodeCmd .tx 0x00410024#32 = some (.writeByte 0x41#8) ∧ decodeCmd .isr 0x00000030#32 = some .serviceInterrupt ∧
  decodePri 0x30000005#32 = some (.priSetIe 5#3) ∧ decodePri 0x70000364#32 = some (.priSetBaudDiv 0x364#28) ∧
  decodeCmd .cfg 0x00200001#32 = none ∧ decodeCmd .tx 0x00000012#32 = none ∧ decodeCmd .rx 0x00000112#32 = none ∧
  decodeCmd .tx 0x01410024#32 = none

/-! ### A step runs the decoded instruction -/

/-- The three places an instruction is fetched from: a `CMD` write (R114), a sequencer's latch (R37, R101), the PRI. The
model's own are: that `exec` of a host command is its next atomic step (log 8), and that a request word standing in `pri.pending`
is fetched by the next step (log 10, log 21). A CFG command is issued only while no interrupt service holds CFGSEQ (log 7). -/
def Obligations.StepRunsTheDecodedInstruction : Prop :=
  (∀ (s : State) (p : Port) (w : Word) (i : Instr) (rest : List Event), s.pri.pending = none →
    s.env.inputs = .hostWrite (cmdOffset p) 4 w :: rest → s.drv.fatal = false → (p = .cfg → isrHolds s = false) →
    portBusy s p = false → decodeCmd p w = some i →
    step s = exec i { s with env := { s.env with inputs := rest } }) ∧
  (∀ (s : State) (i : Instr), s.pri.pending = none → nextEvent s = .rxSeq → s.rx.phase ≠ .idle → latchedRx s = some i →
    step s = exec i (takeEvent s)) ∧
  (∀ (s : State) (i : Instr), s.pri.pending = none → nextEvent s = .txSeq → s.tx.phase ≠ .idle → latchedTx s = some i →
    step s = exec i (takeEvent s)) ∧
  (∀ s : State, s.pri.pending = none → nextEvent s = .isrSeq → s.isr.phase ≠ .idle →
    step s = exec .serviceInterrupt (takeEvent s)) ∧
  (∀ (s : State) (w : Word) (i : Instr), s.pri.pending = some w → decodePri w = some i →
    step s = exec i { s with pri := { s.pri with pending := none } })

/-- An instruction placed where the next step fetches is the one the next step runs, on the machine as it was. Where that is,
`withFetchWord` and `placeWord`, and that a request word can be placed on the PRI from outside the block, is the model's choice
(log 10). -/
def Obligations.PlacedWordRuns : Prop :=
  (∀ (s : State) (i : Instr) (p : Port), i.port = some p → s.drv.fatal = false → (p = .cfg → isrHolds s = false) →
    portBusy s p = false →
    step (s.withFetchWord 32 (encode i).toNat) = exec i { s with pri := { s.pri with pending := none } }) ∧
  (∀ (s : State) (i : Instr), i.port = none →
    step (s.withFetchWord 32 (encode i).toNat) = exec i { s with pri := { s.pri with pending := none } })

/-! ### The host interface -/

/-- What a `CMD` write does where it issues nothing: ignored in the fatal state and on the busy ISR port, no meaning on a
busy RX or TX port, `ILLEGAL_COMMAND` for an illegal word on any idle port (R113, R114). That `SVRSP` shows the illegal word is the
model's reading (log 6), and that a held CFG command waits, while every event but the host's own accesses goes on, is too
(log 7); a reset is among those events (log 27). -/
def Obligations.CommandWritesThatIssueNothing : Prop :=
  (∀ (p : Port) (w : Word) (s : State), s.drv.fatal = true → hostWrite (cmdOffset p) 4 w s = .next s) ∧
  (∀ (w : Word) (s : State), s.isr.phase ≠ .idle → hostWrite (cmdOffset .isr) 4 w s = .next s) ∧
  (∀ (w : Word) (s : State), s.drv.fatal = false → s.rx.phase ≠ .idle →
    hostWrite (cmdOffset .rx) 4 w s = .refused .portBusy) ∧
  (∀ (w : Word) (s : State), s.drv.fatal = false → s.tx.phase ≠ .idle →
    hostWrite (cmdOffset .tx) 4 w s = .refused .portBusy) ∧
  (∀ (w : Word) (s : State), s.drv.fatal = false → decodeCmd .cfg w = none →
    hostWrite (cmdOffset .cfg) 4 w s = .next { s with regs := { s.regs with cfRsp := 0x0000000F#32, cfN := 0#32 } }) ∧
  (∀ (w : Word) (s : State), s.drv.fatal = false → s.rx.phase = .idle → decodeCmd .rx w = none →
    hostWrite (cmdOffset .rx) 4 w s = .next { s with regs := { s.regs with rxRsp := 0x0000000F#32, rxN := 0#32 } }) ∧
  (∀ (w : Word) (s : State), s.drv.fatal = false → s.tx.phase = .idle → decodeCmd .tx w = none →
    hostWrite (cmdOffset .tx) 4 w s = .next { s with regs := { s.regs with txRsp := 0x0000000F#32, txN := 0#32 } }) ∧
  (∀ (w : Word) (s : State), s.drv.fatal = false → s.isr.phase = .idle → decodeCmd .isr w = none →
    hostWrite (cmdOffset .isr) 4 w s = .next { s with regs := { s.regs with svRsp := 0x0000000F#32 } }) ∧
  (∀ (w : Word) (i : Instr) (s : State), s.drv.fatal = false → isrHolds s = true → decodeCmd .cfg w = some i →
    hostWrite (cmdOffset .cfg) 4 w s = .next
      { s with env := { s.env with inputs := s.env.inputs ++ [.hostWrite (cmdOffset .cfg) 4 w] } }) ∧
  (∀ (w : Word) (i : Instr) (s : State) (e : Event) (accesses rest : List Event), s.drv.fatal = false → isrHolds s = true →
    decodeCmd .cfg w = some i → accesses.all hostAccess = true → hostAccess e = false →
    s.env.inputs = .hostWrite (cmdOffset .cfg) 4 w :: accesses ++ e :: rest →
    nextEvent s = e ∧
      takeEvent s = { s with env := { s.env with inputs := .hostWrite (cmdOffset .cfg) 4 w :: accesses ++ rest } })

/-- The host register file: the six operand registers hold what the host writes and no write touches another register;
every register but those and the four `CMD` registers ignores a write; `CMD` and reserved registers read 0; a read changes
nothing but what the host then holds; an access that is not one whole register has no meaning (R35, R75, R77). Beside it, host
memory: a byte the host stores is the byte it loads back, at that address and no other (R71); that the host's last read stands in
`env.hostData` is the model's own (log 21), and a canonical host memory the model's form (log 4). -/
def Obligations.HostRegisterFileAndMemory : Prop :=
  (∀ (s : State) (k j : Nat) (v : Word), k ∈ [1, 2, 9, 10, 17, 18] →
    readReg (writeOperand s k v) j = if j = k then v else readReg s j) ∧
  (∀ (s : State) (k : Nat) (v : Word), k ∉ [1, 2, 9, 10, 17, 18] → writeOperand s k v = s) ∧
  (∀ (s : State) (k : Nat), k ∈ [0, 5, 6, 7, 8, 13, 14, 15, 16, 21, 22, 23, 24, 25, 26, 28, 29, 30, 31] ∨ 40 ≤ k →
    readReg s k = 0#32) ∧
  (∀ (s : State) (k : Nat) (v : Word), k < 64 → k ∉ [0, 8, 16, 24] →
    hostWrite (BitVec.ofNat 8 (4 * k)) 4 v s = .next (writeOperand s k v)) ∧
  (∀ (s : State) (k : Nat), k < 64 →
    hostRead (BitVec.ofNat 8 (4 * k)) 4 s = .next { s with env := { s.env with hostData := readReg s k } }) ∧
  (∀ (s : State) (off : BitVec 8) (bytes : Nat) (v : Word), bytes ≠ 4 ∨ off.toNat % 4 ≠ 0 →
    hostWrite off bytes v s = .refused .hrfAccess ∧ hostRead off bytes s = .refused .hrfAccess) ∧
  (∀ (s : State) (a : Word) (b : Byte), Memory.wf s.hostMem = true →
    ∃ t, runEvent (.memWrite a b) s = .next t ∧ t = { s with hostMem := t.hostMem } ∧ Memory.wf t.hostMem = true ∧
      (∀ x : Word, memRead t x = if x = a then b else memRead s x) ∧
      (∀ x : Word, runEvent (.memRead x) t = .next
        { t with env := { t.env with hostData := 0#24 ++ (if x = a then b else memRead s x) } }))

/-- The fields of the readback register `STATE` (R42), and of the word `Respond` writes on each port (R36, R146). -/
def Obligations.ReadbackAndResponseFields : Prop :=
  (∀ d : Driver,
    (stateWord d).extractLsb' 0 2 = isrCode d.isrState ∧ (stateWord d).getLsbD 2 = d.overflow ∧
    (stateWord d).getLsbD 3 = d.rxWakeRequested ∧ (stateWord d).getLsbD 4 = d.rxWake ∧
    (stateWord d).getLsbD 5 = d.txDone ∧ (stateWord d).getLsbD 6 = d.rxEnabled ∧ (stateWord d).getLsbD 7 = d.txEnabled ∧
    (stateWord d).extractLsb' 8 3 = d.ie ∧ (stateWord d).getLsbD 11 = false ∧
    (stateWord d).extractLsb' 12 4 = d.errMask ∧ (stateWord d).getLsbD 16 = d.fatal ∧
    (stateWord d).extractLsb' 17 3 = 0#3 ∧ (stateWord d).extractLsb' 20 4 = d.fatalCause ∧
    (stateWord d).extractLsb' 24 8 = 0#8) ∧
  (∀ s : State, hostRead 0x80#8 4 s = .next { s with env := { s.env with hostData := stateWord s.drv } }) ∧
  (∀ (s : State) (v : Word), hostWrite 0x80#8 4 v s = .next s) ∧ readReg State.reset 32 = 0#32 ∧
  (∀ s : State, readReg s 33 = s.drv.nextRead ∧ readReg s 34 = s.drv.nextWrite ∧ readReg s 35 = s.drv.cap ∧
    readReg s 36 = s.drv.txCursor ∧ readReg s 37 = s.drv.txPending.len ∧ readReg s 38 = s.drv.readTimeout ∧
    readReg s 39 = s.drv.writeTimeout) ∧
  (∀ (s : State) (err : ErrName) (hw : BitVec 4) (b : Byte) (n : Word),
    (rspWord (errCode err) hw b).extractLsb' 0 4 = errCode err ∧ (rspWord (errCode err) hw b).extractLsb' 4 4 = hw ∧
    (rspWord (errCode err) hw b).extractLsb' 8 8 = b ∧ (rspWord (errCode err) hw b).extractLsb' 16 16 = 0#16 ∧
    respondCfg s err hw b n = { s with regs := { s.regs with cfRsp := rspWord (errCode err) hw b, cfN := n } } ∧
    respondRx s err hw b n =
      { s with regs := { s.regs with rxRsp := rspWord (errCode err) hw b, rxN := n }, rx := { s.rx with phase := .idle } } ∧
    respondTx s err hw b n =
      { s with regs := { s.regs with txRsp := rspWord (errCode err) hw b, txN := n }, tx := { s.tx with phase := .idle } } ∧
    respondIsr s =
      { s with regs := { s.regs with svRsp := s.regs.svRsp &&& 0xFFFEFFFF#32 }, isr := { s.isr with phase := .idle } })

/-! ### Primitives -/

/-- R130. -/
def Obligations.IdxNextIsSuccessor : Prop :=
  ∀ cap i : Word, 2 ≤ cap.toNat → i.toNat < cap.toNat →
    idxNext cap i = (if i.toNat + 1 = cap.toNat then 0#32 else i + 1#32) ∧
    (idxNext cap i).toNat = (i.toNat + 1) % cap.toNat ∧ (idxNext cap i).toNat < cap.toNat

/-- R131, with its four examples. -/
def Obligations.RingLenCountsUnread : Prop :=
  (∀ cap nr nw : Word, 2 ≤ cap.toNat → nr.toNat < cap.toNat → nw.toNat < cap.toNat →
    (nr.toNat ≤ nw.toNat → ringLen cap nr nw = nw.toNat - nr.toNat) ∧
    (nw.toNat < nr.toNat → ringLen cap nr nw = cap.toNat - nr.toNat + nw.toNat) ∧
    ringLen cap nr nw = (nw.toNat + cap.toNat - nr.toNat) % cap.toNat ∧ ringLen cap nr nw ≤ cap.toNat - 1 ∧
    (ringLen cap nr nw = 0 ↔ nw = nr) ∧ (ringLen cap nr nw = cap.toNat - 1 ↔ idxNext cap nw = nr)) ∧
  (∀ nr nw : Word, ringLen 0#32 nr nw = 0) ∧
  ringLen 8#32 0#32 0#32 = 0 ∧ ringLen 8#32 0#32 3#32 = 3 ∧ ringLen 8#32 6#32 2#32 = 4 ∧ ringLen 8#32 1#32 0#32 = 7

/-- R141, with its five examples; the level the requests carry is always legal (R306). -/
def Obligations.TxSelPicksLegalLevel : Prop :=
  (∀ top rem : Nat, 1 ≤ top →
    (top ≤ rem → txSel top rem = top) ∧ (1 ≤ rem → rem < top → txSel top rem = rem) ∧ (rem = 0 → txSel top rem = 1) ∧
    1 ≤ txSel top rem ∧ txSel top rem ≤ top) ∧
  (∀ (s : State) (rem : Nat), s.cfg.ok = true →
    (txLevel s rem).toNat = txSel s.cfg.txTrigMax rem ∧ txLevelOk s.cfg (txLevel s rem) = true) ∧
  txSel 4 0 = 1 ∧ txSel 4 1 = 1 ∧ txSel 4 3 = 3 ∧ txSel 4 4 = 4 ∧ txSel 4 1000 = 4

/-- R137: a wait with timeout `T` times out after `T` ticks and not before; with `INF` never; a tick changes nothing but the
two counts. -/
def Obligations.TimersCountTicks : Prop :=
  (∀ (t : Timer) (limit : Word), limit ≠ infTimeout → t.arm limit = { armed := true, count := limit }) ∧
  (∀ t : Timer, t.arm infTimeout = { t with armed := false } ∧ t.disarm = { t with armed := false } ∧
    (t.expired = true ↔ t.armed = true ∧ t.count = 0#32)) ∧
  (∀ t : Timer, (t.armed = true → t.count ≠ 0#32 → t.tick = { t with count := t.count - 1#32 }) ∧
    (t.armed = false ∨ t.count = 0#32 → t.tick = t)) ∧
  (∀ (t : Timer) (limit : Word) (n : Nat), limit ≠ infTimeout →
    ((Timer.tick^[n] (t.arm limit)).expired = true ↔ limit.toNat ≤ n)) ∧
  (∀ (t : Timer) (n : Nat), (Timer.tick^[n] (t.arm infTimeout)).expired = false) ∧
  (∀ (t : Timer) (n : Nat), (Timer.tick^[n] t.disarm).expired = false ∧ (Timer.tick^[n] t.disarm) = t.disarm) ∧
  (∀ s : State, runEvent .tick s =
    .next { s with rx := { s.rx with timer := s.rx.timer.tick }, tx := { s.tx with timer := s.tx.timer.tick } })

/-- R140 and R311: the gated cause is `raw & ie`, `irq` says whether it is not zero, whatever `fatal` is; a disabled source
is not in the cause, and its dispatch step (S0, S1, S2) skips its section. -/
def Obligations.GatingMasksSources : Prop :=
  (∀ s : State,
    (irq s = true ↔ gatedCause s ≠ 0#3) ∧
    gatedCause s = rawCond s.cfg s.per &&& s.drv.ie ∧
    (hasRx (rawCond s.cfg s.per) = true ↔
      s.per.rxTrig.toNat ≤ s.per.rxFifo.length ∨ (1 ≤ s.per.rxFifo.length ∧ s.per.rxStale = true)) ∧
    (hasTx (rawCond s.cfg s.per) = true ↔ s.per.txTrig.toNat ≤ s.cfg.txDepth - s.per.txFifo.length) ∧
    (hasSt (rawCond s.cfg s.per) = true ↔ s.cfg.hasLineStatus = true ∧ s.per.hwerr ≠ 0#4)) ∧
  (∀ (s : State) (f : Bool), irq { s with drv := { s.drv with fatal := f } } = irq s) ∧
  (∀ s : State, s.per.pmask = s.drv.ie → (priIntSource s).2 = gatedCause s) ∧
  (∀ s : State, s.drv.ie = 0#3 → irq s = false) ∧
  (∀ s : State, s.per.pmask = s.drv.ie → s.drv.fatal = false → s.isr.phase = .s0 → hasRx s.drv.ie = false →
    ∃ t, exec .serviceInterrupt s = .next t ∧ t.isr.phase = .s1 ∧ t.drv = s.drv) ∧
  (∀ s : State, s.per.pmask = s.drv.ie → s.drv.fatal = false → s.isr.phase = .s1 → hasTx s.drv.ie = false →
    ∃ t, exec .serviceInterrupt s = .next t ∧ t.isr.phase = .s2 ∧ t.drv = s.drv) ∧
  (∀ s : State, s.per.pmask = s.drv.ie → s.drv.fatal = false → s.isr.phase = .s2 → hasSt s.drv.ie = false →
    ∃ t, exec .serviceInterrupt s = .next t ∧ t.isr.phase = .idle ∧ t.drv = s.drv)

/-- R139, R138, R142 and R143: the shared read-modify-writes, each with its whole effect. -/
def Obligations.AtomicUpdates : Prop :=
  (∀ (s : State) (m : BitVec 3), ieSet s m =
    { s with
      drv := { s.drv with ie := s.drv.ie ||| m }, per := { s.per with pmask := s.drv.ie ||| m }
      pri := { s.pri with req := encode (.priSetIe (s.drv.ie ||| m)), rsp := 0#32 } }) ∧
  (∀ (s : State) (m : BitVec 3), ieClr s m =
    { s with
      drv := { s.drv with ie := s.drv.ie &&& ~~~m }, per := { s.per with pmask := s.drv.ie &&& ~~~m }
      pri := { s.pri with req := encode (.priSetIe (s.drv.ie &&& ~~~m)), rsp := 0#32 } }) ∧
  (∀ s : State, s.drv.rxWakeRequested = true →
    casWakeRequest s = ({ s with drv := { s.drv with rxWakeRequested := false } }, true)) ∧
  (∀ s : State, s.drv.rxWakeRequested = false → casWakeRequest s = (s, false)) ∧
  (∀ s : State, ∃ t, pStatus s =
    ({ s with
        per := { s.per with hwerr := 0#4 }
        drv := { s.drv with errMask := s.drv.errMask ||| (if s.cfg.hasLineStatus then s.per.hwerr else 0#4) }
        pri := { s.pri with req := 0x20000000#32, rsp := statusRsp t } }, t) ∧
    t = { receiveNotEmpty := decide (1 ≤ s.per.rxFifo.length), transmitFull := decide (s.per.txFifo.length = s.cfg.txDepth)
          transmitDone := decide (s.per.txFifo = []), flags := if s.cfg.hasLineStatus then s.per.hwerr else 0#4 }) ∧
  (∀ s : State, statusTake s = ({ s with drv := { s.drv with errMask := 0#4 } }, s.drv.errMask))

/-! ### The CFG port -/

/-- R280, in the reference peripheral. That the receive FIFO and the wire stand also while bytes move is the model's choice
(log 13, U5); that the last of the two requests stands in `pri.req` is its record (log 21), so their order shows only there. -/
def Obligations.ConfigureResult : Prop :=
  ∀ (lcrf : BitVec 5) (s : State), s.appReady = true →
    exec (.configure lcrf) s = .next
      { s with
        regs := { s.regs with cfRsp := 0#32, cfN := 0#32 }
        per := { s.per with lcr := lcrf, div := Config.baudDiv s.regs.cfA0 }
        pri := { s.pri with req := 0x7#4 ++ Config.baudDiv s.regs.cfA0, rsp := 0#32 } }

/-- R281, R282, R283. -/
def Obligations.TimeoutsAndStatusResult : Prop :=
  (∀ s : State, s.appReady = true →
    exec .setReadTimeout s = .next
      { s with regs := { s.regs with cfRsp := 0#32, cfN := 0#32 }, drv := { s.drv with readTimeout := s.regs.cfA0 } }) ∧
  (∀ s : State, s.appReady = true →
    exec .setWriteTimeout s = .next
      { s with regs := { s.regs with cfRsp := 0#32, cfN := 0#32 }, drv := { s.drv with writeTimeout := s.regs.cfA0 } }) ∧
  (∀ s : State, s.appReady = true →
    exec .status s = .next
      { s with
        regs := { s.regs with cfRsp := 0#24 ++ s.drv.errMask ++ 0#4, cfN := s.drv.errMask.setWidth 32 }
        drv := { s.drv with errMask := 0#4 } }) ∧
  (∀ s : State, readReg s 38 = s.drv.readTimeout ∧ readReg s 39 = s.drv.writeTimeout)

/-- R172: the unread bytes, never above `cap - 1`; 0 with receive disabled. -/
def Obligations.LenResult : Prop :=
  (∀ s : State, s.appReady = true → s.drv.rxEnabled = false →
    exec .len s = .next { s with regs := { s.regs with cfRsp := 0#32, cfN := 0#32 } }) ∧
  (∀ s : State, s.appReady = true → s.drv.rxEnabled = true → 2 ≤ s.drv.cap.toNat →
    s.drv.nextRead.toNat < s.drv.cap.toNat → s.drv.nextWrite.toNat < s.drv.cap.toNat →
    ∃ n : Word, exec .len s = .next { s with regs := { s.regs with cfRsp := 0#32, cfN := n } } ∧
      n.toNat = (s.drv.nextWrite.toNat + s.drv.cap.toNat - s.drv.nextRead.toNat) % s.drv.cap.toNat ∧
      n.toNat ≤ s.drv.cap.toNat - 1)

/-! ### The RX port -/

/-- R170: issue, the three fatal checks in their order, EN1, EN2. -/
def Obligations.EnableRxSteps : Prop :=
  (∀ s : State, s.drv.fatal = false → s.rx.phase = .idle →
    exec .enableRx s = .next
      { s with
        regs := { s.regs with rxRsp := 0x00010000#32, rxN := 0#32 }
        rx := { s.rx with op := 0x10#8, a0 := s.regs.rxA0, a1 := s.regs.rxA1, phase := .en1 } }) ∧
  (∀ s : State, s.appReady = true → s.rx.phase = .en1 → s.drv.rxEnabled = true →
    exec .enableRx s = .next { s with drv := { s.drv with fatal := true, fatalCause := 1#4 } }) ∧
  (∀ s : State, s.appReady = true → s.rx.phase = .en1 → s.drv.rxEnabled = false → s.rx.a0.toNat < 2 →
    exec .enableRx s = .next { s with drv := { s.drv with fatal := true, fatalCause := 2#4 } }) ∧
  (∀ s : State, s.appReady = true → s.rx.phase = .en1 → s.drv.rxEnabled = false → 2 ≤ s.rx.a0.toNat →
    s.cfg.capMax < s.rx.a0.toNat →
    exec .enableRx s = .next { s with drv := { s.drv with fatal := true, fatalCause := 4#4 } }) ∧
  (∀ s : State, s.appReady = true → s.rx.phase = .en1 → s.cfg.ok = true → s.drv.rxEnabled = false → 2 ≤ s.rx.a0.toNat →
    s.rx.a0.toNat ≤ s.cfg.capMax →
    exec .enableRx s = .next
      { s with
        drv :=
          { s.drv with
            cap := s.rx.a0, nextRead := 0#32, nextWrite := 0#32, overflow := false, rxWakeRequested := false
            rxWake := false, rxEnabled := true }
        per := { s.per with rxTrig := BitVec.ofNat 8 s.cfg.rxTrig }
        pri := { s.pri with req := 0x50000000#32 ||| BitVec.ofNat 32 s.cfg.rxTrig, rsp := 0#32 }
        rx := { s.rx with phase := .en2 } }) ∧
  (∀ (s : State) (m : BitVec 3), s.appReady = true → s.rx.phase = .en2 →
    m = s.drv.ie ||| (if s.cfg.hasLineStatus then 5#3 else 1#3) →
    exec .enableRx s = .next
      { s with
        regs := { s.regs with rxRsp := 0#32, rxN := s.rx.a0 }
        drv := { s.drv with ie := m }, per := { s.per with pmask := m }
        pri := { s.pri with req := 0x3#4 ++ m.setWidth 28, rsp := 0#32 }
        rx := { s.rx with phase := .idle } })

/-- R171: issue, DR1, DR2, DR3. That an offer of DR2 while it holds leaves the state as it is, is the model's reading
(log 3). -/
def Obligations.DisableRxSteps : Prop :=
  (∀ s : State, s.drv.fatal = false → s.rx.phase = .idle →
    exec .disableRx s = .next
      { s with
        regs := { s.regs with rxRsp := 0x00010000#32, rxN := 0#32 }
        rx := { s.rx with op := 0x11#8, a0 := s.regs.rxA0, a1 := s.regs.rxA1, phase := .dr1 } }) ∧
  (∀ s : State, s.appReady = true → s.rx.phase = .dr1 → s.drv.rxEnabled = false →
    exec .disableRx s = .next
      { s with regs := { s.regs with rxRsp := 0#32, rxN := 0#32 }, rx := { s.rx with phase := .idle } }) ∧
  (∀ (s : State) (m : BitVec 3), s.appReady = true → s.rx.phase = .dr1 → s.drv.rxEnabled = true →
    m = s.drv.ie &&& 2#3 →
    exec .disableRx s = .next
      { s with
        drv := { s.drv with ie := m }, per := { s.per with pmask := m }
        pri := { s.pri with req := 0x3#4 ++ m.setWidth 28, rsp := 0#32 }, rx := { s.rx with phase := .dr2 } }) ∧
  (∀ s : State, s.appReady = true → s.rx.phase = .dr2 → s.drv.isrState = .inRx → exec .disableRx s = .next s) ∧
  (∀ s : State, s.appReady = true → s.rx.phase = .dr2 → s.drv.isrState ≠ .inRx →
    exec .disableRx s = .next { s with rx := { s.rx with phase := .dr3 } }) ∧
  (∀ s : State, s.appReady = true → s.rx.phase = .dr3 →
    exec .disableRx s = .next
      { s with
        drv :=
          { s.drv with
            rxEnabled := false, cap := 0#32, nextRead := 0#32, nextWrite := 0#32, overflow := false
            rxWakeRequested := false }
        regs := { s.regs with rxRsp := 0#32, rxN := s.drv.cap }, rx := { s.rx with phase := .idle } })

/-- RD0 of R180 and RB0 of R181: the issue of the two reads; with receive disabled they have no meaning (U3). -/
def Obligations.ReadIssue : Prop :=
  (∀ s : State, s.drv.fatal = false → s.rx.phase = .idle → s.drv.rxEnabled = true → s.regs.rxA1 ≠ 0#32 →
    exec .read s = .next
      { s with
        regs := { s.regs with rxRsp := 0x00010000#32, rxN := 0#32 }
        rx := { s.rx with op := 0x12#8, a0 := s.regs.rxA0, a1 := s.regs.rxA1, phase := .p1 } }) ∧
  (∀ s : State, s.drv.fatal = false → s.rx.phase = .idle → s.drv.rxEnabled = true → s.regs.rxA1 = 0#32 →
    exec .read s = .next
      { s with
        regs := { s.regs with rxRsp := 0#32, rxN := 0#32 }
        rx := { s.rx with op := 0x12#8, a0 := s.regs.rxA0, a1 := s.regs.rxA1, phase := .idle } }) ∧
  (∀ s : State, s.drv.fatal = false → s.rx.phase = .idle → s.drv.rxEnabled = true →
    exec .readByte s = .next
      { s with
        regs := { s.regs with rxRsp := 0x00010000#32, rxN := 0#32 }
        rx := { s.rx with op := 0x13#8, a0 := s.regs.rxA0, a1 := s.regs.rxA1, phase := .p1 } }) ∧
  (∀ (i : Instr) (s : State), i = .read ∨ i = .readByte → s.drv.fatal = false → s.rx.phase = .idle →
    s.drv.rxEnabled = false → exec i s = .refused .rxDisabled)

/-- R174, R175, R176, R177: the steps P1, P2A, P2B, P3, P3C of both reads. -/
def Obligations.WaitProtocolBeforeTheSleep : Prop :=
  ∀ (i : Instr) (s : State), i = .read ∨ i = .readByte → s.appReady = true →
    (s.rx.phase = .p1 → s.drv.nextWrite ≠ s.drv.nextRead →
      exec i s = .next { s with rx := { s.rx with nwSnap := s.drv.nextWrite, phase := .copy } }) ∧
    (s.rx.phase = .p1 → s.drv.nextWrite = s.drv.nextRead → exec i s = .next { s with rx := { s.rx with phase := .p2a } }) ∧
    (s.rx.phase = .p2a →
      exec i s = .next { s with drv := { s.drv with rxWake := false }, rx := { s.rx with phase := .p2b } }) ∧
    (s.rx.phase = .p2b →
      exec i s = .next { s with drv := { s.drv with rxWakeRequested := true }, rx := { s.rx with phase := .p3 } }) ∧
    (s.rx.phase = .p3 → s.drv.nextWrite ≠ s.drv.nextRead →
      exec i s = .next { s with rx := { s.rx with nwSnap := s.drv.nextWrite, phase := .p3c } }) ∧
    (s.rx.phase = .p3 → s.drv.nextWrite = s.drv.nextRead → exec i s = .next { s with rx := { s.rx with phase := .p4 } }) ∧
    (s.rx.phase = .p3c →
      exec i s = .next { s with drv := { s.drv with rxWakeRequested := false }, rx := { s.rx with phase := .copy } })

/-- R178, R179, R183: the sleep, its two ends, the unconditional second sleep, the verdict of P6. That an offer of P4L or P5L
while it holds leaves the state as it is, is the model's reading (log 3), and the fatal verdict as a next state is log 9. -/
def Obligations.WaitProtocolFromTheSleep : Prop :=
  ∀ (i : Instr) (s : State), i = .read ∨ i = .readByte → s.appReady = true →
    (s.rx.phase = .p4 → s.drv.readTimeout ≠ 0xFFFFFFFF#32 →
      exec i s = .next { s with rx := { s.rx with timer := { armed := true, count := s.drv.readTimeout }, phase := .p4l } }) ∧
    (s.rx.phase = .p4 → s.drv.readTimeout = 0xFFFFFFFF#32 →
      exec i s = .next { s with rx := { s.rx with timer := { s.rx.timer with armed := false }, phase := .p4l } }) ∧
    (s.rx.phase = .p4l → s.drv.rxWake = true →
      exec i s = .next
        { s with rx := { s.rx with waitOk := true, timer := { s.rx.timer with armed := false }, phase := .p6 } }) ∧
    (s.rx.phase = .p4l → s.drv.rxWake = false → s.rx.timer.armed = true → s.rx.timer.count = 0#32 →
      exec i s = .next
        { s with rx := { s.rx with waitOk := false, timer := { s.rx.timer with armed := false }, phase := .p5 } }) ∧
    (s.rx.phase = .p4l → s.drv.rxWake = false → s.rx.timer.armed = false ∨ s.rx.timer.count ≠ 0#32 →
      exec i s = .next s) ∧
    (s.rx.phase = .p5 → s.drv.rxWakeRequested = true →
      exec i s = .next
        { s with
          drv := { s.drv with rxWakeRequested := false }
          regs := { s.regs with rxRsp := 0x00000001#32, rxN := 0#32 }, rx := { s.rx with phase := .idle } }) ∧
    (s.rx.phase = .p5 → s.drv.rxWakeRequested = false → exec i s = .next { s with rx := { s.rx with phase := .p5s } }) ∧
    (s.rx.phase = .p5s →
      exec i s = .next { s with rx := { s.rx with timer := { s.rx.timer with armed := false }, phase := .p5l } }) ∧
    (s.rx.phase = .p5l → s.drv.rxWake = true → exec i s = .next { s with rx := { s.rx with phase := .p6 } }) ∧
    (s.rx.phase = .p5l → s.drv.rxWake = false → exec i s = .next s) ∧
    (s.rx.phase = .p6 → s.drv.nextWrite = s.drv.nextRead →
      exec i s = .next { s with drv := { s.drv with fatal := true, fatalCause := 3#4 } }) ∧
    (s.rx.phase = .p6 → s.drv.nextWrite ≠ s.drv.nextRead →
      exec i s = .next { s with rx := { s.rx with nwSnap := s.drv.nextWrite, phase := .copy } })

/-- COPY of R180 with the dequeue law of R133: the `n = min(L, ring_len)` bytes of host memory from `addr` on become the
ring's bytes, in order, wrapping at the top of both; every other byte of host memory and every other field stands. Host memory is
in its canonical form (`MemoryGood.host`), as in every run. -/
def Obligations.ReadCopiesTheRing : Prop :=
  ∀ (s : State) (n : Nat), Memory.wf s.hostMem = true → s.appReady = true → s.rx.phase = .copy → 2 ≤ s.drv.cap.toNat →
    s.drv.cap.toNat ≤ s.cfg.capMax →
    s.drv.nextRead.toNat < s.drv.cap.toNat → s.rx.nwSnap.toNat < s.drv.cap.toNat → s.rx.nwSnap ≠ s.drv.nextRead →
    s.rx.a1 ≠ 0#32 →
    n = min s.rx.a1.toNat ((s.rx.nwSnap.toNat + s.drv.cap.toNat - s.drv.nextRead.toNat) % s.drv.cap.toNat) →
    1 ≤ n ∧ ∃ t, exec .read s = .next t ∧
      t = { s with hostMem := t.hostMem, rx := { s.rx with rdN := BitVec.ofNat 32 n, phase := .adv } } ∧
      t.rx.rdN.toNat = n ∧
      (∀ k, k < n → memRead t (s.rx.a0 + BitVec.ofNat 32 k) = bufSlot s ((s.drv.nextRead.toNat + k) % s.drv.cap.toNat)) ∧
      (∀ a : Word, (∀ k, k < n → a ≠ s.rx.a0 + BitVec.ofNat 32 k) → memRead t a = memRead s a)

/-- COPY of R181, and ADV of R180 for both reads. -/
def Obligations.ReadByteCopyAndAdvance : Prop :=
  (∀ s : State, s.appReady = true → s.rx.phase = .copy → s.drv.nextRead.toNat < s.cfg.capMax →
    exec .readByte s = .next
      { s with rx := { s.rx with rdByte := bufSlot s s.drv.nextRead.toNat, rdN := 1#32, phase := .adv } }) ∧
  (∀ (i : Instr) (s : State), i = .read ∨ i = .readByte → s.appReady = true → s.rx.phase = .adv →
    s.drv.nextRead.toNat < s.drv.cap.toNat → s.rx.rdN.toNat < s.drv.cap.toNat →
    exec i s = .next
      { s with
        drv := { s.drv with nextRead := BitVec.ofNat 32 ((s.drv.nextRead.toNat + s.rx.rdN.toNat) % s.drv.cap.toNat) }
        rx := { s.rx with phase := .fin1 } })

/-- R182: the atomic test-and-clear of FIN1, and FIN2's resolution: a hardware error first, then the overflow; `BYTE` is
`rd_byte` for `READ_BYTE` and 0 for `READ`. -/
def Obligations.ReadCompletion : Prop :=
  ∀ (i : Instr) (b : Byte) (s : State), (i = .read ∧ b = 0#8) ∨ (i = .readByte ∧ b = s.rx.rdByte) → s.appReady = true →
    (s.rx.phase = .fin1 →
      exec i s = .next
        { s with drv := { s.drv with overflow := false }, rx := { s.rx with rdOvf := s.drv.overflow, phase := .fin2 } }) ∧
    (∀ err : BitVec 4, s.rx.phase = .fin2 →
      err = (if s.drv.errMask ≠ 0#4 then 3#4 else if s.rx.rdOvf then 2#4 else 0#4) →
      exec i s = .next
        { s with
          drv := { s.drv with errMask := 0#4 }
          regs := { s.regs with rxRsp := 0#16 ++ b ++ s.drv.errMask ++ err, rxN := s.rx.rdN }
          rx := { s.rx with phase := .idle } })

/-- The whole of `READ` and of `READ_BYTE` with data there (R133, R180, R181, R182, R184 (1)): the oldest unread bytes, in
order, leave the ring and are delivered. -/
def Obligations.ReadReturnsTheOldestBytes : Prop :=
  (∀ (s : State) (n : Nat), s.Good → s.appReady = true → s.rx.phase = .idle → s.drv.rxEnabled = true →
    s.regs.rxA1 ≠ 0#32 → 1 ≤ unread s → n = min s.regs.rxA1.toNat (unread s) →
    ∃ t, execTimes .read 6 s = .next t ∧ t.rx.phase = .idle ∧ t.regs.rxN.toNat = n ∧
      t.regs.rxRsp = 0#24 ++ s.drv.errMask ++
        (if s.drv.errMask ≠ 0#4 then 3#4 else if s.drv.overflow then 2#4 else 0#4) ∧
      t.drv.overflow = false ∧ t.drv.errMask = 0#4 ∧ ringContents t = (ringContents s).drop n ∧
      payloadList t s.regs.rxA0 n = (ringContents s).take n ∧
      (∀ a : Word, (∀ k, k < n → a ≠ s.regs.rxA0 + BitVec.ofNat 32 k) → memRead t a = memRead s a) ∧
      t.buf = s.buf ∧ t.per = s.per ∧ t.tx = s.tx ∧ t.isr = s.isr) ∧
  (∀ (s : State) (b : Byte) (rest : List Byte), s.Good → s.appReady = true → s.rx.phase = .idle →
    s.drv.rxEnabled = true → ringContents s = b :: rest →
    ∃ t, execTimes .readByte 6 s = .next t ∧ t.rx.phase = .idle ∧ t.regs.rxN = 1#32 ∧
      t.regs.rxRsp = 0#16 ++ b ++ s.drv.errMask ++
        (if s.drv.errMask ≠ 0#4 then 3#4 else if s.drv.overflow then 2#4 else 0#4) ∧
      t.drv.overflow = false ∧ t.drv.errMask = 0#4 ∧ ringContents t = rest ∧
      t.hostMem = s.hostMem ∧ t.buf = s.buf ∧ t.per = s.per ∧ t.tx = s.tx ∧ t.isr = s.isr)

/-! ### The TX port -/

/-- R210, R211: enabling and disabling the transmit commands. That an offer of DT2 while it holds leaves the state as it is, is
the model's reading (log 3). -/
def Obligations.EnableDisableTxSteps : Prop :=
  (∀ s : State, s.drv.fatal = false → s.tx.phase = .idle →
    exec .enableTx s = .next
      { s with
        regs := { s.regs with txRsp := 0x00010000#32, txN := 0#32 }
        tx := { s.tx with op := 0x20#8, imm := 0#16, a0 := s.regs.txA0, a1 := s.regs.txA1, phase := .te1 } }) ∧
  (∀ s : State, s.appReady = true → s.tx.phase = .te1 →
    exec .enableTx s = .next
      { s with
        regs := { s.regs with txRsp := 0#32, txN := 0#32 }, drv := { s.drv with txEnabled := true }
        tx := { s.tx with phase := .idle } }) ∧
  (∀ s : State, s.drv.fatal = false → s.tx.phase = .idle →
    exec .disableTx s = .next
      { s with
        regs := { s.regs with txRsp := 0x00010000#32, txN := 0#32 }
        tx := { s.tx with op := 0x21#8, imm := 0#16, a0 := s.regs.txA0, a1 := s.regs.txA1, phase := .dt1 } }) ∧
  (∀ s : State, s.appReady = true → s.tx.phase = .dt1 → s.drv.txEnabled = false →
    exec .disableTx s = .next
      { s with regs := { s.regs with txRsp := 0#32, txN := 0#32 }, tx := { s.tx with phase := .idle } }) ∧
  (∀ (s : State) (m : BitVec 3), s.appReady = true → s.tx.phase = .dt1 → s.drv.txEnabled = true →
    m = s.drv.ie &&& 5#3 →
    exec .disableTx s = .next
      { s with
        drv := { s.drv with ie := m }, per := { s.per with pmask := m }
        pri := { s.pri with req := 0x3#4 ++ m.setWidth 28, rsp := 0#32 }, tx := { s.tx with phase := .dt2 } }) ∧
  (∀ s : State, s.appReady = true → s.tx.phase = .dt2 → s.drv.isrState = .inTx → exec .disableTx s = .next s) ∧
  (∀ s : State, s.appReady = true → s.tx.phase = .dt2 → s.drv.isrState ≠ .inTx →
    exec .disableTx s = .next { s with tx := { s.tx with phase := .dt3 } }) ∧
  (∀ s : State, s.appReady = true → s.tx.phase = .dt3 →
    exec .disableTx s = .next
      { s with
        regs := { s.regs with txRsp := 0#32, txN := 0#32 }, drv := { s.drv with txEnabled := false }
        tx := { s.tx with phase := .idle } })

/-- W0 of R212, R222 and R223: the issue of the three write commands; with transmit disabled they have no meaning (U4). In
flight, `WRITE` and `WRITE_STRING` take the very same steps (R116, R222). -/
def Obligations.WriteIssue : Prop :=
  (∀ s : State, s.tx.phase ≠ .idle → exec .write s = exec .writeString s) ∧
  ∀ (i : Instr) (len : Word) (s : State),
    (i = .write ∧ len = s.regs.txA1) ∨ (i = .writeString ∧ len = s.regs.txA1) ∨ (∃ b, i = .writeByte b ∧ len = 1#32) →
    s.drv.fatal = false → s.tx.phase = .idle →
    (s.drv.txEnabled = true → len ≠ 0#32 →
      exec i s = .next
        { s with
          regs := { s.regs with txRsp := 0x00010000#32, txN := 0#32 }
          tx :=
            { s.tx with
              op := (encode i).extractLsb' 0 8, imm := (encode i).extractLsb' 16 16, a0 := s.regs.txA0
              a1 := s.regs.txA1, i := 0#32, phase := .w1s } }) ∧
    (s.drv.txEnabled = true → len = 0#32 →
      exec i s = .next
        { s with
          regs := { s.regs with txRsp := 0#32, txN := 0#32 }
          tx :=
            { s.tx with
              op := (encode i).extractLsb' 0 8, imm := (encode i).extractLsb' 16 16, a0 := s.regs.txA0
              a1 := s.regs.txA1, i := 0#32, phase := .idle } }) ∧
    (s.drv.txEnabled = false → exec i s = .refused .txDisabled)

/-- R213: the fast fill of the three write commands. -/
def Obligations.FastFillSteps : Prop :=
  ∀ (i : Instr) (s : State), isWrite (some i) = true → s.appReady = true →
    (∀ e : BitVec 4, s.tx.phase = .w1s → e = (if s.cfg.hasLineStatus then s.per.hwerr else 0#4) →
      exec i s = .next
        { s with
          drv := { s.drv with errMask := s.drv.errMask ||| e }, per := { s.per with hwerr := 0#4 }
          pri := { s.pri with req := 0x20000000#32, rsp := statusRsp (peripheralStatus s.cfg s.per) }
          tx := { s.tx with phase := if s.per.txFifo.length = s.cfg.txDepth then .w3 else .w1p } }) ∧
    (∀ (len : Word) (b : Byte), s.tx.phase = .w1p → s.per.txFifo.length < s.cfg.txDepth →
      len = payloadLen s (formOf (some i)) → b = payloadAt s (formOf (some i)) s.tx.i.toNat →
      (s.tx.i + 1#32 ≠ len →
        exec i s = .next
          { s with
            per := { s.per with txFifo := s.per.txFifo ++ [b] }
            pri := { s.pri with req := 0x10#8 ++ 0#16 ++ b, rsp := 0#32 }
            tx := { s.tx with i := s.tx.i + 1#32, phase := .w1s } }) ∧
      (s.tx.i + 1#32 = len →
        exec i s = .next
          { s with
            per := { s.per with txFifo := s.per.txFifo ++ [b] }
            pri := { s.pri with req := 0x10#8 ++ 0#16 ++ b, rsp := 0#32 }
            regs := { s.regs with txRsp := 0#32, txN := len }
            tx := { s.tx with i := s.tx.i + 1#32, phase := .idle } }))

/-- R214, R215, R216, R217, R219 and the staging clause of R223. -/
def Obligations.StagingSteps : Prop :=
  (∀ (i : Instr) (s : State), i = .write ∨ i = .writeString → s.appReady = true → s.tx.phase = .w3 →
    exec i s = .next
      { s with
        drv :=
          { s.drv with
            txPending := { base := s.tx.a0 + s.tx.i, len := s.tx.a1 - s.tx.i, src := false }, txCursor := 0#32 }
        tx := { s.tx with phase := .w4 } }) ∧
  (∀ (b : Byte) (s : State), s.appReady = true → s.tx.phase = .w3 →
    exec (.writeByte b) s = .next
      { s with
        drv :=
          { s.drv with
            txPending := { base := 0#32, len := 1#32, src := true }, txByte := s.tx.imm.extractLsb' 0 8, txCursor := 0#32 }
        tx := { s.tx with phase := .w4 } }) ∧
  (∀ (i : Instr) (s : State), isWrite (some i) = true → s.appReady = true →
    (∀ n : Nat, s.tx.phase = .w4 → s.cfg.ok = true →
      n = txSel s.cfg.txTrigMax ((payloadLen s (formOf (some i))).toNat - s.tx.i.toNat) →
      exec i s = .next
        { s with
          per := { s.per with txTrig := BitVec.ofNat 8 n }
          pri := { s.pri with req := 0x60000000#32 ||| BitVec.ofNat 32 n, rsp := 0#32 }, tx := { s.tx with phase := .w5 } }) ∧
    (s.tx.phase = .w5 → exec i s = .next { s with drv := { s.drv with txDone := false }, tx := { s.tx with phase := .w6 } }) ∧
    (∀ m : BitVec 3, s.tx.phase = .w6 → m = s.drv.ie ||| 2#3 →
      exec i s = .next
        { s with
          drv := { s.drv with ie := m }, per := { s.per with pmask := m }
          pri := { s.pri with req := 0x3#4 ++ m.setWidth 28, rsp := 0#32 }, tx := { s.tx with phase := .w7 } }) ∧
    (∀ m : BitVec 3, s.tx.phase = .w8 → m = s.drv.ie &&& 5#3 →
      exec i s = .next
        { s with
          drv := { s.drv with ie := m }, per := { s.per with pmask := m }
          pri := { s.pri with req := 0x3#4 ++ m.setWidth 28, rsp := 0#32 }, tx := { s.tx with phase := .w9 } }))

/-- R218, R220, R221: the writer's sleep, the spin, the accounting and the response. That an offer of W7L or W9 while it holds
leaves the state as it is, is the model's reading (log 3). -/
def Obligations.WriteSleepAndResponse : Prop :=
  ∀ (i : Instr) (s : State), isWrite (some i) = true → s.appReady = true →
    (s.tx.phase = .w7 → s.drv.writeTimeout ≠ 0xFFFFFFFF#32 →
      exec i s = .next { s with tx := { s.tx with timer := { armed := true, count := s.drv.writeTimeout }, phase := .w7l } }) ∧
    (s.tx.phase = .w7 → s.drv.writeTimeout = 0xFFFFFFFF#32 →
      exec i s = .next { s with tx := { s.tx with timer := { s.tx.timer with armed := false }, phase := .w7l } }) ∧
    (s.tx.phase = .w7l → s.drv.txDone = true →
      exec i s = .next
        { s with tx := { s.tx with waitOk := true, timer := { s.tx.timer with armed := false }, phase := .w9 } }) ∧
    (s.tx.phase = .w7l → s.drv.txDone = false → s.tx.timer.armed = true → s.tx.timer.count = 0#32 →
      exec i s = .next
        { s with tx := { s.tx with waitOk := false, timer := { s.tx.timer with armed := false }, phase := .w8 } }) ∧
    (s.tx.phase = .w7l → s.drv.txDone = false → s.tx.timer.armed = false ∨ s.tx.timer.count ≠ 0#32 →
      exec i s = .next s) ∧
    (s.tx.phase = .w9 → s.drv.isrState = .inTx → exec i s = .next s) ∧
    (s.tx.phase = .w9 → s.drv.isrState ≠ .inTx → exec i s = .next { s with tx := { s.tx with phase := .w10 } }) ∧
    (s.tx.phase = .w10 →
      exec i s = .next
        { s with
          drv := { s.drv with txPending := { base := 0#32, len := 0#32, src := false }, txCursor := 0#32 }
          regs :=
            { s.regs with
              txRsp := if s.tx.waitOk then 0#32 else 1#32, txN := s.tx.i + s.drv.txCursor }
          tx := { s.tx with phase := .idle } })

/-- R221: in a good state the accounting completes the write with an exact count: all of the payload on `OK`; on `TIMEOUT` what
was handed to the FIFO, between the fast path's count and the length; the descriptor empty, the enable clear, no transmit
section in flight. -/
def Obligations.WriteAccounting : Prop :=
  ∀ (i : Instr) (s : State), s.Good → s.appReady = true → s.tx.phase = .w10 → latchedTx s = some i →
    ∃ t, exec i s = .next t ∧ t.tx.phase = .idle ∧ t.drv.txPending = TxDesc.empty ∧ t.drv.txCursor = 0#32 ∧
      t.regs.txRsp = (if s.tx.waitOk then 0#32 else 1#32) ∧ t.regs.txN.toNat = pushed s ∧
      s.tx.i.toNat ≤ t.regs.txN.toNat ∧ t.regs.txN.toNat ≤ (payloadLen s (latchedForm s)).toNat ∧
      (s.tx.waitOk = true → t.regs.txN = payloadLen s (latchedForm s)) ∧
      hasTx t.drv.ie = false ∧ t.drv.isrState ≠ .inTx ∧ t.hostMem = s.hostMem ∧ t.per = s.per

/-- R213 and source property 5 (R212, R225 (2)): a payload that fits the free space is written in the fast path alone, in
order, with no interrupt enable touched. -/
def Obligations.FastPathWritesThePayload : Prop :=
  (∀ (i : Instr) (s : State) (n : Nat), i = .write ∨ i = .writeString → s.appReady = true → s.tx.phase = .idle →
    s.drv.txEnabled = true → n = s.regs.txA1.toNat → 1 ≤ n → s.per.txFifo.length + n ≤ s.cfg.txDepth →
    ∃ t, execTimes i (1 + 2 * n) s = .next t ∧
      t = { s with
        regs := { s.regs with txRsp := 0#32, txN := s.regs.txA1 }
        drv := { s.drv with errMask := s.drv.errMask ||| (if s.cfg.hasLineStatus then s.per.hwerr else 0#4) }
        per := { s.per with txFifo := s.per.txFifo ++ payloadList s s.regs.txA0 n, hwerr := 0#4 }
        pri := t.pri
        tx :=
          { s.tx with
            op := (encode i).extractLsb' 0 8, imm := 0#16, a0 := s.regs.txA0, a1 := s.regs.txA1, i := s.regs.txA1 } }) ∧
  (∀ (b : Byte) (s : State), s.appReady = true → s.tx.phase = .idle → s.drv.txEnabled = true →
    s.per.txFifo.length + 1 ≤ s.cfg.txDepth →
    ∃ t, execTimes (.writeByte b) 3 s = .next t ∧
      t = { s with
        regs := { s.regs with txRsp := 0#32, txN := 1#32 }
        drv := { s.drv with errMask := s.drv.errMask ||| (if s.cfg.hasLineStatus then s.per.hwerr else 0#4) }
        per := { s.per with txFifo := s.per.txFifo ++ [b], hwerr := 0#4 }
        pri := t.pri
        tx := { s.tx with op := 0x24#8, imm := 0#8 ++ b, a0 := s.regs.txA0, a1 := s.regs.txA1, i := 1#32 } })

/-- Source property 6 (R221): a payload that does not fit, an engine that is never served and a finite timeout. The write
falls asleep, sleeps on after every tick but the last, and after as many ticks as the timeout says it reports `TIMEOUT` with exactly
the bytes of the fast path, the enable cleared and the descriptor emptied. That an offer of W7L while it holds leaves the state as it
is, is the model's reading (log 3). -/
def Obligations.StalledWriteReportsTheFastPath : Prop :=
  ∀ (i : Instr) (s : State) (n : Nat) (len : Word) (bytes : List Byte),
    ((i = .write ∨ i = .writeString) ∧ len = s.regs.txA1 ∧ bytes = payloadList s s.regs.txA0 n) ∨
      (∃ b, i = .writeByte b ∧ len = 1#32 ∧ bytes = []) →
    s.Good → s.appReady = true → s.tx.phase = .idle → s.isr.phase = .idle → s.drv.txEnabled = true →
    s.drv.writeTimeout ≠ infTimeout → n = s.cfg.txDepth - s.per.txFifo.length → n < len.toNat →
    ∃ u t, execTimes i (2 * n + 7) s = .next u ∧ u.tx.phase = .w7l ∧
      (∀ k, k < s.drv.writeTimeout.toNat → exec i (tick^[k] u) = .next (tick^[k] u)) ∧
      execTimes i 4 (tick^[s.drv.writeTimeout.toNat] u) = .next t ∧ t.tx.phase = .idle ∧ t.regs.txRsp = 0x00000001#32 ∧
      t.regs.txN.toNat = n ∧ t.per.txFifo = s.per.txFifo ++ bytes ∧ t.drv.ie = s.drv.ie ∧ t.per.pmask = s.drv.ie ∧
      t.drv.txPending.len = 0#32 ∧ t.drv.txCursor = 0#32 ∧ t.hostMem = s.hostMem ∧ t.buf = s.buf ∧
      t.rx = { s.rx with timer := Timer.tick^[s.drv.writeTimeout.toNat] s.rx.timer } ∧ t.isr = s.isr

/-- R224: issue, FL1, FL2; an empty FIFO wins over an expired timer (R345 (d)). That an offer of FL2 while it holds leaves the
state as it is, is the model's reading (log 3). -/
def Obligations.FlushSteps : Prop :=
  (∀ s : State, s.drv.fatal = false → s.tx.phase = .idle →
    exec .flush s = .next
      { s with
        regs := { s.regs with txRsp := 0x00010000#32, txN := 0#32 }
        tx := { s.tx with op := 0x25#8, imm := 0#16, a0 := s.regs.txA0, a1 := s.regs.txA1, phase := .fl1 } }) ∧
  (∀ s : State, s.appReady = true → s.tx.phase = .fl1 → s.drv.writeTimeout ≠ 0xFFFFFFFF#32 →
    exec .flush s = .next
      { s with tx := { s.tx with timer := { armed := true, count := s.drv.writeTimeout }, phase := .fl2 } }) ∧
  (∀ s : State, s.appReady = true → s.tx.phase = .fl1 → s.drv.writeTimeout = 0xFFFFFFFF#32 →
    exec .flush s = .next { s with tx := { s.tx with timer := { s.tx.timer with armed := false }, phase := .fl2 } }) ∧
  (∀ s : State, s.appReady = true → s.tx.phase = .fl2 → s.per.txFifo ≠ [] →
    s.tx.timer.armed = false ∨ s.tx.timer.count ≠ 0#32 → exec .flush s = .next s) ∧
  (∀ (s : State) (e : BitVec 4), s.appReady = true → s.tx.phase = .fl2 →
    s.per.txFifo = [] ∨ (s.tx.timer.armed = true ∧ s.tx.timer.count = 0#32) →
    e = (if s.cfg.hasLineStatus then s.per.hwerr else 0#4) →
    exec .flush s = .next
      { s with
        drv := { s.drv with errMask := s.drv.errMask ||| e }, per := { s.per with hwerr := 0#4 }
        pri := { s.pri with req := 0x20000000#32, rsp := statusRsp (peripheralStatus s.cfg s.per) }
        regs := { s.regs with txRsp := if s.per.txFifo = [] then 0#32 else 1#32, txN := 0#32 }
        tx := { s.tx with timer := { s.tx.timer with armed := false }, phase := .idle } })

/-! ### The interrupt service engine -/

/-- R250, R251, R259, R265, R266: issue, the three dispatch steps, T5, and the two returns. -/
def Obligations.ServiceDispatchAndReturn : Prop :=
  ∀ s : State, s.drv.fatal = false →
    (s.isr.phase = .idle →
      exec .serviceInterrupt s = .next
        { s with regs := { s.regs with svRsp := 0x00010000#32 }, isr := { s.isr with phase := .s0 } }) ∧
    (∀ c : BitVec 3, c = rawCond s.cfg s.per &&& s.per.pmask →
      (s.isr.phase = .s0 →
        exec .serviceInterrupt s = .next
          { s with
            pri := { s.pri with req := 0x40000000#32, rsp := 0#29 ++ c }
            drv := { s.drv with isrState := if c.getLsbD 0 then .inRx else s.drv.isrState }
            isr := { s.isr with cause := c, phase := if c.getLsbD 0 then .i1 else .s1 } }) ∧
      (s.isr.phase = .s1 →
        exec .serviceInterrupt s = .next
          { s with
            pri := { s.pri with req := 0x40000000#32, rsp := 0#29 ++ c }
            drv := { s.drv with isrState := if c.getLsbD 1 then .inTx else s.drv.isrState }
            isr := { s.isr with cause := c, phase := if c.getLsbD 1 then .t1 else .s2 } }) ∧
      (s.isr.phase = .s2 → c.getLsbD 2 = true →
        exec .serviceInterrupt s = .next
          { s with
            pri := { s.pri with req := 0x40000000#32, rsp := 0#29 ++ c }
            isr := { s.isr with cause := c, phase := .st1 } }) ∧
      (s.isr.phase = .s2 → c.getLsbD 2 = false →
        exec .serviceInterrupt s = .next
          { s with
            pri := { s.pri with req := 0x40000000#32, rsp := 0#29 ++ c }
            regs := { s.regs with svRsp := s.regs.svRsp &&& 0xFFFEFFFF#32 }
            isr := { s.isr with cause := c, phase := .idle } })) ∧
    (s.isr.phase = .t5 →
      exec .serviceInterrupt s = .next { s with drv := { s.drv with isrState := .idle }, isr := { s.isr with phase := .s2 } }) ∧
    (∀ e : BitVec 4, s.isr.phase = .st1 → e = (if s.cfg.hasLineStatus then s.per.hwerr else 0#4) →
      exec .serviceInterrupt s = .next
        { s with
          drv := { s.drv with errMask := s.drv.errMask ||| e }, per := { s.per with hwerr := 0#4 }
          pri := { s.pri with req := 0x20000000#32, rsp := statusRsp (peripheralStatus s.cfg s.per) }
          regs := { s.regs with svRsp := s.regs.svRsp &&& 0xFFFEFFFF#32 }
          isr := { s.isr with phase := .idle } })

/-- R252 to R258: the receive section, step by step. I3 writes one slot of `Buf` and no other. -/
def Obligations.ReceiveSectionSteps : Prop :=
  ∀ s : State, s.drv.fatal = false →
    (∀ (b : Byte) (rest : List Byte), s.isr.phase = .i1 → s.per.rxFifo = b :: rest →
      exec .serviceInterrupt s = .next
        { s with
          per := { s.per with rxFifo := rest, rxStale := if rest = [] then false else s.per.rxStale }
          pri := { s.pri with req := 0#32, rsp := 0#23 ++ BitVec.ofBool (decide (rest ≠ [])) ++ b }
          isr := { s.isr with byte := b, more := decide (rest ≠ []), phase := .i2 } }) ∧
    (∀ w1 : Word, s.isr.phase = .i2 → w1 = idxNext s.drv.cap s.drv.nextWrite →
      exec .serviceInterrupt s = .next
        { s with
          isr :=
            { s.isr with
              nw1 := w1, stored := decide (w1 ≠ s.drv.nextRead), phase := if w1 = s.drv.nextRead then .i3f else .i3 } }) ∧
    (s.isr.phase = .i3 → s.drv.nextWrite.toNat < s.cfg.capMax →
      ∃ t, exec .serviceInterrupt s = .next t ∧ t = { s with buf := t.buf, isr := { s.isr with phase := .i4 } } ∧
        ∀ j, bufSlot t j = if j = s.drv.nextWrite.toNat then s.isr.byte else bufSlot s j) ∧
    (s.isr.phase = .i3f →
      exec .serviceInterrupt s = .next { s with drv := { s.drv with overflow := true }, isr := { s.isr with phase := .i7 } }) ∧
    (s.isr.phase = .i4 →
      exec .serviceInterrupt s = .next
        { s with drv := { s.drv with nextWrite := s.isr.nw1 }, isr := { s.isr with phase := .i5 } }) ∧
    (s.isr.phase = .i5 →
      exec .serviceInterrupt s = .next
        { s with
          drv := { s.drv with rxWakeRequested := false }
          isr := { s.isr with phase := if s.drv.rxWakeRequested then .i6 else .i7 } }) ∧
    (s.isr.phase = .i6 →
      exec .serviceInterrupt s = .next { s with drv := { s.drv with rxWake := true }, isr := { s.isr with phase := .i7 } }) ∧
    (s.isr.phase = .i7 → s.isr.more = true → exec .serviceInterrupt s = .next { s with isr := { s.isr with phase := .i1 } }) ∧
    (s.isr.phase = .i7 → s.isr.more = false →
      exec .serviceInterrupt s = .next { s with drv := { s.drv with isrState := .idle }, isr := { s.isr with phase := .s1 } })

/-- R260 to R264: the transmit section, step by step. -/
def Obligations.TransmitSectionSteps : Prop :=
  ∀ s : State, s.drv.fatal = false →
    (s.isr.phase = .t1 → s.drv.txPending.len.toNat ≤ s.drv.txCursor.toNat →
      exec .serviceInterrupt s = .next { s with isr := { s.isr with phase := .t1a } }) ∧
    (s.isr.phase = .t1 → s.drv.txCursor.toNat < s.drv.txPending.len.toNat →
      exec .serviceInterrupt s = .next { s with isr := { s.isr with phase := .t2s } }) ∧
    (∀ m : BitVec 3, s.isr.phase = .t1a → m = s.drv.ie &&& 5#3 →
      exec .serviceInterrupt s = .next
        { s with
          drv := { s.drv with ie := m }, per := { s.per with pmask := m }
          pri := { s.pri with req := 0x3#4 ++ m.setWidth 28, rsp := 0#32 }, isr := { s.isr with phase := .t1w } }) ∧
    (s.isr.phase = .t1w →
      exec .serviceInterrupt s = .next { s with drv := { s.drv with txDone := true }, isr := { s.isr with phase := .t5 } }) ∧
    (∀ e : BitVec 4, s.isr.phase = .t2s → e = (if s.cfg.hasLineStatus then s.per.hwerr else 0#4) →
      exec .serviceInterrupt s = .next
        { s with
          drv := { s.drv with errMask := s.drv.errMask ||| e }, per := { s.per with hwerr := 0#4 }
          pri := { s.pri with req := 0x20000000#32, rsp := statusRsp (peripheralStatus s.cfg s.per) }
          isr :=
            { s.isr with
              full := decide (s.per.txFifo.length = s.cfg.txDepth)
              phase := if s.per.txFifo.length = s.cfg.txDepth then .t4 else .t3 } }) ∧
    (∀ b : Byte, s.isr.phase = .t3 → s.per.txFifo.length < s.cfg.txDepth →
      b = (if s.drv.txPending.src then s.drv.txByte else memRead s (s.drv.txPending.base + s.drv.txCursor)) →
      exec .serviceInterrupt s = .next
        { s with
          per := { s.per with txFifo := s.per.txFifo ++ [b] }
          pri := { s.pri with req := 0x10#8 ++ 0#16 ++ b, rsp := 0#32 }
          drv := { s.drv with txCursor := s.drv.txCursor + 1#32 }
          isr := { s.isr with phase := if s.drv.txCursor + 1#32 = s.drv.txPending.len then .t4 else .t2s } }) ∧
    (∀ n : Nat, s.isr.phase = .t4 → s.cfg.ok = true →
      n = txSel s.cfg.txTrigMax (s.drv.txPending.len.toNat - s.drv.txCursor.toNat) →
      exec .serviceInterrupt s = .next
        { s with
          per := { s.per with txTrig := BitVec.ofNat 8 n }
          pri := { s.pri with req := 0x60000000#32 ||| BitVec.ofNat 32 n, rsp := 0#32 }
          isr := { s.isr with phase := .t5 } })

/-- R132, the enqueue law over the steps I2 to I4: full means dropped and flagged, otherwise the byte stands at the old
`next_write`, which moves on by one. -/
def Obligations.EnqueueLaw : Prop :=
  (∀ s : State, s.drv.fatal = false → s.isr.phase = .i2 → idxNext s.drv.cap s.drv.nextWrite = s.drv.nextRead →
    ∃ t, execTimes .serviceInterrupt 2 s = .next t ∧ t.isr.phase = .i7 ∧ t.buf = s.buf ∧
      t.drv = { s.drv with overflow := true } ∧ ringContents t = ringContents s) ∧
  (∀ s : State, s.drv.fatal = false → s.isr.phase = .i2 → idxNext s.drv.cap s.drv.nextWrite ≠ s.drv.nextRead →
    2 ≤ s.drv.cap.toNat → s.drv.cap.toNat ≤ s.cfg.capMax → s.drv.nextRead.toNat < s.drv.cap.toNat →
    s.drv.nextWrite.toNat < s.drv.cap.toNat →
    ∃ t, execTimes .serviceInterrupt 3 s = .next t ∧ t.isr.phase = .i5 ∧
      t.drv = { s.drv with nextWrite := idxNext s.drv.cap s.drv.nextWrite } ∧
      (∀ j, bufSlot t j = if j = s.drv.nextWrite.toNat then s.isr.byte else bufSlot s j) ∧
      ringContents t = ringContents s ++ [s.isr.byte])

/-- One invocation moves the receive FIFO into the ring, in order, as far as the ring has room, and flags what it dropped
(R132, R184 (1) (2), R251 to R258). -/
def Obligations.ServiceMovesTheFifoIntoTheRing : Prop :=
  ∀ (s : State) (room : Nat), s.Good → s.drv.fatal = false → s.isr.phase = .idle → hasRx (gatedCause s) = true →
    room = s.drv.cap.toNat - 1 - unread s →
    ∃ (k : Nat) (t : State), k ≤ 7 * s.per.rxFifo.length + 2 ∧ execTimes .serviceInterrupt k s = .next t ∧
      t.isr.phase = .s1 ∧ t.drv.isrState = .idle ∧ t.per.rxFifo = [] ∧
      ringContents t = ringContents s ++ s.per.rxFifo.take room ∧
      t.drv.overflow = (s.drv.overflow || decide (room < s.per.rxFifo.length)) ∧
      t.drv.nextRead = s.drv.nextRead ∧ t.per.txFifo = s.per.txFifo ∧ t.rx = s.rx ∧ t.tx = s.tx ∧ t.hostMem = s.hostMem

/-- R250 and R342 (d): an invocation with no cause pending is three dispatch steps and a return, after which `SVRSP` is 0. -/
def Obligations.ServiceWithoutCauseReturns : Prop :=
  ∀ s : State, s.Good → s.drv.fatal = false → s.isr.phase = .idle → gatedCause s = 0#3 →
    execTimes .serviceInterrupt 4 s = .next
      { s with
        isr := { s.isr with cause := 0#3 }, regs := { s.regs with svRsp := 0#32 }
        pri := { s.pri with req := 0x40000000#32, rsp := 0#32 } }

/-- R267 (1), R385: the engine never holds. -/
def Obligations.EngineNeverHolds : Prop :=
  ∀ s : State, s.Good → s.drv.fatal = false → s.isr.phase ≠ .idle →
    ∃ t, exec .serviceInterrupt s = .next t ∧ t.isr.phase ≠ s.isr.phase ∧ t.drv.fatal = false

/-- R267 (2), U16: with no line event meanwhile, an invocation ends within seven steps a received byte, two a free transmit
slot, and eight more. -/
def Obligations.EngineReturns : Prop :=
  ∀ s : State, s.Good → s.drv.fatal = false → s.isr.phase = .s0 →
    ∃ (k : Nat) (t : State),
      k ≤ 7 * s.per.rxFifo.length + 2 * (s.cfg.txDepth - s.per.txFifo.length) + 8 ∧
      execTimes .serviceInterrupt k s = .next t ∧ t.isr.phase = .idle ∧ t.regs.svRsp = 0#32

/-- R173, R179, R184 (4): a sleeping reader for whom data is there is signalled, or the engine's next two steps signal it. -/
def Obligations.SleeperWithDataIsWoken : Prop :=
  ∀ s : State, s.Good → s.drv.fatal = false →
    (s.rx.phase = .p4l ∧ s.drv.nextWrite ≠ s.drv.nextRead) ∨ s.rx.phase = .p5l →
    ∃ (k : Nat) (t : State), k ≤ 2 ∧ execTimes .serviceInterrupt k s = .next t ∧ t.drv.rxWake = true ∧ t.rx = s.rx

/-! ### The PRI requests and the environment -/

/-- R300, R301, with the requests that have no meaning (U6). -/
def Obligations.PriFifoRequests : Prop :=
  (∀ (s : State) (b : Byte) (rest : List Byte), s.per.rxFifo = b :: rest →
    exec .priLoad s = .next
      { s with
        per := { s.per with rxFifo := rest, rxStale := if rest = [] then false else s.per.rxStale }
        pri := { s.pri with req := 0#32, rsp := 0#23 ++ BitVec.ofBool (decide (rest ≠ [])) ++ b } }) ∧
  (∀ s : State, s.per.rxFifo = [] → exec .priLoad s = .refused .loadEmpty) ∧
  (∀ (b : Byte) (s : State), s.per.txFifo.length < s.cfg.txDepth →
    exec (.priStore b) s = .next
      { s with
        per := { s.per with txFifo := s.per.txFifo ++ [b] }, pri := { s.pri with req := 0x10#8 ++ 0#16 ++ b, rsp := 0#32 } }) ∧
  (∀ (b : Byte) (s : State), s.cfg.txDepth ≤ s.per.txFifo.length → exec (.priStore b) s = .refused .storeFull)

/-- R302, R303, R304, R307, R308: the requests that always have a result, with their response words. -/
def Obligations.PriStatusAndSettings : Prop :=
  (∀ (s : State) (w : Word),
    w = 0#24 ++ (if s.cfg.hasLineStatus then s.per.hwerr else 0#4) ++ 0#1 ++ BitVec.ofBool (decide (s.per.txFifo.length = 0)) ++
        BitVec.ofBool (decide (s.per.txFifo.length = s.cfg.txDepth)) ++
        BitVec.ofBool (decide (1 ≤ s.per.rxFifo.length)) →
    exec .priStatus s = .next
      { s with per := { s.per with hwerr := 0#4 }, pri := { s.pri with req := 0x20000000#32, rsp := w } }) ∧
  (∀ (mask : BitVec 3) (s : State),
    exec (.priSetIe mask) s = .next
      { s with per := { s.per with pmask := mask }, pri := { s.pri with req := 0x3#4 ++ mask.setWidth 28, rsp := 0#32 } }) ∧
  (∀ s : State,
    exec .priIntSource s = .next
      { s with pri := { s.pri with req := 0x40000000#32, rsp := 0#29 ++ (rawCond s.cfg s.per &&& s.per.pmask) } }) ∧
  (∀ (n : BitVec 28) (s : State),
    exec (.priSetBaudDiv n) s = .next
      { s with per := { s.per with div := n }, pri := { s.pri with req := 0x7#4 ++ n, rsp := 0#32 } }) ∧
  (∀ (f : BitVec 5) (s : State),
    exec (.priCfgWordFormat f) s = .next
      { s with per := { s.per with lcr := f }, pri := { s.pri with req := 0x8#4 ++ f.setWidth 28, rsp := 0#32 } })

/-- R305, R306: the trigger levels, with their legal ranges (U8). -/
def Obligations.PriTriggerLevels : Prop :=
  (∀ (n : BitVec 8) (s : State), 1 ≤ n.toNat → n.toNat ≤ s.cfg.rxDepth →
    exec (.priSetRxTrig n) s = .next
      { s with per := { s.per with rxTrig := n }, pri := { s.pri with req := 0x50#8 ++ 0#16 ++ n, rsp := 0#32 } }) ∧
  (∀ (n : BitVec 8) (s : State), n.toNat < 1 ∨ s.cfg.rxDepth < n.toNat →
    exec (.priSetRxTrig n) s = .refused .triggerRange) ∧
  (∀ (n : BitVec 8) (s : State), 1 ≤ n.toNat → n.toNat ≤ s.cfg.txDepth →
    exec (.priSetTxTrig n) s = .next
      { s with per := { s.per with txTrig := n }, pri := { s.pri with req := 0x60#8 ++ 0#16 ++ n, rsp := 0#32 } }) ∧
  (∀ (n : BitVec 8) (s : State), n.toNat < 1 ∨ s.cfg.txDepth < n.toNat →
    exec (.priSetTxTrig n) s = .refused .triggerRange)

/-- R313, R314, R315, R316: the steps of agent LINE; that an offer of a step which is not enabled leaves the state as it is,
is the model's reading (log 3). -/
def Obligations.LineSteps : Prop :=
  (∀ (b : Byte) (s : State), s.per.rxFifo.length < s.cfg.rxDepth →
    runEvent (.lineRx b) s = .next { s with per := { s.per with rxFifo := s.per.rxFifo ++ [b] } }) ∧
  (∀ (b : Byte) (s : State), s.cfg.rxDepth ≤ s.per.rxFifo.length → s.cfg.hasLineStatus = true →
    runEvent (.lineRx b) s = .next { s with per := { s.per with hwerr := s.per.hwerr ||| 1#4 } }) ∧
  (∀ (b : Byte) (s : State), s.cfg.rxDepth ≤ s.per.rxFifo.length → s.cfg.hasLineStatus = false →
    runEvent (.lineRx b) s = .next s) ∧
  (∀ (s : State) (b : Byte) (rest : List Byte), s.per.txFifo = b :: rest →
    runEvent .lineTx s = .next { s with per := { s.per with txFifo := rest, wire := s.per.wire ++ [b] } }) ∧
  (∀ s : State, s.per.txFifo = [] → runEvent .lineTx s = .next s) ∧
  (∀ (f : BitVec 4) (s : State), s.cfg.hasLineStatus = true → f ≠ 0#4 →
    runEvent (.lineErr f) s = .next { s with per := { s.per with hwerr := s.per.hwerr ||| f } }) ∧
  (∀ (f : BitVec 4) (s : State), s.cfg.hasLineStatus = false ∨ f = 0#4 → runEvent (.lineErr f) s = .next s) ∧
  (∀ s : State, 1 ≤ s.per.rxFifo.length →
    runEvent .rxIdle s = .next { s with per := { s.per with rxStale := true } }) ∧
  (∀ s : State, s.per.rxFifo = [] → runEvent .rxIdle s = .next s)

/-! ### Reset, the fatal state, the whole machine -/

/-- R45, R310, R380: what reset leaves. The configuration that `State.reset` carries is the model's choice (log 1); so are the
emptied list and the count of resets, which stand for the free contents of `Buf` (log 5), the record of the last PRI exchange
(log 21), and that `env.inputs` stands, a waiting CFG command write in it (log 27). -/
def Obligations.ResetState : Prop :=
  (State.reset.drv =
    { cap := 0#32, rxEnabled := false, nextRead := 0#32, nextWrite := 0#32, overflow := false, rxWake := false,
      rxWakeRequested := false, txPending := { base := 0#32, len := 0#32, src := false }, txCursor := 0#32, txByte := 0#8,
      txDone := false, isrState := .idle, readTimeout := 0xFFFFFFFF#32, writeTimeout := 0xFFFFFFFF#32, errMask := 0#4,
      ie := 0#3, txEnabled := false, fatal := false, fatalCause := 0#4 }) ∧
  (State.reset.rx =
    { phase := .idle, op := 0#8, a0 := 0#32, a1 := 0#32, nwSnap := 0#32, rdN := 0#32, rdByte := 0#8, rdOvf := false,
      timer := { armed := false, count := 0#32 }, waitOk := false }) ∧
  (State.reset.tx =
    { phase := .idle, op := 0#8, a0 := 0#32, a1 := 0#32, imm := 0#16, i := 0#32, waitOk := false,
      timer := { armed := false, count := 0#32 } }) ∧
  (State.reset.isr =
    { phase := .idle, cause := 0#3, byte := 0#8, more := false, nw1 := 0#32, stored := false, full := false }) ∧
  (∀ k, readReg State.reset k = if k = 38 ∨ k = 39 then 0xFFFFFFFF#32 else 0#32) ∧
  (State.reset.per.rxFifo = [] ∧ State.reset.per.txFifo = [] ∧ State.reset.per.rxTrig = 1#8 ∧
    State.reset.per.txTrig = 1#8 ∧ State.reset.per.pmask = 0#3 ∧ State.reset.per.hwerr = 0#4 ∧
    State.reset.per.rxStale = false ∧ State.reset.per.lcr = 0#5 ∧ State.reset.per.div = 0#28 ∧
    State.reset.per.wire = []) ∧
  irq State.reset = false ∧
  (∀ s : State, runEvent .reset s = .next
    { s with
      regs := State.reset.regs, drv := State.reset.drv, rx := State.reset.rx, tx := State.reset.tx
      isr := State.reset.isr, buf := [], per := { s.per with pmask := 0#3 }
      pri := { s.pri with req := 0x30000000#32, rsp := 0#32 }
      env := { s.env with resetNo := s.env.resetNo + 1 } })

/-- The state after reset is good. -/
def Obligations.ResetIsGood : Prop := State.reset.Good

/-- The invariant of every run: R22, R26 to R32, R36, R37, R44, R76, R184, R213, R217, R221, R225, R300, R301, R312. These of its
clauses rest on the model's choices: `PortsGood.svIdle` on the reading of R113 for the ISR port (log 6); the clauses of `WakeGood`
under `run_to_completion` on when the sequencers are held (log 7); `MemoryGood` and `RingGood.written` on the form of the two
memories (log 4, log 5); `PeripheralGood.noPending` on the placed PRI request (log 10, log 21). -/
def Obligations.StepKeepsGood : Prop := ∀ s t : State, s.Good → step s = .next t → t.Good

/-- In a good state no step faults, and the only steps without a result are the host's breaches of contract: a command on a
busy port (U1), a transfer on a disabled direction (U3, U4), an access that is not one whole register (U9). -/
def Obligations.GoodStatesOnlyRefuseContractBreaks : Prop :=
  ∀ s : State, s.Good →
    (∃ t, step s = .next t) ∨
    (∃ off bytes v, nextEvent s = .hostWrite off bytes v ∧
      (step s = .refused .hrfAccess ∨ step s = .refused .portBusy ∨ step s = .refused .rxDisabled ∨
        step s = .refused .txDisabled)) ∨
    (∃ off bytes, nextEvent s = .hostRead off bytes ∧ step s = .refused .hrfAccess)

/-- R184 (1) (2), R132, R133: over every step the unread bytes are a queue. Only I4 appends, only ADV removes, at the other
end; enabling, disabling and reset empty it. -/
def Obligations.RingIsAQueue : Prop :=
  ∀ s t : State, s.Good → step s = .next t →
    ringContents t = ringContents s ∨
    (nextEvent s = .isrSeq ∧ s.isr.phase = .i4 ∧ ringContents t = ringContents s ++ [s.isr.byte]) ∨
    (nextEvent s = .rxSeq ∧ s.rx.phase = .adv ∧ 1 ≤ s.rx.rdN.toNat ∧
      ringContents t = (ringContents s).drop s.rx.rdN.toNat) ∨
    (((nextEvent s = .rxSeq ∧ (s.rx.phase = .en1 ∨ s.rx.phase = .dr3)) ∨ nextEvent s = .reset) ∧ ringContents t = [])

/-- R74, R144, R225 (1): what has gone to the line and what waits in the transmit FIFO only ever grow together, by one
payload byte at a time, and the byte is the next one of the payload of the command in flight; a step that sends nothing leaves
the count of bytes sent as it is while the command is in flight. -/
def Obligations.TransmitKeepsSubmissionOrder : Prop :=
  ∀ s t : State, s.Good → step s = .next t →
    (t.per.wire ++ t.per.txFifo = s.per.wire ++ s.per.txFifo ∧
      (txWriting s.tx.phase = true → txWriting t.tx.phase = true → pushed t = pushed s)) ∨
    (txWriting s.tx.phase = true ∧ pushed s < (payloadLen s (latchedForm s)).toNat ∧ pushed t = pushed s + 1 ∧
      t.per.wire ++ t.per.txFifo = s.per.wire ++ s.per.txFifo ++ [payloadAt s (latchedForm s) (pushed s)])

/-- R145: entering the fatal state, what it freezes, and what goes on: TICK and every step of LINE, as if the block ran. That
a step which is not taken answers the state as it is, is the model's reading (log 3), and so is the fatal state as a next state
(log 9). -/
def Obligations.FatalStopsTheBlock : Prop :=
  (∀ (s : State) (c : FatalName),
    raiseFatal s c = { s with drv := { s.drv with fatal := true, fatalCause := fatalCode c } }) ∧
  (∀ s : State, s.Good → s.drv.fatal = true → rxTurn s = .next s ∧ txTurn s = .next s ∧ isrTurn s = .next s) ∧
  (∀ (i : Instr) (p : Port) (s : State), s.drv.fatal = true → i.port = some p → exec i s = .next s) ∧
  (∀ s t : State, s.drv.fatal = true → nextEvent s ≠ .reset → step s = .next t →
    t.drv = s.drv ∧ t.isr = s.isr ∧ t.buf = s.buf ∧ t.rx.phase = s.rx.phase ∧ t.tx.phase = s.tx.phase ∧
    t.regs.rxRsp = s.regs.rxRsp ∧ t.regs.txRsp = s.regs.txRsp ∧ t.regs.svRsp = s.regs.svRsp ∧ t.regs.cfRsp = s.regs.cfRsp) ∧
  (∀ (e : Event) (s : State),
    e = .tick ∨ (∃ b, e = .lineRx b) ∨ e = .lineTx ∨ (∃ f, e = .lineErr f) ∨ e = .rxIdle →
    ∃ t, runEvent e s = .next t ∧
      runEvent e { s with drv := { s.drv with fatal := true } } = .next { t with drv := { t.drv with fatal := true } })

/-- R341, R183, R384: a run becomes fatal only at EN1 for one of its three reasons or at P6 on an empty buffer, and the
latter never under `run_to_completion`. -/
def Obligations.FatalHasItsCause : Prop :=
  ∀ s t : State, s.Good → s.drv.fatal = false → step s = .next t → t.drv.fatal = true →
    nextEvent s = .rxSeq ∧
    ((s.rx.phase = .en1 ∧ s.drv.rxEnabled = true ∧ t.drv.fatalCause = 1#4) ∨
      (s.rx.phase = .en1 ∧ s.drv.rxEnabled = false ∧ s.rx.a0.toNat < 2 ∧ t.drv.fatalCause = 2#4) ∨
      (s.rx.phase = .en1 ∧ s.drv.rxEnabled = false ∧ s.cfg.capMax < s.rx.a0.toNat ∧ t.drv.fatalCause = 4#4) ∨
      (s.rx.phase = .p6 ∧ s.drv.nextWrite = s.drv.nextRead ∧ s.cfg.isrPreempt = .interleaved ∧ t.drv.fatalCause = 3#4))

/-- R384: under `interleaved` the fatal cause 3 is reachable from a good state with nothing but the engine's wake and two
steps of the reader. -/
def Obligations.LateWakeUpIsReachable : Prop :=
  ∃ s t : State, s.Good ∧ s.cfg.isrPreempt = .interleaved ∧ s.drv.fatal = false ∧
    s.isr.phase = .i6 ∧ s.rx.phase = .p4l ∧ s.drv.rxWake = false ∧ s.env.inputs = [.isrSeq, .rxSeq, .rxSeq] ∧
    stepTimes 3 s = .next t ∧ t.drv.fatal = true ∧ t.drv.fatalCause = 3#4

/-- R22, R24 to R29, R44 (1) (2), R138, R267 (3), R348: who may change the hand-off fields, and in which step. -/
def Obligations.SharedStateHasItsWriters : Prop :=
  ∀ s t : State, s.Good → step s = .next t → nextEvent s ≠ .reset →
    (t.drv.nextWrite ≠ s.drv.nextWrite →
      (nextEvent s = .isrSeq ∧ s.isr.phase = .i4) ∨ (nextEvent s = .rxSeq ∧ (s.rx.phase = .en1 ∨ s.rx.phase = .dr3))) ∧
    (t.drv.nextRead ≠ s.drv.nextRead →
      nextEvent s = .rxSeq ∧ (s.rx.phase = .adv ∨ s.rx.phase = .en1 ∨ s.rx.phase = .dr3)) ∧
    (t.buf ≠ s.buf → nextEvent s = .isrSeq ∧ s.isr.phase = .i3) ∧
    (t.drv.isrState ≠ s.drv.isrState → nextEvent s = .isrSeq) ∧
    (s.drv.overflow = false → t.drv.overflow = true → nextEvent s = .isrSeq ∧ s.isr.phase = .i3f) ∧
    (s.drv.overflow = true → t.drv.overflow = false →
      nextEvent s = .rxSeq ∧ (s.rx.phase = .fin1 ∨ s.rx.phase = .en1 ∨ s.rx.phase = .dr3)) ∧
    (s.drv.rxWake = false → t.drv.rxWake = true → nextEvent s = .isrSeq ∧ s.isr.phase = .i6) ∧
    (s.drv.rxWake = true → t.drv.rxWake = false → nextEvent s = .rxSeq ∧ (s.rx.phase = .p2a ∨ s.rx.phase = .en1)) ∧
    (s.drv.txDone = false → t.drv.txDone = true → nextEvent s = .isrSeq ∧ s.isr.phase = .t1w) ∧
    (s.drv.txDone = true → t.drv.txDone = false → nextEvent s = .txSeq ∧ s.tx.phase = .w5) ∧
    (s.drv.rxWakeRequested = false → t.drv.rxWakeRequested = true → nextEvent s = .rxSeq ∧ s.rx.phase = .p2b) ∧
    (s.drv.rxWakeRequested = true → t.drv.rxWakeRequested = false →
      (nextEvent s = .isrSeq ∧ s.isr.phase = .i5) ∨
      (nextEvent s = .rxSeq ∧ (s.rx.phase = .p3c ∨ s.rx.phase = .p5 ∨ s.rx.phase = .en1 ∨ s.rx.phase = .dr3))) ∧
    (t.drv.txPending ≠ s.drv.txPending → nextEvent s = .txSeq ∧ (s.tx.phase = .w3 ∨ s.tx.phase = .w10)) ∧
    (t.drv.txCursor ≠ s.drv.txCursor →
      (nextEvent s = .isrSeq ∧ s.isr.phase = .t3) ∨
      (nextEvent s = .txSeq ∧ (s.tx.phase = .w3 ∨ s.tx.phase = .w10) ∧ hasTx s.drv.ie = false ∧ s.drv.isrState ≠ .inTx))

/-- R82, R225 (4), R383: while no write command is in flight, no step of any agent depends on host memory, but for what the
host itself reads there. -/
def Obligations.QuietTransmitterIgnoresHostMemory : Prop :=
  ∀ (s t : State) (m : Memory), s.Good → txWriting s.tx.phase = false → step s = .next t →
    ∃ u, step (s.setHostMem m) = .next u ∧ u.forgetMem = t.forgetMem

/-- R101, U2: a write to an operand register of a busy port changes that register and nothing of the command in flight. -/
def Obligations.OperandsAreLatched : Prop :=
  (∀ (s t : State) (k : Nat) (v : Word), k = 9 ∨ k = 10 → s.rx.phase ≠ .idle → rxTurn s = .next t →
    rxTurn (writeOperand s k v) = .next (writeOperand t k v)) ∧
  (∀ (s t : State) (k : Nat) (v : Word), k = 17 ∨ k = 18 → s.tx.phase ≠ .idle → txTurn s = .next t →
    txTurn (writeOperand s k v) = .next (writeOperand t k v))

end
end

