-- ==== Sys2Proof/Laws/State.lean ====
section
/-!
SUPPORT. One lemma per field per named update of the state, each true by `rfl`, so that no proof unfolds a record
update.
-/

namespace Sys2Proof.Machine

/-! ### `setRegs` -/

section
variable (s : State) (x y : HostRegs)
@[simp] theorem State.setRegs_cfg : (s.setRegs x).cfg = s.cfg := rfl
@[simp] theorem State.setRegs_regs : (s.setRegs x).regs = x := rfl
@[simp] theorem State.setRegs_drv : (s.setRegs x).drv = s.drv := rfl
@[simp] theorem State.setRegs_rx : (s.setRegs x).rx = s.rx := rfl
@[simp] theorem State.setRegs_tx : (s.setRegs x).tx = s.tx := rfl
@[simp] theorem State.setRegs_isr : (s.setRegs x).isr = s.isr := rfl
@[simp] theorem State.setRegs_buf : (s.setRegs x).buf = s.buf := rfl
@[simp] theorem State.setRegs_hostMem : (s.setRegs x).hostMem = s.hostMem := rfl
@[simp] theorem State.setRegs_per : (s.setRegs x).per = s.per := rfl
@[simp] theorem State.setRegs_pri : (s.setRegs x).pri = s.pri := rfl
@[simp] theorem State.setRegs_env : (s.setRegs x).env = s.env := rfl
@[simp] theorem State.setRegs_setRegs : (s.setRegs x).setRegs y = s.setRegs y := rfl
@[simp] theorem State.setRegs_self : s.setRegs s.regs = s := rfl
end

/-! ### `setDrv` -/

section
variable (s : State) (x y : Driver)
@[simp] theorem State.setDrv_cfg : (s.setDrv x).cfg = s.cfg := rfl
@[simp] theorem State.setDrv_regs : (s.setDrv x).regs = s.regs := rfl
@[simp] theorem State.setDrv_drv : (s.setDrv x).drv = x := rfl
@[simp] theorem State.setDrv_rx : (s.setDrv x).rx = s.rx := rfl
@[simp] theorem State.setDrv_tx : (s.setDrv x).tx = s.tx := rfl
@[simp] theorem State.setDrv_isr : (s.setDrv x).isr = s.isr := rfl
@[simp] theorem State.setDrv_buf : (s.setDrv x).buf = s.buf := rfl
@[simp] theorem State.setDrv_hostMem : (s.setDrv x).hostMem = s.hostMem := rfl
@[simp] theorem State.setDrv_per : (s.setDrv x).per = s.per := rfl
@[simp] theorem State.setDrv_pri : (s.setDrv x).pri = s.pri := rfl
@[simp] theorem State.setDrv_env : (s.setDrv x).env = s.env := rfl
@[simp] theorem State.setDrv_setDrv : (s.setDrv x).setDrv y = s.setDrv y := rfl
@[simp] theorem State.setDrv_self : s.setDrv s.drv = s := rfl
end

/-! ### `setRx` -/

section
variable (s : State) (x y : RxSeq)
@[simp] theorem State.setRx_cfg : (s.setRx x).cfg = s.cfg := rfl
@[simp] theorem State.setRx_regs : (s.setRx x).regs = s.regs := rfl
@[simp] theorem State.setRx_drv : (s.setRx x).drv = s.drv := rfl
@[simp] theorem State.setRx_rx : (s.setRx x).rx = x := rfl
@[simp] theorem State.setRx_tx : (s.setRx x).tx = s.tx := rfl
@[simp] theorem State.setRx_isr : (s.setRx x).isr = s.isr := rfl
@[simp] theorem State.setRx_buf : (s.setRx x).buf = s.buf := rfl
@[simp] theorem State.setRx_hostMem : (s.setRx x).hostMem = s.hostMem := rfl
@[simp] theorem State.setRx_per : (s.setRx x).per = s.per := rfl
@[simp] theorem State.setRx_pri : (s.setRx x).pri = s.pri := rfl
@[simp] theorem State.setRx_env : (s.setRx x).env = s.env := rfl
@[simp] theorem State.setRx_setRx : (s.setRx x).setRx y = s.setRx y := rfl
@[simp] theorem State.setRx_self : s.setRx s.rx = s := rfl
end

/-! ### `setTx` -/

section
variable (s : State) (x y : TxSeq)
@[simp] theorem State.setTx_cfg : (s.setTx x).cfg = s.cfg := rfl
@[simp] theorem State.setTx_regs : (s.setTx x).regs = s.regs := rfl
@[simp] theorem State.setTx_drv : (s.setTx x).drv = s.drv := rfl
@[simp] theorem State.setTx_rx : (s.setTx x).rx = s.rx := rfl
@[simp] theorem State.setTx_tx : (s.setTx x).tx = x := rfl
@[simp] theorem State.setTx_isr : (s.setTx x).isr = s.isr := rfl
@[simp] theorem State.setTx_buf : (s.setTx x).buf = s.buf := rfl
@[simp] theorem State.setTx_hostMem : (s.setTx x).hostMem = s.hostMem := rfl
@[simp] theorem State.setTx_per : (s.setTx x).per = s.per := rfl
@[simp] theorem State.setTx_pri : (s.setTx x).pri = s.pri := rfl
@[simp] theorem State.setTx_env : (s.setTx x).env = s.env := rfl
@[simp] theorem State.setTx_setTx : (s.setTx x).setTx y = s.setTx y := rfl
@[simp] theorem State.setTx_self : s.setTx s.tx = s := rfl
end

/-! ### `setIsr` -/

section
variable (s : State) (x y : IsrSeq)
@[simp] theorem State.setIsr_cfg : (s.setIsr x).cfg = s.cfg := rfl
@[simp] theorem State.setIsr_regs : (s.setIsr x).regs = s.regs := rfl
@[simp] theorem State.setIsr_drv : (s.setIsr x).drv = s.drv := rfl
@[simp] theorem State.setIsr_rx : (s.setIsr x).rx = s.rx := rfl
@[simp] theorem State.setIsr_tx : (s.setIsr x).tx = s.tx := rfl
@[simp] theorem State.setIsr_isr : (s.setIsr x).isr = x := rfl
@[simp] theorem State.setIsr_buf : (s.setIsr x).buf = s.buf := rfl
@[simp] theorem State.setIsr_hostMem : (s.setIsr x).hostMem = s.hostMem := rfl
@[simp] theorem State.setIsr_per : (s.setIsr x).per = s.per := rfl
@[simp] theorem State.setIsr_pri : (s.setIsr x).pri = s.pri := rfl
@[simp] theorem State.setIsr_env : (s.setIsr x).env = s.env := rfl
@[simp] theorem State.setIsr_setIsr : (s.setIsr x).setIsr y = s.setIsr y := rfl
@[simp] theorem State.setIsr_self : s.setIsr s.isr = s := rfl
end

/-! ### `setBuf` -/

section
variable (s : State) (x y : Memory)
@[simp] theorem State.setBuf_cfg : (s.setBuf x).cfg = s.cfg := rfl
@[simp] theorem State.setBuf_regs : (s.setBuf x).regs = s.regs := rfl
@[simp] theorem State.setBuf_drv : (s.setBuf x).drv = s.drv := rfl
@[simp] theorem State.setBuf_rx : (s.setBuf x).rx = s.rx := rfl
@[simp] theorem State.setBuf_tx : (s.setBuf x).tx = s.tx := rfl
@[simp] theorem State.setBuf_isr : (s.setBuf x).isr = s.isr := rfl
@[simp] theorem State.setBuf_buf : (s.setBuf x).buf = x := rfl
@[simp] theorem State.setBuf_hostMem : (s.setBuf x).hostMem = s.hostMem := rfl
@[simp] theorem State.setBuf_per : (s.setBuf x).per = s.per := rfl
@[simp] theorem State.setBuf_pri : (s.setBuf x).pri = s.pri := rfl
@[simp] theorem State.setBuf_env : (s.setBuf x).env = s.env := rfl
@[simp] theorem State.setBuf_setBuf : (s.setBuf x).setBuf y = s.setBuf y := rfl
@[simp] theorem State.setBuf_self : s.setBuf s.buf = s := rfl
end

/-! ### `setHostMem` -/

section
variable (s : State) (x y : Memory)
@[simp] theorem State.setHostMem_cfg : (s.setHostMem x).cfg = s.cfg := rfl
@[simp] theorem State.setHostMem_regs : (s.setHostMem x).regs = s.regs := rfl
@[simp] theorem State.setHostMem_drv : (s.setHostMem x).drv = s.drv := rfl
@[simp] theorem State.setHostMem_rx : (s.setHostMem x).rx = s.rx := rfl
@[simp] theorem State.setHostMem_tx : (s.setHostMem x).tx = s.tx := rfl
@[simp] theorem State.setHostMem_isr : (s.setHostMem x).isr = s.isr := rfl
@[simp] theorem State.setHostMem_buf : (s.setHostMem x).buf = s.buf := rfl
@[simp] theorem State.setHostMem_hostMem : (s.setHostMem x).hostMem = x := rfl
@[simp] theorem State.setHostMem_per : (s.setHostMem x).per = s.per := rfl
@[simp] theorem State.setHostMem_pri : (s.setHostMem x).pri = s.pri := rfl
@[simp] theorem State.setHostMem_env : (s.setHostMem x).env = s.env := rfl
@[simp] theorem State.setHostMem_setHostMem : (s.setHostMem x).setHostMem y = s.setHostMem y := rfl
@[simp] theorem State.setHostMem_self : s.setHostMem s.hostMem = s := rfl
end

/-! ### `setPer` -/

section
variable (s : State) (x y : Peripheral)
@[simp] theorem State.setPer_cfg : (s.setPer x).cfg = s.cfg := rfl
@[simp] theorem State.setPer_regs : (s.setPer x).regs = s.regs := rfl
@[simp] theorem State.setPer_drv : (s.setPer x).drv = s.drv := rfl
@[simp] theorem State.setPer_rx : (s.setPer x).rx = s.rx := rfl
@[simp] theorem State.setPer_tx : (s.setPer x).tx = s.tx := rfl
@[simp] theorem State.setPer_isr : (s.setPer x).isr = s.isr := rfl
@[simp] theorem State.setPer_buf : (s.setPer x).buf = s.buf := rfl
@[simp] theorem State.setPer_hostMem : (s.setPer x).hostMem = s.hostMem := rfl
@[simp] theorem State.setPer_per : (s.setPer x).per = x := rfl
@[simp] theorem State.setPer_pri : (s.setPer x).pri = s.pri := rfl
@[simp] theorem State.setPer_env : (s.setPer x).env = s.env := rfl
@[simp] theorem State.setPer_setPer : (s.setPer x).setPer y = s.setPer y := rfl
@[simp] theorem State.setPer_self : s.setPer s.per = s := rfl
end

/-! ### `setPri` -/

section
variable (s : State) (x y : PriBus)
@[simp] theorem State.setPri_cfg : (s.setPri x).cfg = s.cfg := rfl
@[simp] theorem State.setPri_regs : (s.setPri x).regs = s.regs := rfl
@[simp] theorem State.setPri_drv : (s.setPri x).drv = s.drv := rfl
@[simp] theorem State.setPri_rx : (s.setPri x).rx = s.rx := rfl
@[simp] theorem State.setPri_tx : (s.setPri x).tx = s.tx := rfl
@[simp] theorem State.setPri_isr : (s.setPri x).isr = s.isr := rfl
@[simp] theorem State.setPri_buf : (s.setPri x).buf = s.buf := rfl
@[simp] theorem State.setPri_hostMem : (s.setPri x).hostMem = s.hostMem := rfl
@[simp] theorem State.setPri_per : (s.setPri x).per = s.per := rfl
@[simp] theorem State.setPri_pri : (s.setPri x).pri = x := rfl
@[simp] theorem State.setPri_env : (s.setPri x).env = s.env := rfl
@[simp] theorem State.setPri_setPri : (s.setPri x).setPri y = s.setPri y := rfl
@[simp] theorem State.setPri_self : s.setPri s.pri = s := rfl
end

/-! ### `setEnv` -/

section
variable (s : State) (x y : Bench)
@[simp] theorem State.setEnv_cfg : (s.setEnv x).cfg = s.cfg := rfl
@[simp] theorem State.setEnv_regs : (s.setEnv x).regs = s.regs := rfl
@[simp] theorem State.setEnv_drv : (s.setEnv x).drv = s.drv := rfl
@[simp] theorem State.setEnv_rx : (s.setEnv x).rx = s.rx := rfl
@[simp] theorem State.setEnv_tx : (s.setEnv x).tx = s.tx := rfl
@[simp] theorem State.setEnv_isr : (s.setEnv x).isr = s.isr := rfl
@[simp] theorem State.setEnv_buf : (s.setEnv x).buf = s.buf := rfl
@[simp] theorem State.setEnv_hostMem : (s.setEnv x).hostMem = s.hostMem := rfl
@[simp] theorem State.setEnv_per : (s.setEnv x).per = s.per := rfl
@[simp] theorem State.setEnv_pri : (s.setEnv x).pri = s.pri := rfl
@[simp] theorem State.setEnv_env : (s.setEnv x).env = x := rfl
@[simp] theorem State.setEnv_setEnv : (s.setEnv x).setEnv y = s.setEnv y := rfl
@[simp] theorem State.setEnv_self : s.setEnv s.env = s := rfl
end

end Sys2Proof.Machine
end

