-- ==== Sys2Proof/Laws/Memory.lean ====
section
/-!
SUPPORT. Laws of the two byte memories: a read after a write, and that every operation keeps the canonical form.
-/

namespace Sys2Proof.Machine

/-! ### Reading a list after an update -/

@[simp] theorem Memory.get_put (m : Memory) (k : Nat) (v : Byte) (j : Nat) :
    Memory.get (Memory.put m k v) j = if k = j then some v else Memory.get m j := by
  induction m with
  | nil => simp [Memory.put, Memory.get]
  | cons c m ih =>
    obtain ⟨a, b⟩ := c
    simp only [Memory.put]
    split
    · simp [Memory.get]
    · split
      · simp only [Memory.get]; split <;> simp_all
      · simp only [Memory.get]; split
        · simp_all
        · exact ih

theorem Memory.risingFrom_mono {m : Memory} {a b : Nat} (h : a ≤ b) (hr : Memory.risingFrom b m = true) :
    Memory.risingFrom a m = true := by
  cases m with
  | nil => rfl
  | cons c m =>
    obtain ⟨x, y⟩ := c
    simp only [Memory.risingFrom, Bool.and_eq_true, decide_eq_true_eq] at *
    exact ⟨by omega, hr.2⟩

theorem Memory.get_below {m : Memory} {lo k : Nat} (hr : Memory.risingFrom lo m = true) (h : k < lo) :
    Memory.get m k = none := by
  induction m generalizing lo with
  | nil => rfl
  | cons c m ih =>
    obtain ⟨x, y⟩ := c
    simp only [Memory.risingFrom, Bool.and_eq_true, decide_eq_true_eq] at hr
    simp only [Memory.get]
    rw [if_neg (by omega)]
    exact ih hr.2 (by omega)

theorem Memory.get_erase {m : Memory} {lo : Nat} (hr : Memory.risingFrom lo m = true) (k j : Nat) :
    Memory.get (Memory.erase m k) j = if k = j then none else Memory.get m j := by
  induction m generalizing lo with
  | nil => simp [Memory.erase, Memory.get]
  | cons c m ih =>
    obtain ⟨x, y⟩ := c
    simp only [Memory.risingFrom, Bool.and_eq_true, decide_eq_true_eq] at hr
    simp only [Memory.erase]
    split
    · subst k
      by_cases hj : x = j
      · subst j; rw [if_pos rfl]; exact Memory.get_below hr.2 (by omega)
      · simp [Memory.get, hj]
    · simp only [Memory.get]
      split
      · subst j; simp [*, Ne.symm]
      · exact ih hr.2

/-! ### The canonical form -/

theorem Memory.risingFrom_put {m : Memory} {lo k : Nat} {v : Byte} (h : lo ≤ k) (hr : Memory.risingFrom lo m = true) :
    Memory.risingFrom lo (Memory.put m k v) = true := by
  induction m generalizing lo with
  | nil => simp [Memory.put, Memory.risingFrom, h]
  | cons c m ih =>
    obtain ⟨a, b⟩ := c
    simp [Memory.risingFrom] at hr
    simp only [Memory.put]
    split
    · simp [Memory.risingFrom, h, hr.2]; omega
    · split
      · subst k; simp [Memory.risingFrom, hr]
      · simp [Memory.risingFrom, hr.1]; exact ih (by omega) hr.2

theorem Memory.risingFrom_erase {m : Memory} {lo k : Nat} (hr : Memory.risingFrom lo m = true) :
    Memory.risingFrom lo (Memory.erase m k) = true := by
  induction m generalizing lo with
  | nil => simpa [Memory.erase] using hr
  | cons c m ih =>
    obtain ⟨a, b⟩ := c
    simp [Memory.risingFrom] at hr
    simp only [Memory.erase]
    split
    · exact Memory.risingFrom_mono (by omega) hr.2
    · simp [Memory.risingFrom, hr.1, ih hr.2]

theorem Memory.all_put {P : Host.Cell → Bool} {m : Memory} {k : Nat} {v : Byte} (h : P (k, v) = true)
    (hm : m.all P = true) : (Memory.put m k v).all P = true := by
  induction m with
  | nil => simp [Memory.put, h]
  | cons c m ih =>
    obtain ⟨a, b⟩ := c
    simp only [List.all_cons, Bool.and_eq_true] at hm
    simp only [Memory.put]
    split
    · simp only [List.all_cons, Bool.and_eq_true]; exact ⟨h, hm.1, hm.2⟩
    · split
      · simp only [List.all_cons, Bool.and_eq_true]; exact ⟨h, hm.2⟩
      · simp only [List.all_cons, Bool.and_eq_true]; exact ⟨hm.1, ih hm.2⟩

theorem Memory.all_erase {P : Host.Cell → Bool} {m : Memory} {k : Nat} (hm : m.all P = true) :
    (Memory.erase m k).all P = true := by
  induction m with
  | nil => simp [Memory.erase]
  | cons c m ih =>
    obtain ⟨a, b⟩ := c
    simp only [List.all_cons, Bool.and_eq_true] at hm
    simp only [Memory.erase]
    split
    · exact hm.2
    · simp only [List.all_cons, Bool.and_eq_true]; exact ⟨hm.1, ih hm.2⟩

/-- `MemWrite` keeps host memory canonical. -/
theorem memWrite_wf {s : State} (a : Word) (v : Byte) (h : Memory.wf s.hostMem = true) :
    Memory.wf (memWrite s a v).hostMem = true := by
  simp only [Memory.wf, Memory.below, Bool.and_eq_true] at *
  simp only [memWrite, State.setHostMem_hostMem]
  split
  · exact ⟨⟨Memory.risingFrom_erase h.1.1, Memory.all_erase h.1.2⟩, Memory.all_erase h.2⟩
  · refine ⟨⟨Memory.risingFrom_put (Nat.zero_le _) h.1.1, Memory.all_put (by simpa using a.isLt) h.1.2⟩,
      Memory.all_put (by simpa) h.2⟩

/-- `Buf[k] <- v` keeps the ring-buffer RAM canonical. -/
theorem bufPut_wf {c k : Nat} {m : Memory} {v : Byte} (hk : k < c) (h : Memory.bufWf c m = true) :
    Memory.bufWf c (Memory.put m k v) = true := by
  simp only [Memory.bufWf, Memory.below, Bool.and_eq_true] at *
  exact ⟨Memory.risingFrom_put (Nat.zero_le _) h.1, Memory.all_put (by simpa) h.2⟩

theorem reset_hostMem_wf : Memory.wf State.reset.hostMem = true := rfl
theorem reset_buf_wf : Memory.bufWf State.reset.cfg.capMax State.reset.buf = true := rfl

/-! ### A read after a write -/

/-- A byte of host memory after `MemWrite`: the one written, or as before. -/
theorem memRead_memWrite {s : State} (h : Memory.risingFrom 0 s.hostMem = true) (a x : Word) (v : Byte) :
    memRead (memWrite s a v) x = if x = a then v else memRead s x := by
  simp only [memRead, memWrite, State.setHostMem_hostMem]
  by_cases hx : x = a
  · subst x
    by_cases hv : v = unlistedByte
    · simp [hv, Memory.get_erase h]
    · simp [hv]
  · have hn : a.toNat ≠ x.toNat := fun e => hx (BitVec.eq_of_toNat_eq e).symm
    by_cases hv : v = unlistedByte
    · simp [hv, hx, hn, Memory.get_erase h]
    · simp [hv, hx, hn]

/-- Any slot of `Buf` after `Buf[k] <- v`. -/
theorem bufSlot_put (s : State) (k j : Nat) (v : Byte) :
    bufSlot (s.setBuf (Memory.put s.buf k v)) j = if j = k then v else bufSlot s j := by
  simp only [bufSlot, State.setBuf_buf, State.setBuf_env, Memory.get_put]
  by_cases hj : j = k
  · simp [hj]
  · simp [hj, Ne.symm hj]

end Sys2Proof.Machine
end

