-- ==== Sys2Proof/Laws/Ops.lean ====
section
/-!
SUPPORT. One lemma per shared operation that can refuse, saying once everything it can do; the gates of R9 and R145; what
COPY's loop can change.
-/

namespace Sys2Proof.Machine

/-- `priLoad` answers exactly on a FIFO that holds a byte (R300). -/
theorem priLoad_cases {s t : State} {b : Byte} {more : Bool} (h : priLoad s = some (t, b, more)) :
    ∃ rest, s.per.rxFifo = b :: rest ∧ more = !rest.isEmpty ∧
      t = priExchange (s.setPer { s.per with rxFifo := rest, rxStale := s.per.rxStale && more }) .priLoad (loadRsp b more) := by
  unfold priLoad at h
  split at h
  · cases h
  · rename_i b' rest hr
    simp only [Option.some.injEq, Prod.mk.injEq] at h
    obtain ⟨rfl, rfl, rfl⟩ := h
    exact ⟨rest, hr, rfl, rfl⟩

/-- `priStore` answers exactly on a FIFO with room (R301). -/
theorem priStore_cases {s t : State} {b : Byte} (h : priStore s b = some t) :
    s.per.txFifo.length < s.cfg.txDepth ∧
      t = priExchange (s.setPer { s.per with txFifo := s.per.txFifo ++ [b] }) (.priStore b) 0#32 := by
  unfold priStore at h
  split at h
  · exact ⟨by assumption, (Option.some.inj h).symm⟩
  · cases h

/-- `priSetRxTrig` answers exactly on a legal level (R305). -/
theorem priSetRxTrig_cases {s t : State} {n : BitVec 8} (h : priSetRxTrig s n = some t) :
    rxLevelOk s.cfg n = true ∧ t = priExchange (s.setPer { s.per with rxTrig := n }) (.priSetRxTrig n) 0#32 := by
  unfold priSetRxTrig at h
  split at h
  · exact ⟨by assumption, (Option.some.inj h).symm⟩
  · cases h

/-- `priSetTxTrig` answers exactly on a legal level (R306). -/
theorem priSetTxTrig_cases {s t : State} {n : BitVec 8} (h : priSetTxTrig s n = some t) :
    txLevelOk s.cfg n = true ∧ t = priExchange (s.setPer { s.per with txTrig := n }) (.priSetTxTrig n) 0#32 := by
  unfold priSetTxTrig at h
  split at h
  · exact ⟨by assumption, (Option.some.inj h).symm⟩
  · cases h

/-- `bufPut` answers exactly on a slot of the RAM (R72). -/
theorem bufPut_cases {s t : State} {i : Nat} {v : Byte} (h : bufPut s i v = some t) :
    i < s.cfg.capMax ∧ t = s.setBuf (Memory.put s.buf i v) := by
  unfold bufPut at h
  split at h
  · exact ⟨by assumption, (Option.some.inj h).symm⟩
  · cases h

/-- A gated step either is not taken, and nothing changes, or is taken as it stands. -/
theorem appStep_ready {s : State} (k : Result) (h : s.appReady = true) : appStep s k = k := by
  unfold State.appReady at h
  unfold appStep
  rw [if_neg]
  simp_all

theorem appStep_held {s : State} (k : Result) (h : s.appReady = false) : appStep s k = .next s := by
  unfold State.appReady at h
  unfold appStep
  rw [if_pos]
  simpa [imp_iff_not_or, or_comm] using h

theorem liveStep_ready {s : State} (k : Result) (h : s.drv.fatal = false) : liveStep s k = k := by simp [liveStep, h]

theorem liveStep_held {s : State} (k : Result) (h : s.drv.fatal = true) : liveStep s k = .next s := by simp [liveStep, h]

/-- On an idle port a command's step is its issue, which only the fatal state stops; on a busy one it is its sequencer's. -/
theorem rxStep_idle {s : State} (issue work : Result) (h : s.rx.phase = .idle) : rxStep s issue work = liveStep s issue :=
  if_pos h

theorem rxStep_busy {s : State} (issue work : Result) (h : s.rx.phase ≠ .idle) : rxStep s issue work = appStep s work :=
  if_neg h

theorem txStep_idle {s : State} (issue work : Result) (h : s.tx.phase = .idle) : txStep s issue work = liveStep s issue :=
  if_pos h

theorem txStep_busy {s : State} (issue work : Result) (h : s.tx.phase ≠ .idle) : txStep s issue work = appStep s work :=
  if_neg h

/-! ### The schedule -/

/-- Taking an event changes the schedule alone. -/
theorem takeEvent_cases (s : State) :
    ∃ inputs eventNo, takeEvent s = s.setEnv { s.env with inputs := inputs, eventNo := eventNo } := by
  unfold takeEvent
  split
  · exact ⟨_, s.env.eventNo, rfl⟩
  · exact ⟨s.env.inputs, _, rfl⟩

/-- Nothing is held but a CFG issue while an interrupt service holds CFGSEQ (R9). -/
theorem heldEvent_of_free {s : State} (h : isrHolds s = false) (e : Event) : heldEvent s e = false := by
  cases e <;> simp [heldEvent, cfgHeld, h]

/-- A held event is the write of a legal CFG command. -/
theorem heldEvent_cases {s : State} {e : Event} (h : heldEvent s e = true) :
    ∃ w, e = .hostWrite (cmdOffset .cfg) 4 w ∧ isrHolds s = true ∧ s.drv.fatal = false ∧ (decodeCmd .cfg w).isSome = true := by
  cases e <;> simp_all [heldEvent, cfgHeld, wholeReg]

/-- The event at the head of the list is the next one unless it is held. -/
theorem nextEvent_head {s : State} {e : Event} {rest : List Event} (hi : s.env.inputs = e :: rest)
    (h : heldEvent s e = false) : nextEvent s = e := by
  simp [nextEvent, mayTake, hi, h]

theorem takeEvent_head {s : State} {e : Event} {rest : List Event} (hi : s.env.inputs = e :: rest)
    (h : heldEvent s e = false) : takeEvent s = s.setEnv { s.env with inputs := rest } := by
  simp [takeEvent, mayTake, hi, h]

/-- Past the end of the list the free schedule chooses. -/
theorem nextEvent_free {s : State} (hi : s.env.inputs = []) : nextEvent s = Config.schedule s.env.eventNo := by
  simp [nextEvent, hi]

/-- While the host waits, the event taken from the list is no access of its own. -/
theorem mayTake_held {s : State} {e : Event} {rest : List Event} (hi : s.env.inputs = e :: rest)
    (h : heldEvent s e = true) (f : Event) : mayTake s f = !hostAccess f := by
  simp [mayTake, hi, h]

/-- COPY's loop changes host memory alone, and keeps it canonical (R180). -/
theorem copyBytes_frame (n k : Nat) (s t : State) (h : copyBytes n k s = some t) :
    ∃ m, t = s.setHostMem m ∧ (Memory.wf s.hostMem = true → Memory.wf m = true) := by
  induction n generalizing k s with
  | zero =>
    simp only [copyBytes, Option.some.injEq] at h
    subst h
    exact ⟨s.hostMem, rfl, id⟩
  | succ n ih =>
    simp only [copyBytes] at h
    split at h
    · obtain ⟨m, rfl, hm⟩ := ih _ _ h
      exact ⟨m, by simp [memWrite], fun hw => hm (memWrite_wf _ _ hw)⟩
    · cases h

/-- COPY's loop answers whenever the slots it reads are inside the RAM. -/
theorem copyBytes_isSome (n k : Nat) (s : State) (h : ∀ j, slotAt s.drv.cap s.drv.nextRead j < s.cfg.capMax) :
    (copyBytes n k s).isSome = true := by
  induction n generalizing k s with
  | zero => rfl
  | succ n ih =>
    simp only [copyBytes, bufGet, if_pos (h k)]
    exact ih _ _ (by simpa [memWrite] using h)

end Sys2Proof.Machine
end

