-- ==== Sys2Proof/Laws/PerInstr.lean ====
section
/-!
SUPPORT. The family `RowMatch` of statements made per instruction: the encoding of an instruction hits its own row of the
opcode table, and its port is the one its opcode names.
-/

namespace Sys2Proof.Laws.RowMatch

open Sys2Proof.Machine

/-- The encoded word under the row's mask is the row's match value (R102, R111), and `OPC[7:4]` is the port's number for a host
command (R100). -/
def Statement (i : Instr) : Prop :=
  encode i &&& rowMask i = rowMatch i ∧ ∀ p, i.port = some p → wordPort (encode i) = p

theorem configure (lcrf : BitVec 5) : Statement (.configure lcrf) := by
  refine ⟨by revert lcrf; decide, fun p h => ?_⟩
  cases h
  revert lcrf; decide
theorem setReadTimeout : Statement .setReadTimeout := by refine ⟨by decide, fun p h => ?_⟩; cases h; decide
theorem setWriteTimeout : Statement .setWriteTimeout := by refine ⟨by decide, fun p h => ?_⟩; cases h; decide
theorem status : Statement .status := by refine ⟨by decide, fun p h => ?_⟩; cases h; decide
theorem len : Statement .len := by refine ⟨by decide, fun p h => ?_⟩; cases h; decide
theorem enableRx : Statement .enableRx := by refine ⟨by decide, fun p h => ?_⟩; cases h; decide
theorem disableRx : Statement .disableRx := by refine ⟨by decide, fun p h => ?_⟩; cases h; decide
theorem read : Statement .read := by refine ⟨by decide, fun p h => ?_⟩; cases h; decide
theorem readByte : Statement .readByte := by refine ⟨by decide, fun p h => ?_⟩; cases h; decide
theorem enableTx : Statement .enableTx := by refine ⟨by decide, fun p h => ?_⟩; cases h; decide
theorem disableTx : Statement .disableTx := by refine ⟨by decide, fun p h => ?_⟩; cases h; decide
theorem write : Statement .write := by refine ⟨by decide, fun p h => ?_⟩; cases h; decide
theorem writeString : Statement .writeString := by refine ⟨by decide, fun p h => ?_⟩; cases h; decide
theorem writeByte (b : Byte) : Statement (.writeByte b) := by
  refine ⟨by revert b; decide, fun p h => ?_⟩
  cases h
  revert b; decide
theorem flush : Statement .flush := by refine ⟨by decide, fun p h => ?_⟩; cases h; decide
theorem serviceInterrupt : Statement .serviceInterrupt := by refine ⟨by decide, fun p h => ?_⟩; cases h; decide
theorem priLoad : Statement .priLoad := ⟨by decide, fun _ h => nomatch h⟩
theorem priStore (b : Byte) : Statement (.priStore b) := ⟨by revert b; decide, fun _ h => nomatch h⟩
theorem priStatus : Statement .priStatus := ⟨by decide, fun _ h => nomatch h⟩
theorem priSetIe (mask : BitVec 3) : Statement (.priSetIe mask) := ⟨by revert mask; decide, fun _ h => nomatch h⟩
theorem priIntSource : Statement .priIntSource := ⟨by decide, fun _ h => nomatch h⟩
theorem priSetRxTrig (n : BitVec 8) : Statement (.priSetRxTrig n) := ⟨by revert n; decide, fun _ h => nomatch h⟩
theorem priSetTxTrig (n : BitVec 8) : Statement (.priSetTxTrig n) := ⟨by revert n; decide, fun _ h => nomatch h⟩
theorem priSetBaudDiv (n : BitVec 28) : Statement (.priSetBaudDiv n) := by
  refine ⟨?_, fun _ h => nomatch h⟩
  apply BitVec.eq_of_getLsbD_eq
  intro j hj
  simp only [encode, formatP, rowMask, rowMatch, BitVec.getLsbD_and, BitVec.getLsbD_append]
  by_cases h : j < 28
  · interval_cases j <;> simp
  · interval_cases j <;> simp_all
theorem priCfgWordFormat (lcrf : BitVec 5) : Statement (.priCfgWordFormat lcrf) :=
  ⟨by revert lcrf; decide, fun _ h => nomatch h⟩

end Sys2Proof.Laws.RowMatch
end

