-- ==== Sys2Proof/Laws/Ring.lean ====
section
/-!
SUPPORT. Laws of the ring arithmetic (R130, R131, R133): one spec lemma per operation, in natural numbers.
-/

namespace Sys2Proof.Machine

variable {cap nr nw : Word} {n k : Nat}

theorem idxNext_toNat (b : nw.toNat < cap.toNat) :
    (idxNext cap nw).toNat = if nw.toNat + 1 = cap.toNat then 0 else nw.toNat + 1 := by
  unfold idxNext
  have := cap.isLt
  split <;> simp_all [BitVec.toNat_add]
  omega

theorem idxAdd_toNat (a : nr.toNat < cap.toNat) (hn : n < cap.toNat) :
    (idxAdd cap nr n).toNat = if nr.toNat + n < cap.toNat then nr.toNat + n else nr.toNat + n - cap.toNat := by
  unfold idxAdd
  have := cap.isLt
  split <;> simp [BitVec.toNat_ofNat] <;> omega

theorem ringLen_lt (h : 2 ≤ cap.toNat) (a : nr.toNat < cap.toNat) (b : nw.toNat < cap.toNat) :
    ringLen cap nr nw < cap.toNat := by
  unfold ringLen
  split <;> (try split) <;> omega

@[simp] theorem ringLen_self (cap i : Word) : ringLen cap i i = 0 := by simp [ringLen]

theorem ringLen_pos (h : 2 ≤ cap.toNat) (a : nr.toNat < cap.toNat) (hne : nw ≠ nr) :
    1 ≤ ringLen cap nr nw := by
  have : nw.toNat ≠ nr.toNat := fun e => hne (BitVec.eq_of_toNat_eq e)
  unfold ringLen
  split <;> (try split) <;> omega

/-- Publishing one byte makes the ring one longer. -/
theorem ringLen_idxNext (h : 2 ≤ cap.toNat) (a : nr.toNat < cap.toNat) (b : nw.toNat < cap.toNat)
    (hne : idxNext cap nw ≠ nr) : ringLen cap nr (idxNext cap nw) = ringLen cap nr nw + 1 := by
  have h1 : (idxNext cap nw).toNat ≠ nr.toNat := fun e => hne (BitVec.eq_of_toNat_eq e)
  rw [idxNext_toNat b] at h1
  unfold ringLen
  rw [idxNext_toNat b]
  split at h1 <;> (repeat' split) <;> omega

/-- Advancing `next_read` by `n` makes the ring `n` shorter. -/
theorem ringLen_idxAdd (h : 2 ≤ cap.toNat) (a : nr.toNat < cap.toNat) (b : nw.toNat < cap.toNat)
    (hn : n ≤ ringLen cap nr nw) : ringLen cap (idxAdd cap nr n) nw = ringLen cap nr nw - n := by
  have hl := ringLen_lt h a b
  unfold ringLen at *
  rw [idxAdd_toNat a (by omega)]
  (repeat' split at hn) <;> (repeat' split) <;> simp_all <;> omega

theorem slotAt_idxAdd (a : nr.toNat < cap.toNat) (hn : n < cap.toNat) :
    slotAt cap (idxAdd cap nr n) k = slotAt cap nr (n + k) := by
  unfold slotAt
  rw [idxAdd_toNat a hn]
  split
  · congr 1; omega
  · have : nr.toNat + (n + k) = (nr.toNat + n - cap.toNat + k) + cap.toNat := by omega
    rw [this, Nat.add_mod_right]

/-- The slot after the last unread byte is the one at `next_write`. -/
theorem slotAt_ringLen (h : 2 ≤ cap.toNat) (a : nr.toNat < cap.toNat) (b : nw.toNat < cap.toNat) :
    slotAt cap nr (ringLen cap nr nw) = nw.toNat := by
  unfold slotAt ringLen
  rw [if_neg (by omega)]
  split
  · rw [Nat.mod_eq_of_lt] <;> omega
  · have : nr.toNat + (cap.toNat + nw.toNat - nr.toNat) = nw.toNat + cap.toNat := by omega
    rw [this, Nat.add_mod_right, Nat.mod_eq_of_lt b]

theorem slotAt_lt (k : Nat) (h : 2 ≤ cap.toNat) : slotAt cap nr k < cap.toNat := Nat.mod_lt _ (by omega)

/-- `TXSEL` stays between 1 and the top of the mux (R141). -/
theorem txSel_range {top : Nat} (rem : Nat) (h : 1 ≤ top) : 1 ≤ txSel top rem ∧ txSel top rem ≤ top := by
  unfold txSel
  (repeat' split) <;> omega

end Sys2Proof.Machine
end

