-- ==== Sys2Proof/Laws/Words.lean ====
section
/-!
SUPPORT. Laws of words: the interrupt-source masks as three booleans, the response words, the words of the PRI requests,
and the command a sequencer reads back from its latches.
-/

namespace Sys2Proof.Machine

/-! ### Source masks (R109) -/

section
variable (m n : BitVec 3) (a b c : Bool) (p : Config.Params)
@[simp] theorem hasRx_or : hasRx (m ||| n) = (hasRx m || hasRx n) := by simp [hasRx]
@[simp] theorem hasTx_or : hasTx (m ||| n) = (hasTx m || hasTx n) := by simp [hasTx]
@[simp] theorem hasSt_or : hasSt (m ||| n) = (hasSt m || hasSt n) := by simp [hasSt]
@[simp] theorem hasRx_and : hasRx (m &&& n) = (hasRx m && hasRx n) := by simp [hasRx]
@[simp] theorem hasTx_and : hasTx (m &&& n) = (hasTx m && hasTx n) := by simp [hasTx]
@[simp] theorem hasSt_and : hasSt (m &&& n) = (hasSt m && hasSt n) := by simp [hasSt]
@[simp] theorem hasRx_not : hasRx (~~~m) = !hasRx m := by simp [hasRx]
@[simp] theorem hasTx_not : hasTx (~~~m) = !hasTx m := by simp [hasTx]
@[simp] theorem hasSt_not : hasSt (~~~m) = !hasSt m := by simp [hasSt]
@[simp] theorem hasRx_srcRx : hasRx srcRx = true := rfl
@[simp] theorem hasRx_srcTx : hasRx srcTx = false := rfl
@[simp] theorem hasRx_srcSt : hasRx srcSt = false := rfl
@[simp] theorem hasTx_srcRx : hasTx srcRx = false := rfl
@[simp] theorem hasTx_srcTx : hasTx srcTx = true := rfl
@[simp] theorem hasTx_srcSt : hasTx srcSt = false := rfl
@[simp] theorem hasSt_srcRx : hasSt srcRx = false := rfl
@[simp] theorem hasSt_srcTx : hasSt srcTx = false := rfl
@[simp] theorem hasSt_srcSt : hasSt srcSt = true := rfl
@[simp] theorem hasRx_zero : hasRx 0#3 = false := rfl
@[simp] theorem hasTx_zero : hasTx 0#3 = false := rfl
@[simp] theorem hasSt_zero : hasSt 0#3 = false := rfl
@[simp] theorem hasRx_srcMask : hasRx (srcMask a b c) = a := by cases a <;> cases b <;> cases c <;> rfl
@[simp] theorem hasTx_srcMask : hasTx (srcMask a b c) = b := by cases a <;> cases b <;> cases c <;> rfl
@[simp] theorem hasSt_srcMask : hasSt (srcMask a b c) = c := by cases a <;> cases b <;> cases c <;> rfl
@[simp] theorem hasRx_rxSources : hasRx (rxSources p) = true := by unfold rxSources; split <;> rfl
@[simp] theorem hasTx_rxSources : hasTx (rxSources p) = false := by unfold rxSources; split <;> rfl
@[simp] theorem hasSt_rxSources : hasSt (rxSources p) = p.hasLineStatus := by unfold rxSources; split <;> simp_all
end

/-! ### Response words (R36) -/

@[simp] theorem busyBit_rspWord (e h : BitVec 4) (b : Byte) : busyBit (rspWord e h b) = false := by
  unfold busyBit rspWord
  rw [BitVec.getLsbD_append, BitVec.getLsbD_append, BitVec.getLsbD_append]
  simp

@[simp] theorem topBits_rspWord (e h : BitVec 4) (b : Byte) : (rspWord e h b).extractLsb' 17 15 = 0#15 := by
  unfold rspWord
  apply BitVec.eq_of_getLsbD_eq
  intro i _
  have h1 : ¬ 17 + i < 4 := by omega
  have h2 : ¬ 17 + i - 4 < 4 := by omega
  have h3 : ¬ 17 + i - 4 - 4 < 8 := by omega
  rw [BitVec.getLsbD_extractLsb', BitVec.getLsbD_append, BitVec.getLsbD_append, BitVec.getLsbD_append]
  simp [h1, h2, h3]

@[simp] theorem busyBit_busyWord : busyBit busyWord = true := rfl
@[simp] theorem topBits_busyWord : busyWord.extractLsb' 17 15 = 0#15 := rfl
@[simp] theorem busyWord_cleared : busyWord &&& ~~~busyWord = 0#32 := rfl
@[simp] theorem zero_cleared : 0#32 &&& ~~~busyWord = 0#32 := rfl
@[simp] theorem rspWord_ok : rspWord 0#4 0#4 0#8 = 0#32 := rfl
@[simp] theorem rspWord_timeout : rspWord 1#4 0#4 0#8 = 1#32 := rfl
@[simp] theorem rspWord_illegal : rspWord 15#4 0#4 0#8 = 15#32 := rfl

/-! ### Words of the PRI requests (R111) -/

section
variable (b : Byte) (m : BitVec 3) (n : BitVec 28) (f : BitVec 5)
@[simp] theorem encode_priLoad : encode .priLoad = 0#32 := rfl
@[simp] theorem encode_priStatus : encode .priStatus = 0x20000000#32 := rfl
@[simp] theorem encode_priIntSource : encode .priIntSource = 0x40000000#32 := rfl
theorem encode_priSetIe : encode (.priSetIe m) = 0x3#4 ++ m.setWidth 28 := rfl
theorem encode_priSetBaudDiv : encode (.priSetBaudDiv n) = 0x7#4 ++ n := rfl
theorem encode_priCfgWordFormat : encode (.priCfgWordFormat f) = 0x8#4 ++ f.setWidth 28 := rfl
theorem encode_priStore : encode (.priStore b) = 0x10#8 ++ 0#16 ++ b := by revert b; decide
theorem encode_priSetRxTrig : encode (.priSetRxTrig b) = 0x50#8 ++ 0#16 ++ b := by revert b; decide
theorem encode_priSetTxTrig : encode (.priSetTxTrig b) = 0x60#8 ++ 0#16 ++ b := by revert b; decide
end

/-! ### A sequencer reads back the command it has latched (R101) -/

@[simp] theorem latch_enableRx : decodeCmd .rx (formatH (opcField (encode .enableRx)) 0#16) = some .enableRx := by decide
@[simp] theorem latch_disableRx : decodeCmd .rx (formatH (opcField (encode .disableRx)) 0#16) = some .disableRx := by decide
@[simp] theorem latch_read : decodeCmd .rx (formatH (opcField (encode .read)) 0#16) = some .read := by decide
@[simp] theorem latch_readByte : decodeCmd .rx (formatH (opcField (encode .readByte)) 0#16) = some .readByte := by decide
@[simp] theorem latch_enableTx :
    decodeCmd .tx (formatH (opcField (encode .enableTx)) (immField (encode .enableTx))) = some .enableTx := by decide
@[simp] theorem latch_disableTx :
    decodeCmd .tx (formatH (opcField (encode .disableTx)) (immField (encode .disableTx))) = some .disableTx := by decide
@[simp] theorem latch_write :
    decodeCmd .tx (formatH (opcField (encode .write)) (immField (encode .write))) = some .write := by decide
@[simp] theorem latch_writeString :
    decodeCmd .tx (formatH (opcField (encode .writeString)) (immField (encode .writeString))) = some .writeString := by decide
@[simp] theorem latch_flush :
    decodeCmd .tx (formatH (opcField (encode .flush)) (immField (encode .flush))) = some .flush := by decide
@[simp] theorem latch_writeByte (b : Byte) :
    decodeCmd .tx (formatH (opcField (encode (.writeByte b))) (immField (encode (.writeByte b)))) = some (.writeByte b) := by
  revert b; decide

end Sys2Proof.Machine
end

