-- ==== Sys2Proof/Tests/Slice0.lean ====
section
/-!
SUPPORT. The model's own tests: what WellFormed refuses; the decoding of one written-out word per instruction; one or two small
theorems per instruction with expected results from the spec's vectors (95_test_vectors.md) and worked examples; and for every
obligation with hypotheses a witness, at the boundary of each clause.
-/

namespace Sys2Proof.Tests

open Sys2Proof.Machine

/-! ### WellFormed: each check refuses an ill-formed term -/

theorem test_wf_rx_level_zero : (Instr.priSetRxTrig 0#8).wellFormed Config.Params.ref = false := by decide
theorem test_wf_rx_level_above : (Instr.priSetRxTrig 9#8).wellFormed Config.Params.ref = false := by decide
theorem test_wf_rx_level_top : (Instr.priSetRxTrig 8#8).wellFormed Config.Params.ref = true := by decide
theorem test_wf_tx_level_zero : (Instr.priSetTxTrig 0#8).wellFormed Config.Params.ref = false := by decide
theorem test_wf_tx_level_above : (Instr.priSetTxTrig 9#8).wellFormed Config.Params.ref = false := by decide
theorem test_wf_tx_level_top : (Instr.priSetTxTrig 8#8).wellFormed Config.Params.ref = true := by decide
theorem test_ref_ok : Config.Params.ref.ok = true := by decide
theorem test_cfg_capacity_refused : ({ Config.Params.ref with capMax := 1 }).ok = false := by decide

/-! ### Decoding: words written out bit by bit from R100, R102, R104 and R111 -/

-- E2: WLS 2, STB 1, PEN 1, EPS 1 in IMM16[4:0]
theorem test_decode_configure : decodeCmd .cfg 0b00000000000111100000000000000001#32 = some (.configure 0b11110#5) := by decide
theorem test_decode_setReadTimeout : decodeCmd .cfg 0b00000000000000000000000000000010#32 = some .setReadTimeout := by decide
theorem test_decode_setWriteTimeout : decodeCmd .cfg 0b00000000000000000000000000000011#32 = some .setWriteTimeout := by decide
theorem test_decode_status : decodeCmd .cfg 0b00000000000000000000000000000100#32 = some .status := by decide
theorem test_decode_len : decodeCmd .cfg 0b00000000000000000000000000000101#32 = some .len := by decide
theorem test_decode_enableRx : decodeCmd .rx 0b00000000000000000000000000010000#32 = some .enableRx := by decide
theorem test_decode_disableRx : decodeCmd .rx 0b00000000000000000000000000010001#32 = some .disableRx := by decide
theorem test_decode_read : decodeCmd .rx 0b00000000000000000000000000010010#32 = some .read := by decide
theorem test_decode_readByte : decodeCmd .rx 0b00000000000000000000000000010011#32 = some .readByte := by decide
theorem test_decode_enableTx : decodeCmd .tx 0b00000000000000000000000000100000#32 = some .enableTx := by decide
theorem test_decode_disableTx : decodeCmd .tx 0b00000000000000000000000000100001#32 = some .disableTx := by decide
theorem test_decode_write : decodeCmd .tx 0b00000000000000000000000000100010#32 = some .write := by decide
theorem test_decode_writeString : decodeCmd .tx 0b00000000000000000000000000100011#32 = some .writeString := by decide
-- E6: WRITE_BYTE 0x41
theorem test_decode_writeByte : decodeCmd .tx 0b00000000010000010000000000100100#32 = some (.writeByte 0x41#8) := by decide
theorem test_decode_flush : decodeCmd .tx 0b00000000000000000000000000100101#32 = some .flush := by decide
theorem test_decode_serviceInterrupt : decodeCmd .isr 0b00000000000000000000000000110000#32 = some .serviceInterrupt := by
  decide
theorem test_decode_priLoad : decodePri 0b00000000000000000000000000000000#32 = some .priLoad := by decide
-- E10: store(0x41), set_interrupt_enable(0b101), the trigger levels
theorem test_decode_priStore : decodePri 0b00010000000000000000000001000001#32 = some (.priStore 0x41#8) := by decide
theorem test_decode_priStatus : decodePri 0b00100000000000000000000000000000#32 = some .priStatus := by decide
theorem test_decode_priSetIe : decodePri 0b00110000000000000000000000000101#32 = some (.priSetIe 0b101#3) := by decide
theorem test_decode_priIntSource : decodePri 0b01000000000000000000000000000000#32 = some .priIntSource := by decide
theorem test_decode_priSetRxTrig : decodePri 0b01010000000000000000000000000001#32 = some (.priSetRxTrig 1#8) := by decide
theorem test_decode_priSetTxTrig : decodePri 0b01100000000000000000000000000100#32 = some (.priSetTxTrig 4#8) := by decide
theorem test_decode_priSetBaudDiv : decodePri 0b01111000000000000000000000000011#32 = some (.priSetBaudDiv 0x8000003#28) := by
  decide
theorem test_decode_priCfgWordFormat : decodePri 0b10000000000000000000000000010011#32 = some (.priCfgWordFormat 0b10011#5) := by
  decide

-- E3, E4, E5, E7: words R113 calls illegal; REQ 9 is no request (R111)
theorem test_decode_illegal_imm : decodeCmd .cfg 0x00200001#32 = none := by decide
theorem test_decode_illegal_port : decodeCmd .cfg 0x00000012#32 = none := by decide
theorem test_decode_illegal_z : decodeCmd .rx 0x00000112#32 = none := by decide
theorem test_decode_illegal_byte : decodeCmd .tx 0x01410024#32 = none := by decide
theorem test_decode_no_request : decodePri 0x90000000#32 = none := by decide
theorem test_decode_table_word : decodeTableWord 32 0x410024 = some (.writeByte 0x41#8) := by decide

/-! ### Small states -/

/-- The next state, where there is one. -/
def nextOf : Result → Option State
  | .next t => some t
  | .fault _ => none
  | .refused _ => none

theorem next_of_isSome {r : Result} (h : (nextOf r).isSome = true) : ∃ t, r = .next t := by
  cases r with
  | next t => exact ⟨t, rfl⟩
  | fault r => cases h
  | refused r => cases h

/-- The ring of R172's and R180's examples: `cap` 8, `next_read` 6, `next_write` 2, `Buf[6,7,0,1]` = 61 62 63 64; receive
enabled and its sources on. -/
def ringState : State :=
  { State.reset with
    drv := { Driver.reset with cap := 8#32, rxEnabled := true, nextRead := 6#32, nextWrite := 2#32, ie := 5#3 }
    buf := [(0, 0x63#8), (1, 0x64#8), (6, 0x61#8), (7, 0x62#8)]
    per := { Peripheral.powerUp with pmask := 5#3 } }

/-- The same with an empty ring. -/
def emptyRing : State := ringState.setDrv { ringState.drv with nextWrite := 6#32 }

/-- RXSEQ at a label of the command with opcode `op`. -/
def rxAt (s : State) (op : BitVec 8) (p : RxPhase) : State :=
  (s.setRx { s.rx with op := op, phase := p }).setRegs { s.regs with rxRsp := busyWord }

/-- TXSEQ at a label of the command with opcode `op`, transmit enabled. -/
def txAt (s : State) (op : BitVec 8) (p : TxPhase) : State :=
  ((s.setTx { s.tx with op := op, phase := p }).setRegs { s.regs with txRsp := busyWord }).setDrv
    { s.drv with txEnabled := true }

/-- ISRSEQ at a label, with the mark of its section. -/
def isrAt (s : State) (p : IsrPhase) : State :=
  ((s.setIsr { s.isr with phase := p }).setRegs { s.regs with svRsp := busyWord }).setDrv
    { s.drv with isrState := isrMarkOf p }

/-- Transmit enabled, the payload 48 45 4C 4C 4F of the TX vectors at 0x3000, `A0` and `A1` of the TX port. -/
def txState (len : Word) : State :=
  { State.reset with
    drv := { Driver.reset with txEnabled := true }
    hostMem := [(0x3000, 0x48#8), (0x3001, 0x45#8), (0x3002, 0x4C#8), (0x3003, 0x4C#8), (0x3004, 0x4F#8)]
    regs := { HostRegs.reset with txA0 := 0x3000#32, txA1 := len } }

/-- A write of `len` bytes whose remainder is staged: 8 bytes pushed by the fast path, the FIFO full. -/
def stagedState (len : Word) (cursor : Word) (p : TxPhase) : State :=
  { txState len with
    regs := { HostRegs.reset with txRsp := busyWord }
    tx := { TxSeq.reset with phase := p, op := 0x22#8, a0 := 0x3000#32, a1 := len, i := 8#32 }
    drv :=
      { Driver.reset with
        txEnabled := true, txPending := { base := 0x3008#32, len := len - 8#32, src := false }, txCursor := cursor }
    per := { Peripheral.powerUp with txFifo := [0x48#8, 0x45#8, 0x4C#8, 0x4C#8, 0x4F#8, 0#8, 0#8, 0#8] } }

/-- The same at W7L, its interrupt source on. -/
def sleepingWriter (len cursor : Word) : State :=
  let s := stagedState len cursor .w7l
  { s with drv := { s.drv with ie := 2#3 }, per := { s.per with pmask := 2#3, txFifo := [] } }

/-! ### Tests of the CFG port -/

-- R280: the request words 0x8000_0000 | LCRF and 0x7000_0000 | BAUDDIV; CFRSP = 0
theorem test_configure : (nextOf (exec (.configure 0x1E#5) ringState)).map (fun t => (t.per.lcr, t.regs.cfRsp)) =
    some (0x1E#5, 0#32) := by decide
-- R281, R282: the readback registers RDTO and WRTO
theorem test_setReadTimeout :
    (nextOf (exec .setReadTimeout (State.reset.setRegs { HostRegs.reset with cfA0 := 7#32 }))).map (readReg · 38) =
      some 7#32 := by decide
theorem test_setWriteTimeout :
    (nextOf (exec .setWriteTimeout (State.reset.setRegs { HostRegs.reset with cfA0 := 7#32 }))).map (readReg · 39) =
      some 7#32 := by decide
-- R283: CFRSP[7:4] = e, CFN = e, the mask cleared
theorem test_status :
    (nextOf (exec .status (State.reset.setDrv { Driver.reset with errMask := 4#4 }))).map
      (fun t => (t.regs.cfRsp, t.regs.cfN, t.drv.errMask)) = some (0x40#32, 4#32, 0#4) := by decide
-- RX11: LEN gives 4; 0 with receive disabled
theorem test_len : (nextOf (exec .len ringState)).map (fun t => (t.regs.cfN, t.regs.cfRsp)) = some (4#32, 0#32) := by decide
theorem test_len_disabled : (nextOf (exec .len State.reset)).map (fun t => t.regs.cfN) = some 0#32 := by decide

/-! ### Tests of the RX port -/

-- RX1: cap = 8, ie = 0b101, RXRSP = 0, RXN = 8, STATE = 0x0000_0540
theorem test_enableRx :
    (nextOf (exec .enableRx ((rxAt ringState 0x10#8 .en2).setRx
      { (rxAt ringState 0x10#8 .en2).rx with a0 := 8#32 }))).map (fun t => (t.regs.rxN, t.regs.rxRsp, t.pri.req)) =
      some (8#32, 0#32, 0x30000005#32) := by decide
-- RX2: ENABLE_RX 1 is fatal cause 2, STATE = 0x0021_0000, RXRSP stays busy
theorem test_enableRx_fatal :
    (nextOf (exec .enableRx ((rxAt State.reset 0x10#8 .en1).setRx
      { (rxAt State.reset 0x10#8 .en1).rx with a0 := 1#32 }))).map (fun t => (readReg t 32, t.regs.rxRsp)) =
      some (0x00210000#32, 0x00010000#32) := by decide
-- RX3: the indices, cap and overflow are zeroed, RXN = 8, err_mask kept
theorem test_disableRx :
    (nextOf (exec .disableRx ((rxAt ringState 0x11#8 .dr3).setDrv
      { ringState.drv with overflow := true, errMask := 2#4 }))).map
        (fun t => (t.regs.rxN, t.drv.cap, t.drv.nextRead, t.drv.overflow, t.drv.errMask)) =
      some (8#32, 0#32, 0#32, false, 2#4) := by decide
-- R171: ie bits 0 and 2 cleared
theorem test_disableRx_clears : (nextOf (exec .disableRx (rxAt ringState 0x11#8 .dr1))).map
    (fun t => (t.drv.ie, t.per.pmask, t.pri.req)) = some (0#3, 0#3, 0x30000000#32) := by decide
-- RX5: READ 0x1000, 3 copies 61 62 63 across the wrap
theorem test_read_copy :
    (nextOf (exec .read ((rxAt ringState 0x12#8 .copy).setRx
      { (rxAt ringState 0x12#8 .copy).rx with a0 := 0x1000#32, a1 := 3#32, nwSnap := 2#32 }))).map
        (fun t => (t.hostMem, t.rx.rdN)) =
      some ([(0x1000, 0x61#8), (0x1001, 0x62#8), (0x1002, 0x63#8)], 3#32) := by decide
-- RX9: overflow and FE pending: 0x43, both cleared
theorem test_read_completion :
    (nextOf (exec .read ((rxAt ringState 0x12#8 .fin2).setDrv { ringState.drv with errMask := 4#4 } |>.setRx
      { (rxAt ringState 0x12#8 .fin2).rx with rdOvf := true, rdN := 3#32 }))).map
        (fun t => (t.regs.rxRsp, t.regs.rxN, t.drv.errMask)) = some (0x43#32, 3#32, 0#4) := by decide
-- RX10: READ_BYTE of 0x41 gives RXRSP = 0x0000_4100, RXN = 1
theorem test_readByte :
    (nextOf (exec .readByte ((rxAt ringState 0x13#8 .fin2).setRx
      { (rxAt ringState 0x13#8 .fin2).rx with rdByte := 0x41#8, rdN := 1#32 }))).map
        (fun t => (t.regs.rxRsp, t.regs.rxN)) = some (0x4100#32, 1#32) := by decide
theorem test_readByte_copy : (nextOf (exec .readByte (rxAt ringState 0x13#8 .copy))).map (fun t => t.rx.rdByte) =
    some 0x61#8 := by decide

/-! ### Tests of the TX port -/

-- R210, R211: STATE[7]
theorem test_enableTx : (nextOf (exec .enableTx (txAt State.reset 0x20#8 .te1))).map
    (fun t => (readReg t 32, t.regs.txRsp)) = some (0x80#32, 0#32) := by decide
theorem test_disableTx : (nextOf (exec .disableTx (txAt State.reset 0x21#8 .dt3))).map
    (fun t => (readReg t 32, t.regs.txRsp)) = some (0#32, 0#32) := by decide
-- TX1: WRITE 0x3000, 0
theorem test_write_empty : (nextOf (exec .write (txState 0#32))).map (fun t => (t.regs.txRsp, t.regs.txN, t.tx.phase)) =
    some (0#32, 0#32, .idle) := by decide
-- R221, TX4: an abandoned write reports the bytes pushed
theorem test_write_timeout : (nextOf (exec .write (stagedState 12#32 0#32 .w10))).map
    (fun t => (t.regs.txRsp, t.regs.txN, t.drv.txPending.len)) = some (1#32, 8#32, 0#32) := by decide
-- TX2: WRITE_STRING 0x3000, 5 stores its third byte 4C at W1P
theorem test_writeString_push :
    (nextOf (exec .writeString ((txAt (txState 5#32) 0x23#8 .w1p).setTx
      { (txAt (txState 5#32) 0x23#8 .w1p).tx with a0 := 0x3000#32, a1 := 5#32, i := 2#32 }))).map
        (fun t => (t.per.txFifo, t.tx.phase)) = some ([0x4C#8], .w1s) := by decide
-- TX5: WRITE_BYTE 0x41 stores 0x41 and responds TXN = 1
theorem test_writeByte :
    (nextOf (exec (.writeByte 0x41#8) ((txAt State.reset 0x24#8 .w1p).setTx
      { (txAt State.reset 0x24#8 .w1p).tx with imm := 0x41#16 }))).map
        (fun t => (t.per.txFifo, t.regs.txN, t.regs.txRsp)) = some ([0x41#8], 1#32, 0#32) := by decide
-- TX6: a full FIFO stages {0, 1, src 1}
theorem test_writeByte_stage :
    (nextOf (exec (.writeByte 0x41#8) ((txAt State.reset 0x24#8 .w3).setTx
      { (txAt State.reset 0x24#8 .w3).tx with imm := 0x41#16 }))).map (fun t => (t.drv.txPending, t.drv.txByte)) =
      some ({ base := 0#32, len := 1#32, src := true }, 0x41#8) := by decide
-- TX10, TX11: FLUSH on an empty FIFO, and on a FIFO that does not empty
theorem test_flush : (nextOf (exec .flush (txAt State.reset 0x25#8 .fl2))).map (fun t => (t.regs.txRsp, t.tx.phase)) =
    some (0#32, .idle) := by decide
theorem test_flush_timeout :
    (nextOf (exec .flush (((txAt State.reset 0x25#8 .fl2).setPer { Peripheral.powerUp with txFifo := [1#8, 2#8, 3#8] }).setTx
      { (txAt State.reset 0x25#8 .fl2).tx with timer := { armed := true, count := 0#32 } }))).map (fun t => t.regs.txRsp) =
      some 1#32 := by decide

/-! ### Tests of the interrupt engine -/

-- R250: the issue
theorem test_serviceInterrupt : (nextOf (exec .serviceInterrupt State.reset)).map
    (fun t => (t.regs.svRsp, t.isr.phase)) = some (0x00010000#32, .s0) := by decide
-- P4: cap = 2, full: the second byte is dropped
theorem test_serviceInterrupt_full :
    (nextOf (exec .serviceInterrupt ((isrAt ringState .i2).setDrv
      { (isrAt ringState .i2).drv with cap := 2#32, nextRead := 0#32, nextWrite := 1#32 }))).map (fun t => t.isr.phase) =
      some .i3f := by decide

/-! ### Tests of the PRI requests -/

-- E11: load() returning 0x41 with more to come = 0x0000_0141
theorem test_priLoad :
    (nextOf (exec .priLoad (State.reset.setPer { Peripheral.powerUp with rxFifo := [0x41#8, 0x42#8] }))).map
      (fun t => (t.pri.rsp, t.per.rxFifo)) = some (0x141#32, [0x42#8]) := by decide
-- E10: store(0x41) = 0x1000_0041
theorem test_priStore : (nextOf (exec (.priStore 0x41#8) State.reset)).map (fun t => (t.pri.req, t.per.txFifo)) =
    some (0x10000041#32, [0x41#8]) := by decide
-- E11: status() with RXFIFO non-empty, TXFIFO empty, hwerr = FE: 0x0000_0045
theorem test_priStatus :
    (nextOf (exec .priStatus (State.reset.setPer { Peripheral.powerUp with rxFifo := [1#8], hwerr := 4#4 }))).map
      (fun t => (t.pri.rsp, t.per.hwerr)) = some (0x45#32, 0#4) := by decide
theorem test_priSetIe : (nextOf (exec (.priSetIe 5#3) State.reset)).map (fun t => (t.pri.req, t.per.pmask)) =
    some (0x30000005#32, 5#3) := by decide
-- P14: ie = 0b101, raw = 0b011: cause 0b001
theorem test_priIntSource :
    (nextOf (exec .priIntSource (State.reset.setPer { Peripheral.powerUp with rxFifo := [1#8], pmask := 5#3 }))).map
      (fun t => t.pri.rsp) = some 1#32 := by decide
theorem test_priSetRxTrig : (nextOf (exec (.priSetRxTrig 1#8) State.reset)).map (fun t => (t.pri.req, t.per.rxTrig)) =
    some (0x50000001#32, 1#8) := by decide
theorem test_priSetTxTrig : (nextOf (exec (.priSetTxTrig 4#8) State.reset)).map (fun t => (t.pri.req, t.per.txTrig)) =
    some (0x60000004#32, 4#8) := by decide
theorem test_priSetBaudDiv : (nextOf (exec (.priSetBaudDiv 0x364#28) State.reset)).map (fun t => (t.pri.req, t.per.div)) =
    some (0x70000364#32, 0x364#28) := by decide
theorem test_priCfgWordFormat : (nextOf (exec (.priCfgWordFormat 3#5) State.reset)).map (fun t => (t.pri.req, t.per.lcr)) =
    some (0x80000003#32, 3#5) := by decide

/-! ### Tests of the machine -/

-- E3: the illegal word 0x0020_0001 to CFCMD gives CFRSP = 0x0000_000F
theorem test_illegal_command : (nextOf (step (State.reset.withFetchWord 32 0x00200001))).map (fun t => t.regs.cfRsp) =
    some 0x0000000F#32 := by decide
-- R113, R340: an illegal word to the idle SVCMD
theorem test_illegal_service :
    (nextOf (hostWrite (cmdOffset .isr) 4 0x31#32 State.reset)).map (fun t => (t.regs.svRsp, t.isr.phase)) =
      some (0x0000000F#32, .idle) := by decide
-- E8: SVCMD while the engine is busy is ignored
theorem test_busy_service : (nextOf (step ((isrAt State.reset .s0).withFetchWord 32 0x30))).map
    (fun t => (t.regs.svRsp, t.isr.phase)) = some (0x00010000#32, .s0) := by decide
-- R313: the ninth byte is lost and sets OE
theorem test_line_overrun :
    (lineRx (State.reset.setPer { Peripheral.powerUp with rxFifo := [1#8, 2#8, 3#8, 4#8, 5#8, 6#8, 7#8, 8#8] }) 9#8).per.hwerr =
      1#4 := by decide

/-! ### Witnesses: for every statement with hypotheses, concrete states that meet them, clause by clause -/

/-- A state after a fatal. -/
def fatalState : State := ringState.setDrv { ringState.drv with fatal := true, fatalCause := 2#4 }

/-- An interrupt service in progress under `run_to_completion`. -/
def heldState : State := isrAt { ringState with cfg := { Config.Params.ref with isrPreempt := .runToCompletion } } .s0

/-- The given events placed next. -/
def withEvents (s : State) (es : List Event) : State := s.setEnv { s.env with inputs := es }

/-- RXSEQ at a label of `READ`, with `rx_a0`, `rx_a1` and the snapshot given. -/
def readAt (s : State) (p : RxPhase) (snap n : Word) : State :=
  (rxAt s 0x12#8 p).setRx { (rxAt s 0x12#8 p).rx with a0 := 0x1000#32, a1 := 3#32, nwSnap := snap, rdN := n }

/-- The ring with one byte in the receive FIFO, and with a full one. -/
def pendingRing : State := ringState.setPer { ringState.per with rxFifo := [0x55#8] }
def fullFifo : State :=
  ringState.setPer { ringState.per with rxFifo := [1#8, 2#8, 3#8, 4#8, 5#8, 6#8, 7#8, 8#8] }

/-- The engine at I4 with 0x55 stored at the old `next_write`. -/
def publishing : State :=
  let s := isrAt ringState .i4
  { s with isr := { s.isr with byte := 0x55#8, nw1 := 3#32 }, buf := Memory.put s.buf 2 0x55#8 }

/-- The late wake of R384: the engine at I6, the reader of the next command asleep on an empty ring. -/
def lateWake : State := withEvents (isrAt (readAt emptyRing .p4l 0#32 0#32) .i6) [.isrSeq, .rxSeq, .rxSeq]

/-- The engine at T3, its writer asleep with one byte of nine still to push. -/
def pushing : State := isrAt (sleepingWriter 9#32 0#32) .t3

theorem good_ringState : ringState.Good := by constructor <;> first | decide | (constructor <;> decide)
theorem good_emptyRing : emptyRing.Good := by constructor <;> first | decide | (constructor <;> decide)
theorem good_fatalState : fatalState.Good := by constructor <;> first | decide | (constructor <;> decide)
theorem good_pendingRing : pendingRing.Good := by constructor <;> first | decide | (constructor <;> decide)
theorem good_fullFifo : fullFifo.Good := by constructor <;> first | decide | (constructor <;> decide)
theorem good_publishing : publishing.Good := by constructor <;> first | decide | (constructor <;> decide)
theorem good_lateWake : lateWake.Good := by constructor <;> first | decide | (constructor <;> decide)
theorem good_pushing : pushing.Good := by constructor <;> first | decide | (constructor <;> decide)

/-- The witnesses of `DecodeEncodeAgree` and `DecodeFollowsRows`: an instruction of each format, a word of each format that is
accepted, and a word that no row of its port selects. -/
theorem witness_Decoding :
    (Instr.writeByte 0x41#8).port = some .tx ∧ (Instr.priStore 0x41#8).port = none ∧
    decodeWord 0x00410024#32 = some (.writeByte 0x41#8) ∧ decodeWord 0x10000041#32 = some (.priStore 0x41#8) ∧
    decodeCmd .rx 0x00410024#32 = none := by decide

-- R9, R114: under run_to_completion RXCMD is latched while the engine runs, and a CFG command waits for its return
theorem test_held_issue : (nextOf (hostWrite (cmdOffset .rx) 4 0x13#32 heldState)).map
    (fun t => (t.rx.phase, t.regs.rxRsp)) = some (.p1, 0x00010000#32) := by decide
theorem test_held_cfg :
    let s := withEvents heldState [.hostWrite (cmdOffset .cfg) 4 0x05#32, .hostRead 0x10#8 4, .isrSeq]
    nextEvent s = .isrSeq ∧ nextEvent (s.setIsr IsrSeq.reset) = .hostWrite (cmdOffset .cfg) 4 0x05#32 := by decide
-- the model's choice (log 27): the waiting write survives a reset and is the first event after it
theorem test_held_reset :
    ((nextOf (step (withEvents heldState [.hostWrite (cmdOffset .cfg) 4 0x05#32, .reset]))).map
      (fun t => (t.isr.phase, nextEvent t))) = some (.idle, .hostWrite (cmdOffset .cfg) 4 0x05#32) := by decide

theorem witness_StepRunsTheDecodedInstruction :
    ((withEvents ringState [.hostWrite (cmdOffset .rx) 4 0x12#32]).pri.pending = none ∧ ringState.drv.fatal = false ∧
      isrHolds ringState = false ∧ portBusy ringState .rx = false ∧ decodeCmd .rx 0x12#32 = some .read) ∧
    (nextEvent (withEvents (readAt ringState .p1 0#32 0#32) [.rxSeq]) = .rxSeq ∧
      latchedRx (readAt ringState .p1 0#32 0#32) = some .read) ∧
    (nextEvent (withEvents pushing [.txSeq]) = .txSeq ∧ latchedTx pushing = some .write ∧ pushing.tx.phase ≠ .idle) ∧
    (nextEvent (withEvents publishing [.isrSeq]) = .isrSeq ∧ publishing.isr.phase ≠ .idle) ∧
    decodePri 0x30000005#32 = some (.priSetIe 5#3) := by decide

theorem witness_PlacedWordRuns :
    (Instr.len.port = some .cfg ∧ ringState.drv.fatal = false ∧ isrHolds ringState = false ∧
      portBusy ringState .cfg = false) ∧
    (Instr.serviceInterrupt.port = some .isr ∧ portBusy ringState .isr = false) ∧
    (Instr.priSetBaudDiv 1#28).port = none := by decide

theorem witness_CommandWritesThatIssueNothing :
    fatalState.drv.fatal = true ∧ publishing.isr.phase ≠ .idle ∧
    ((readAt ringState .p1 0#32 0#32).drv.fatal = false ∧ (readAt ringState .p1 0#32 0#32).rx.phase ≠ .idle) ∧
    (pushing.drv.fatal = false ∧ pushing.tx.phase ≠ .idle) ∧
    (heldState.drv.fatal = false ∧ decodeCmd .cfg 0x10#32 = none ∧ decodeCmd .rx 0x112#32 = none ∧
      decodeCmd .tx 0x01410024#32 = none ∧ heldState.rx.phase = .idle ∧ heldState.tx.phase = .idle) ∧
    (ringState.drv.fatal = false ∧ ringState.isr.phase = .idle ∧ decodeCmd .isr 0x31#32 = none) ∧
    (isrHolds heldState = true ∧ decodeCmd .cfg 0x05#32 = some .len) ∧
    ([Event.hostRead 0x10#8 4].all hostAccess = true ∧ hostAccess .isrSeq = false ∧
      (withEvents heldState [.hostWrite (cmdOffset .cfg) 4 0x05#32, .hostRead 0x10#8 4, .isrSeq]).env.inputs =
        .hostWrite (cmdOffset .cfg) 4 0x05#32 :: [.hostRead 0x10#8 4] ++ .isrSeq :: []) := by decide

theorem witness_HostRegisterFileAndMemory :
    Memory.wf (txState 1#32).hostMem = true ∧
    1 ∈ [1, 2, 9, 10, 17, 18] ∧ 18 ∈ [1, 2, 9, 10, 17, 18] ∧ 63 ∉ [1, 2, 9, 10, 17, 18] ∧ 40 ≤ 40 ∧ 63 ∉ [0, 8, 16, 24] ∧
    (0x24#8).toNat % 4 = 0 ∧ 2 ≠ 4 ∧ (0x25#8).toNat % 4 ≠ 0 := by decide

theorem witness_IdxNextIsSuccessor :
    (2 ≤ (2#32).toNat ∧ (1#32).toNat < (2#32).toNat) ∧
    (2 ≤ (0x80000000#32).toNat ∧ (0x7FFFFFFF#32).toNat < (0x80000000#32).toNat) := by decide

theorem witness_RingLenCountsUnread :
    (2 ≤ (2#32).toNat ∧ (1#32).toNat < (2#32).toNat ∧ (0#32).toNat < (2#32).toNat) ∧
    (2 ≤ (8#32).toNat ∧ (6#32).toNat < (8#32).toNat ∧ (2#32).toNat < (8#32).toNat) := by decide

theorem witness_TxSelPicksLegalLevel : 1 ≤ 1 ∧ (4 ≤ 4 ∧ 1 ≤ 3 ∧ 3 < 4) ∧ Config.Params.ref.ok = true := by decide

theorem witness_TimersCountTicks : 0#32 ≠ infTimeout ∧ 0xFFFFFFFE#32 ≠ infTimeout := by decide

theorem witness_GatingMasksSources :
    (ringState.per.pmask = ringState.drv.ie) ∧ (fatalState.setDrv Driver.reset).drv.ie = 0#3 ∧
    (let s := (isrAt ringState .s0).setDrv { ringState.drv with ie := 4#3 } |>.setPer { ringState.per with pmask := 4#3 }
     s.per.pmask = s.drv.ie ∧ s.drv.fatal = false ∧ s.isr.phase = .s0 ∧ hasRx s.drv.ie = false) ∧
    (let s := isrAt ringState .s1
     s.per.pmask = s.drv.ie ∧ s.drv.fatal = false ∧ s.isr.phase = .s1 ∧ hasTx s.drv.ie = false) ∧
    (let s := (isrAt ringState .s2).setDrv { ringState.drv with ie := 1#3 } |>.setPer
       { ringState.per with pmask := 1#3, hwerr := 4#4 }
     s.per.pmask = s.drv.ie ∧ s.drv.fatal = false ∧ s.isr.phase = .s2 ∧ hasSt s.drv.ie = false) := by decide

theorem witness_AtomicUpdates :
    (ringState.setDrv { ringState.drv with rxWakeRequested := true }).drv.rxWakeRequested = true ∧
    ringState.drv.rxWakeRequested = false := by decide

/-- The witnesses of `ConfigureResult`, `TimeoutsAndStatusResult` and `LenResult`. -/
theorem witness_CfgResults :
    ringState.appReady = true ∧ (ringState.drv.rxEnabled = true ∧ 2 ≤ ringState.drv.cap.toNat ∧
      ringState.drv.nextRead.toNat < ringState.drv.cap.toNat ∧ ringState.drv.nextWrite.toNat < ringState.drv.cap.toNat) ∧
    (State.reset.appReady = true ∧ State.reset.drv.rxEnabled = false) := by decide

/-- EN1 with capacity `c`, receive disabled. -/
def enabling (c : Word) : State := (rxAt State.reset 0x10#8 .en1).setRx { (rxAt State.reset 0x10#8 .en1).rx with a0 := c }

theorem witness_EnableRxSteps :
    (State.reset.appReady = true ∧ State.reset.rx.phase = .idle) ∧
    ((rxAt ringState 0x10#8 .en1).appReady = true ∧ (rxAt ringState 0x10#8 .en1).drv.rxEnabled = true) ∧
    ((enabling 1#32).appReady = true ∧ (enabling 1#32).rx.phase = .en1 ∧ (enabling 1#32).drv.rxEnabled = false ∧
      (enabling 1#32).rx.a0.toNat < 2) ∧
    (2 ≤ (enabling 257#32).rx.a0.toNat ∧ (enabling 257#32).cfg.capMax < (enabling 257#32).rx.a0.toNat) ∧
    ((enabling 2#32).cfg.ok = true ∧ 2 ≤ (enabling 2#32).rx.a0.toNat ∧
      (enabling 256#32).rx.a0.toNat ≤ (enabling 256#32).cfg.capMax) ∧
    ((rxAt ringState 0x10#8 .en2).appReady = true ∧ (rxAt ringState 0x10#8 .en2).rx.phase = .en2) := by decide

theorem witness_DisableRxSteps :
    (ringState.appReady = true ∧ ringState.rx.phase = .idle) ∧
    ((rxAt State.reset 0x11#8 .dr1).appReady = true ∧ (rxAt State.reset 0x11#8 .dr1).drv.rxEnabled = false) ∧
    ((rxAt ringState 0x11#8 .dr1).rx.phase = .dr1 ∧ (rxAt ringState 0x11#8 .dr1).drv.rxEnabled = true) ∧
    ((isrAt (rxAt ringState 0x11#8 .dr2) .i3).appReady = true ∧ (isrAt (rxAt ringState 0x11#8 .dr2) .i3).drv.isrState = .inRx) ∧
    ((isrAt (rxAt ringState 0x11#8 .dr2) .t1).rx.phase = .dr2 ∧
      (isrAt (rxAt ringState 0x11#8 .dr2) .t1).drv.isrState ≠ .inRx) ∧
    (rxAt ringState 0x11#8 .dr3).rx.phase = .dr3 := by decide

theorem witness_ReadIssue :
    (ringState.appReady = true ∧ ringState.rx.phase = .idle ∧ ringState.drv.rxEnabled = true ∧ ringState.regs.rxA1 = 0#32) ∧
    ((ringState.setRegs { HostRegs.reset with rxA1 := 0xFFFFFFFF#32 }).regs.rxA1 ≠ 0#32) ∧
    (State.reset.appReady = true ∧ State.reset.rx.phase = .idle ∧ State.reset.drv.rxEnabled = false) := by decide

theorem witness_WaitProtocolBeforeTheSleep :
    ((readAt ringState .p1 0#32 0#32).appReady = true ∧ (readAt ringState .p1 0#32 0#32).rx.phase = .p1 ∧
      ringState.drv.nextWrite ≠ ringState.drv.nextRead) ∧
    ((readAt emptyRing .p1 0#32 0#32).rx.phase = .p1 ∧ emptyRing.drv.nextWrite = emptyRing.drv.nextRead) ∧
    (readAt emptyRing .p2a 0#32 0#32).rx.phase = .p2a ∧ (readAt emptyRing .p2b 0#32 0#32).rx.phase = .p2b ∧
    (readAt ringState .p3 0#32 0#32).rx.phase = .p3 ∧ (readAt emptyRing .p3 0#32 0#32).rx.phase = .p3 ∧
    (readAt ringState .p3c 2#32 0#32).rx.phase = .p3c := by decide

/-- A sleeping reader whose timer stands at `n`. -/
def sleeping (wake : Bool) (n : Word) : State :=
  let s := readAt emptyRing .p4l 0#32 0#32
  { s with drv := { s.drv with rxWake := wake }, rx := { s.rx with timer := { armed := true, count := n } } }

theorem witness_WaitProtocolFromTheSleep :
    ((readAt (emptyRing.setDrv { emptyRing.drv with readTimeout := 0#32 }) .p4 0#32 0#32).appReady = true ∧
      (emptyRing.setDrv { emptyRing.drv with readTimeout := 0#32 }).drv.readTimeout ≠ 0xFFFFFFFF#32) ∧
    ((readAt emptyRing .p4 0#32 0#32).rx.phase = .p4 ∧ emptyRing.drv.readTimeout = 0xFFFFFFFF#32) ∧
    ((sleeping true 0#32).rx.phase = .p4l ∧ (sleeping true 0#32).drv.rxWake = true) ∧
    ((sleeping false 0#32).drv.rxWake = false ∧ (sleeping false 0#32).rx.timer.armed = true ∧
      (sleeping false 0#32).rx.timer.count = 0#32) ∧
    ((sleeping false 1#32).drv.rxWake = false ∧ (sleeping false 1#32).rx.timer.count ≠ 0#32) ∧
    (let s := (readAt emptyRing .p5 0#32 0#32).setDrv { emptyRing.drv with rxWakeRequested := true }
     s.rx.phase = .p5 ∧ s.drv.rxWakeRequested = true) ∧
    ((readAt emptyRing .p5 0#32 0#32).drv.rxWakeRequested = false ∧ (readAt emptyRing .p5s 0#32 0#32).rx.phase = .p5s) ∧
    (let s := (readAt emptyRing .p5l 0#32 0#32).setDrv { emptyRing.drv with rxWake := true }
     s.rx.phase = .p5l ∧ s.drv.rxWake = true) ∧
    ((readAt emptyRing .p5l 0#32 0#32).rx.phase = .p5l ∧ (readAt emptyRing .p5l 0#32 0#32).drv.rxWake = false) ∧
    ((readAt emptyRing .p6 0#32 0#32).rx.phase = .p6 ∧ emptyRing.drv.nextWrite = emptyRing.drv.nextRead) ∧
    ((readAt ringState .p6 0#32 0#32).rx.phase = .p6 ∧ ringState.drv.nextWrite ≠ ringState.drv.nextRead) := by decide

theorem witness_ReadCopiesTheRing :
    let s := readAt ringState .copy 2#32 0#32
    Memory.wf s.hostMem = true ∧ s.appReady = true ∧ s.rx.phase = .copy ∧ 2 ≤ s.drv.cap.toNat ∧ s.drv.cap.toNat ≤ s.cfg.capMax ∧
      s.drv.nextRead.toNat < s.drv.cap.toNat ∧ s.rx.nwSnap.toNat < s.drv.cap.toNat ∧ s.rx.nwSnap ≠ s.drv.nextRead ∧
      s.rx.a1 ≠ 0#32 ∧
      3 = min s.rx.a1.toNat ((s.rx.nwSnap.toNat + s.drv.cap.toNat - s.drv.nextRead.toNat) % s.drv.cap.toNat) := by decide

theorem witness_ReadByteCopyAndAdvance :
    ((rxAt ringState 0x13#8 .copy).appReady = true ∧ (rxAt ringState 0x13#8 .copy).rx.phase = .copy ∧
      ringState.drv.nextRead.toNat < ringState.cfg.capMax) ∧
    ((readAt ringState .adv 2#32 7#32).rx.phase = .adv ∧ ringState.drv.nextRead.toNat < ringState.drv.cap.toNat ∧
      (readAt ringState .adv 2#32 7#32).rx.rdN.toNat < ringState.drv.cap.toNat) := by decide

theorem witness_ReadCompletion :
    ((readAt ringState .fin1 2#32 3#32).appReady = true ∧ (readAt ringState .fin1 2#32 3#32).rx.phase = .fin1) ∧
    (readAt ringState .fin2 2#32 3#32).rx.phase = .fin2 := by decide

theorem witness_ReadReturnsTheOldestBytes :
    (let s := ringState.setRegs { HostRegs.reset with rxA0 := 0xFFFFFFFE#32, rxA1 := 3#32 }
     s.Good ∧ s.appReady = true ∧ s.rx.phase = .idle ∧ s.drv.rxEnabled = true ∧ s.regs.rxA1 ≠ 0#32 ∧ 1 ≤ unread s ∧
       3 = min s.regs.rxA1.toNat (unread s)) ∧
    (ringState.Good ∧ ringState.drv.rxEnabled = true ∧ ringContents ringState = [0x61#8, 0x62#8, 0x63#8, 0x64#8]) := by
  refine ⟨⟨?_, by decide⟩, good_ringState, by decide⟩
  constructor <;> first | decide | (constructor <;> decide)

theorem witness_EnableDisableTxSteps :
    (ringState.appReady = true ∧ ringState.tx.phase = .idle) ∧ (txAt State.reset 0x20#8 .te1).tx.phase = .te1 ∧
    ((rxAt State.reset 0x21#8 .idle).setTx { TxSeq.reset with phase := .dt1 }).drv.txEnabled = false ∧
    ((txAt State.reset 0x21#8 .dt1).appReady = true ∧ (txAt State.reset 0x21#8 .dt1).drv.txEnabled = true) ∧
    ((isrAt (txAt State.reset 0x21#8 .dt2) .t3).appReady = true ∧
      (isrAt (txAt State.reset 0x21#8 .dt2) .t3).drv.isrState = .inTx) ∧
    ((txAt State.reset 0x21#8 .dt2).drv.isrState ≠ .inTx) ∧ (txAt State.reset 0x21#8 .dt3).tx.phase = .dt3 := by decide

theorem witness_WriteIssue :
    ((txState 1#32).appReady = true ∧ (txState 1#32).tx.phase = .idle ∧ (txState 1#32).drv.txEnabled = true ∧
      (txState 1#32).regs.txA1 ≠ 0#32) ∧
    ((txState 0#32).drv.txEnabled = true ∧ (txState 0#32).regs.txA1 = 0#32) ∧ State.reset.drv.txEnabled = false := by decide

theorem witness_FastFillSteps :
    (isWrite (some .write) = true ∧ isWrite (some .writeString) = true ∧ isWrite (some (.writeByte 1#8)) = true) ∧
    ((txAt (txState 5#32) 0x22#8 .w1s).appReady = true ∧ (txAt (txState 5#32) 0x22#8 .w1s).tx.phase = .w1s) ∧
    (let s := (txAt (txState 5#32) 0x22#8 .w1p).setTx { (txAt (txState 5#32) 0x22#8 .w1p).tx with a1 := 5#32, i := 3#32 }
     s.tx.phase = .w1p ∧ s.per.txFifo.length < s.cfg.txDepth ∧ s.tx.i + 1#32 ≠ payloadLen s .memory) ∧
    (let s := (txAt (txState 5#32) 0x22#8 .w1p).setTx { (txAt (txState 5#32) 0x22#8 .w1p).tx with a1 := 5#32, i := 4#32 }
     s.tx.i + 1#32 = payloadLen s .memory ∧ s.tx.i + 1#32 ≠ payloadLen s .immediate) := by decide

theorem witness_StagingSteps :
    ((stagedState 9#32 0#32 .w3).appReady = true ∧ (stagedState 9#32 0#32 .w3).tx.phase = .w3) ∧
    ((stagedState 9#32 0#32 .w4).tx.phase = .w4 ∧ (stagedState 9#32 0#32 .w4).cfg.ok = true) ∧
    (stagedState 9#32 0#32 .w5).tx.phase = .w5 ∧ (stagedState 9#32 0#32 .w6).tx.phase = .w6 ∧
    (stagedState 9#32 0#32 .w8).tx.phase = .w8 := by decide

theorem witness_WriteSleepAndResponse :
    (let s := (stagedState 9#32 0#32 .w7).setDrv { (stagedState 9#32 0#32 .w7).drv with writeTimeout := 0#32 }
     s.appReady = true ∧ s.tx.phase = .w7 ∧ s.drv.writeTimeout ≠ 0xFFFFFFFF#32) ∧
    ((stagedState 9#32 0#32 .w7).drv.writeTimeout = 0xFFFFFFFF#32) ∧
    (let s := (sleepingWriter 9#32 1#32).setDrv { (sleepingWriter 9#32 1#32).drv with txDone := true }
     s.tx.phase = .w7l ∧ s.drv.txDone = true) ∧
    (let s := (sleepingWriter 9#32 0#32).setTx
       { (sleepingWriter 9#32 0#32).tx with timer := { armed := true, count := 0#32 } }
     s.drv.txDone = false ∧ s.tx.timer.armed = true ∧ s.tx.timer.count = 0#32) ∧
    ((sleepingWriter 9#32 0#32).drv.txDone = false ∧ (sleepingWriter 9#32 0#32).tx.timer.armed = false) ∧
    (isrAt (stagedState 9#32 0#32 .w9) .t4).drv.isrState = .inTx ∧ (stagedState 9#32 0#32 .w9).drv.isrState ≠ .inTx ∧
    (stagedState 9#32 0#32 .w10).tx.phase = .w10 := by decide

theorem witness_WriteAccounting :
    (stagedState 12#32 2#32 .w10).Good ∧ (stagedState 12#32 2#32 .w10).appReady = true ∧
    (stagedState 12#32 2#32 .w10).tx.phase = .w10 ∧ latchedTx (stagedState 12#32 2#32 .w10) = some .write ∧
    ∃ t, exec .write (stagedState 12#32 2#32 .w10) = .next t :=
  ⟨by constructor <;> first | decide | (constructor <;> decide), by decide, by decide, by decide,
    next_of_isSome (by decide)⟩

theorem witness_FastPathWritesThePayload :
    (let s := txState 8#32
     s.appReady = true ∧ s.tx.phase = .idle ∧ s.drv.txEnabled = true ∧ 1 ≤ s.regs.txA1.toNat ∧
       s.per.txFifo.length + s.regs.txA1.toNat ≤ s.cfg.txDepth) ∧
    (let s := (txState 1#32).setPer { Peripheral.powerUp with txFifo := [1#8, 2#8, 3#8, 4#8, 5#8, 6#8, 7#8] }
     s.per.txFifo.length + 1 ≤ s.cfg.txDepth) := by decide

/-- A write of nine bytes into an empty FIFO, and `WRITE_BYTE` into a full one; timeouts 0 and 5. -/
theorem witness_StalledWriteReportsTheFastPath :
    (let s := (txState 9#32).setDrv { Driver.reset with txEnabled := true, writeTimeout := 0#32 }
     s.Good ∧ s.appReady = true ∧ s.tx.phase = .idle ∧ s.isr.phase = .idle ∧ s.drv.txEnabled = true ∧
       s.drv.writeTimeout ≠ infTimeout ∧ 8 = s.cfg.txDepth - s.per.txFifo.length ∧ 8 < s.regs.txA1.toNat) ∧
    (let s := ((txState 0#32).setDrv { Driver.reset with txEnabled := true, writeTimeout := 5#32 }).setPer
       { Peripheral.powerUp with txFifo := [1#8, 2#8, 3#8, 4#8, 5#8, 6#8, 7#8, 8#8] }
     s.Good ∧ s.appReady = true ∧ s.tx.phase = .idle ∧ s.isr.phase = .idle ∧ s.drv.txEnabled = true ∧
       s.drv.writeTimeout ≠ infTimeout ∧ 0 = s.cfg.txDepth - s.per.txFifo.length ∧ 0 < (1#32).toNat) :=
  ⟨⟨by constructor <;> first | decide | (constructor <;> decide), by decide⟩,
    by constructor <;> first | decide | (constructor <;> decide), by decide⟩

theorem witness_FlushSteps :
    ((txAt State.reset 0x25#8 .fl1).appReady = true ∧ (txAt State.reset 0x25#8 .fl1).drv.writeTimeout = 0xFFFFFFFF#32) ∧
    ((txAt State.reset 0x25#8 .fl1).setDrv { Driver.reset with writeTimeout := 0#32 }).drv.writeTimeout ≠ 0xFFFFFFFF#32 ∧
    (let s := (txAt State.reset 0x25#8 .fl2).setPer { Peripheral.powerUp with txFifo := [1#8] }
     s.tx.phase = .fl2 ∧ s.per.txFifo ≠ [] ∧ s.tx.timer.armed = false) ∧
    ((txAt State.reset 0x25#8 .fl2).per.txFifo = []) ∧
    (let s := txAt State.reset 0x25#8 .fl2
     let t := s.setTx { s.tx with timer := { armed := true, count := 0#32 } }
     t.tx.phase = .fl2 ∧ t.per.txFifo = [] ∧ t.tx.timer.armed = true ∧ t.tx.timer.count = 0#32) := by decide

theorem witness_ServiceDispatchAndReturn :
    (pendingRing.drv.fatal = false ∧ pendingRing.isr.phase = .idle) ∧
    ((isrAt pendingRing .s0).isr.phase = .s0 ∧ (pendingCause (isrAt pendingRing .s0)).getLsbD 0 = true) ∧
    ((isrAt ringState .s1).isr.phase = .s1 ∧ (pendingCause (isrAt ringState .s1)).getLsbD 1 = false) ∧
    ((isrAt ringState .s2).isr.phase = .s2 ∧ (pendingCause (isrAt ringState .s2)).getLsbD 2 = false) ∧
    (pendingCause ((isrAt ringState .s2).setPer { ringState.per with hwerr := 1#4 })).getLsbD 2 = true ∧
    (isrAt ringState .t5).isr.phase = .t5 ∧ (isrAt ringState .st1).isr.phase = .st1 := by decide

theorem witness_ReceiveSectionSteps :
    ((isrAt pendingRing .i1).isr.phase = .i1 ∧ (isrAt pendingRing .i1).per.rxFifo = [0x55#8]) ∧
    (isrAt ringState .i2).isr.phase = .i2 ∧ (isrAt ringState .i3f).isr.phase = .i3f ∧
    ((isrAt ringState .i3).isr.phase = .i3 ∧ (isrAt ringState .i3).drv.nextWrite.toNat < (isrAt ringState .i3).cfg.capMax) ∧
    publishing.isr.phase = .i4 ∧ (isrAt ringState .i5).isr.phase = .i5 ∧ lateWake.isr.phase = .i6 ∧
    ((isrAt ringState .i7).isr.phase = .i7 ∧ (isrAt ringState .i7).isr.more = false) ∧
    ((isrAt pendingRing .i7).setIsr { IsrSeq.reset with phase := .i7, more := true }).isr.more = true := by decide

theorem witness_TransmitSectionSteps :
    ((isrAt (sleepingWriter 9#32 1#32) .t1).drv.fatal = false ∧
      (isrAt (sleepingWriter 9#32 1#32) .t1).drv.txPending.len.toNat ≤ (isrAt (sleepingWriter 9#32 1#32) .t1).drv.txCursor.toNat) ∧
    ((isrAt (sleepingWriter 9#32 0#32) .t1).drv.txCursor.toNat < (isrAt (sleepingWriter 9#32 0#32) .t1).drv.txPending.len.toNat) ∧
    (isrAt (sleepingWriter 9#32 1#32) .t1a).isr.phase = .t1a ∧ (isrAt (sleepingWriter 9#32 1#32) .t1w).isr.phase = .t1w ∧
    (isrAt (sleepingWriter 9#32 0#32) .t2s).isr.phase = .t2s ∧
    (pushing.isr.phase = .t3 ∧ pushing.per.txFifo.length < pushing.cfg.txDepth) ∧
    ((isrAt (sleepingWriter 9#32 1#32) .t4).isr.phase = .t4 ∧ (isrAt (sleepingWriter 9#32 1#32) .t4).cfg.ok = true) := by decide

theorem witness_EnqueueLaw :
    (let s := (isrAt ringState .i2).setDrv { (isrAt ringState .i2).drv with cap := 2#32, nextRead := 1#32, nextWrite := 0#32 }
     s.drv.fatal = false ∧ s.isr.phase = .i2 ∧ idxNext s.drv.cap s.drv.nextWrite = s.drv.nextRead) ∧
    (let s := isrAt ringState .i2
     idxNext s.drv.cap s.drv.nextWrite ≠ s.drv.nextRead ∧ 2 ≤ s.drv.cap.toNat ∧ s.drv.cap.toNat ≤ s.cfg.capMax ∧
       s.drv.nextRead.toNat < s.drv.cap.toNat ∧ s.drv.nextWrite.toNat < s.drv.cap.toNat) := by decide

theorem witness_ServiceMovesTheFifoIntoTheRing :
    (fullFifo.Good ∧ fullFifo.drv.fatal = false ∧ fullFifo.isr.phase = .idle ∧ hasRx (gatedCause fullFifo) = true ∧
      3 = fullFifo.drv.cap.toNat - 1 - unread fullFifo) ∧
    (pendingRing.Good ∧ hasRx (gatedCause pendingRing) = true) :=
  ⟨⟨good_fullFifo, by decide⟩, good_pendingRing, by decide⟩

theorem witness_ServiceWithoutCauseReturns :
    ringState.Good ∧ ringState.drv.fatal = false ∧ ringState.isr.phase = .idle ∧ gatedCause ringState = 0#3 :=
  ⟨good_ringState, by decide⟩

theorem witness_EngineNeverHolds : publishing.Good ∧ publishing.drv.fatal = false ∧ publishing.isr.phase ≠ .idle :=
  ⟨good_publishing, by decide⟩

theorem witness_EngineReturns :
    (isrAt fullFifo .s0).Good ∧ (isrAt fullFifo .s0).drv.fatal = false ∧ (isrAt fullFifo .s0).isr.phase = .s0 :=
  ⟨by constructor <;> first | decide | (constructor <;> decide), by decide⟩

theorem witness_SleeperWithDataIsWoken :
    (let s := (isrAt (readAt ringState .p4l 0#32 0#32) .i5).setDrv
       { (isrAt ringState .i5).drv with rxWakeRequested := true }
     s.Good ∧ s.drv.fatal = false ∧ s.rx.phase = .p4l ∧ s.drv.nextWrite ≠ s.drv.nextRead) ∧
    (let s := isrAt (readAt ringState .p5l 0#32 0#32) .i6
     s.Good ∧ s.drv.fatal = false ∧ s.rx.phase = .p5l) :=
  ⟨⟨by constructor <;> first | decide | (constructor <;> decide), by decide⟩,
    by constructor <;> first | decide | (constructor <;> decide), by decide⟩

theorem witness_PriFifoRequests :
    pendingRing.per.rxFifo = [0x55#8] ∧ ringState.per.rxFifo = [] ∧
    (txState 1#32).per.txFifo.length < (txState 1#32).cfg.txDepth ∧
    (stagedState 9#32 0#32 .w4).cfg.txDepth ≤ (stagedState 9#32 0#32 .w4).per.txFifo.length := by decide

theorem witness_PriTriggerLevels :
    (1 ≤ (1#8).toNat ∧ (8#8).toNat ≤ ringState.cfg.rxDepth ∧ (8#8).toNat ≤ ringState.cfg.txDepth) ∧ (0#8).toNat < 1 ∧
    ringState.cfg.rxDepth < (9#8).toNat ∧ ringState.cfg.txDepth < (9#8).toNat := by decide

theorem witness_LineSteps :
    pendingRing.per.rxFifo.length < pendingRing.cfg.rxDepth ∧
    (fullFifo.cfg.rxDepth ≤ fullFifo.per.rxFifo.length ∧ fullFifo.cfg.hasLineStatus = true) ∧
    ({ fullFifo with cfg := { Config.Params.ref with hasLineStatus := false } } : State).cfg.hasLineStatus = false ∧
    (stagedState 9#32 0#32 .w4).per.txFifo = 0x48#8 :: [0x45#8, 0x4C#8, 0x4C#8, 0x4F#8, 0#8, 0#8, 0#8] ∧
    ringState.per.txFifo = [] ∧ 1#4 ≠ 0#4 ∧ 1 ≤ pendingRing.per.rxFifo.length ∧ ringState.per.rxFifo = [] := by decide

/-- The witnesses of `StepKeepsGood`, `GoodStatesOnlyRefuseContractBreaks`, `RingIsAQueue`, `TransmitKeepsSubmissionOrder` and
`QuietTransmitterIgnoresHostMemory`: one good state for each kind of step that their clauses name. -/
theorem witness_good_steps :
    ((withEvents publishing [.isrSeq]).Good ∧ ∃ t, step (withEvents publishing [.isrSeq]) = .next t) ∧
    ((withEvents (readAt ringState .adv 2#32 3#32) [.rxSeq]).Good ∧
      ∃ t, step (withEvents (readAt ringState .adv 2#32 3#32) [.rxSeq]) = .next t) ∧
    ((withEvents pushing [.isrSeq]).Good ∧ ∃ t, step (withEvents pushing [.isrSeq]) = .next t) ∧
    ((withEvents ringState [.reset]).Good ∧ ∃ t, step (withEvents ringState [.reset]) = .next t) ∧
    ((withEvents ringState [.memRead 0#32]).Good ∧ txWriting (withEvents ringState [.memRead 0#32]).tx.phase = false ∧
      ∃ t, step (withEvents ringState [.memRead 0#32]) = .next t) :=
  ⟨⟨by constructor <;> first | decide | (constructor <;> decide), next_of_isSome (by decide)⟩,
    ⟨by constructor <;> first | decide | (constructor <;> decide), next_of_isSome (by decide)⟩,
    ⟨by constructor <;> first | decide | (constructor <;> decide), next_of_isSome (by decide)⟩,
    ⟨by constructor <;> first | decide | (constructor <;> decide), next_of_isSome (by decide)⟩,
    by constructor <;> first | decide | (constructor <;> decide), by decide, next_of_isSome (by decide)⟩

theorem witness_FatalStopsTheBlock :
    fatalState.Good ∧ fatalState.drv.fatal = true ∧ Instr.read.port = some .rx ∧
    nextEvent (withEvents fatalState [.tick]) ≠ .reset ∧ ∃ t, step (withEvents fatalState [.tick]) = .next t :=
  ⟨good_fatalState, by decide, by decide, by decide, next_of_isSome (by decide)⟩

/-- Every cause of R107 is reached from a good state: 1 with receive enabled, 2 below and 4 above the range, 3 at P6. -/
theorem witness_FatalHasItsCause :
    ((withEvents (rxAt ringState 0x10#8 .en1) [.rxSeq]).Good ∧
      (nextOf (step (withEvents (rxAt ringState 0x10#8 .en1) [.rxSeq]))).map (fun t => t.drv.fatalCause) = some 1#4) ∧
    ((withEvents (enabling 1#32) [.rxSeq]).Good ∧
      (nextOf (step (withEvents (enabling 1#32) [.rxSeq]))).map (fun t => t.drv.fatalCause) = some 2#4) ∧
    ((withEvents (enabling 257#32) [.rxSeq]).Good ∧
      (nextOf (step (withEvents (enabling 257#32) [.rxSeq]))).map (fun t => t.drv.fatalCause) = some 4#4) ∧
    ((withEvents (readAt emptyRing .p6 0#32 0#32) [.rxSeq]).Good ∧
      (nextOf (step (withEvents (readAt emptyRing .p6 0#32 0#32) [.rxSeq]))).map (fun t => t.drv.fatalCause) = some 3#4) :=
  ⟨⟨by constructor <;> first | decide | (constructor <;> decide), by decide⟩,
    ⟨by constructor <;> first | decide | (constructor <;> decide), by decide⟩,
    ⟨by constructor <;> first | decide | (constructor <;> decide), by decide⟩,
    by constructor <;> first | decide | (constructor <;> decide), by decide⟩

theorem witness_SharedStateHasItsWriters :
    (withEvents publishing [.isrSeq]).Good ∧ nextEvent (withEvents publishing [.isrSeq]) ≠ .reset ∧
    (nextOf (step (withEvents publishing [.isrSeq]))).map (fun t => t.drv.nextWrite) = some 3#32 ∧
    (withEvents publishing [.isrSeq]).drv.nextWrite = 2#32 :=
  ⟨by constructor <;> first | decide | (constructor <;> decide), by decide⟩

theorem witness_OperandsAreLatched :
    ((readAt ringState .p1 0#32 0#32).rx.phase ≠ .idle ∧ ∃ t, rxTurn (readAt ringState .p1 0#32 0#32) = .next t) ∧
    (pushing.tx.phase ≠ .idle ∧ ∃ t, txTurn pushing = .next t) :=
  ⟨⟨by decide, next_of_isSome (by decide)⟩, by decide, next_of_isSome (by decide)⟩

end Sys2Proof.Tests
end

