-- ==== Sys2Proof/Proofs/Readback.lean ====
section
/-!
PROOF. The host's view of the block through `STATE` and the response registers (R35, R36, R42, R146): what an access to a
whole register does, the fields of `STATE` and of a response word, and the frame of `Respond` on each port.
-/

namespace Sys2Proof.Machine

/-! ### Accesses to a whole register (R35, R75) -/

section
variable {off : BitVec 8} (s : State)

/-- An aligned read of four bytes latches the register's value and changes nothing else. -/
theorem hostRead_aligned (h : off.toNat % 4 = 0) :
    hostRead off 4 s = .next (latchHostData s (readReg s (off.toNat / 4))) := by
  simp [hostRead, wholeReg, h]

/-- An aligned write of four bytes to a register that is no `CMD` reaches the operand registers at most. -/
theorem hostWrite_aligned (h : off.toNat % 4 = 0) (hp : cmdPort (off.toNat / 4) = none) (v : Word) :
    hostWrite off 4 v s = .next (writeOperand s (off.toNat / 4) v) := by
  simp [hostWrite, wholeReg, h, hp]

end

/-! ### The fields of `STATE` (R42) -/

/-- The one-bit fields, the reserved bit 11 among them: each is found by dropping the fields below it. -/
theorem stateWord_flags (d : Driver) :
    (stateWord d).getLsbD 2 = d.overflow ∧ (stateWord d).getLsbD 3 = d.rxWakeRequested ∧
    (stateWord d).getLsbD 4 = d.rxWake ∧ (stateWord d).getLsbD 5 = d.txDone ∧ (stateWord d).getLsbD 6 = d.rxEnabled ∧
    (stateWord d).getLsbD 7 = d.txEnabled ∧ (stateWord d).getLsbD 11 = false ∧ (stateWord d).getLsbD 16 = d.fatal := by
  unfold stateWord
  simp only [BitVec.getLsbD_append, BitVec.getLsbD_ofBool]
  simp

/-- The wider fields and the two reserved ranges above them. -/
theorem stateWord_ranges (d : Driver) :
    (stateWord d).extractLsb' 0 2 = isrCode d.isrState ∧ (stateWord d).extractLsb' 8 3 = d.ie ∧
    (stateWord d).extractLsb' 12 4 = d.errMask ∧ (stateWord d).extractLsb' 17 3 = 0#3 ∧
    (stateWord d).extractLsb' 20 4 = d.fatalCause ∧ (stateWord d).extractLsb' 24 8 = 0#8 := by
  unfold stateWord
  simp (disch := decide) only [BitVec.extractLsb'_append_eq_of_le, BitVec.extractLsb'_append_eq_of_add_le,
    BitVec.extractLsb'_eq_self, Nat.reduceSub, and_self]

/-! ### The fields of a response word (R36, R146) -/

theorem rspWord_ranges (err hw : BitVec 4) (b : Byte) :
    (rspWord err hw b).extractLsb' 0 4 = err ∧ (rspWord err hw b).extractLsb' 4 4 = hw ∧
    (rspWord err hw b).extractLsb' 8 8 = b ∧ (rspWord err hw b).extractLsb' 16 16 = 0#16 := by
  unfold rspWord
  simp (disch := decide) only [BitVec.extractLsb'_append_eq_of_le, BitVec.extractLsb'_append_eq_of_add_le,
    BitVec.extractLsb'_eq_self, Nat.reduceSub, and_self]

/-! ### The frame of `Respond` on each port (R146) -/

section
variable (s : State) (err : ErrName) (hw : BitVec 4) (b : Byte) (n : Word)

/-- CFG has no phase (R37), so its response is its two registers. -/
theorem respondCfg_eq : respondCfg s err hw b n =
    { s with regs := { s.regs with cfRsp := rspWord (errCode err) hw b, cfN := n } } := rfl

theorem respondRx_eq : respondRx s err hw b n =
    { s with regs := { s.regs with rxRsp := rspWord (errCode err) hw b, rxN := n }, rx := { s.rx with phase := .idle } } := rfl

theorem respondTx_eq : respondTx s err hw b n =
    { s with regs := { s.regs with txRsp := rspWord (errCode err) hw b, txN := n }, tx := { s.tx with phase := .idle } } := rfl

/-- The mask of `BUSY`, bit 16, is the only one `Respond` applies to `SVRSP`. -/
theorem respondIsr_eq : respondIsr s =
    { s with regs := { s.regs with svRsp := s.regs.svRsp &&& 0xFFFEFFFF#32 }, isr := { s.isr with phase := .idle } } := rfl

end

/-- Settles O8: register 32 is no `CMD` and no operand register, so its accesses are the aligned ones above; the fields
are read off the two words' layouts and the frames off `Respond`. -/
theorem readbackAndResponseFields : Obligations.ReadbackAndResponseFields := by
  refine ⟨fun d => ?_, fun s => hostRead_aligned s (by decide), fun s v => hostWrite_aligned s (by decide) (by decide) v, rfl,
    fun s => ⟨rfl, rfl, rfl, rfl, rfl, rfl, rfl⟩, fun s err hw b n => ?_⟩
  · obtain ⟨hovf, hreq, hwake, hdone, hrx, htx, hres, hfatal⟩ := stateWord_flags d
    obtain ⟨hisr, hie, hmask, hlow, hcause, htop⟩ := stateWord_ranges d
    exact ⟨hisr, hovf, hreq, hwake, hdone, hrx, htx, hie, hres, hmask, hfatal, hlow, hcause, htop⟩
  · obtain ⟨herr, hhw, hbyte, hupper⟩ := rspWord_ranges (errCode err) hw b
    exact ⟨herr, hhw, hbyte, hupper, respondCfg_eq s err hw b n, respondRx_eq s err hw b n, respondTx_eq s err hw b n,
      respondIsr_eq s⟩

end Sys2Proof.Machine
end

