-- ==== Sys2Proof/Proofs/RingArithmetic.lean ====
section
/-!
PROOF. The ring arithmetic as arithmetic modulo `cap` (R130, R131), and the selector mux with the level its requests carry
(R141, R306).
-/

namespace Sys2Proof.Machine

section
variable {cap nr nw i : Word}

/-! ### The index successor (R130) -/

theorem idxNext_toNat_mod (hi : i.toNat < cap.toNat) : (idxNext cap i).toNat = (i.toNat + 1) % cap.toNat := by
  rw [idxNext_toNat hi]
  split
  · next hlast => rw [hlast, Nat.mod_self]
  · next hlast => rw [Nat.mod_eq_of_lt (by omega)]

theorem idxNext_lt (hi : i.toNat < cap.toNat) : (idxNext cap i).toNat < cap.toNat := by
  rw [idxNext_toNat_mod hi]
  exact Nat.mod_lt _ (by omega)

/-! ### The wrap-aware difference (R131) -/

theorem ringLen_of_le (hr : nr.toNat < cap.toNat) (h : nr.toNat ≤ nw.toNat) : ringLen cap nr nw = nw.toNat - nr.toNat := by
  simp [ringLen, h, show cap.toNat ≠ 0 by omega]

theorem ringLen_of_lt (hr : nr.toNat < cap.toNat) (h : nw.toNat < nr.toNat) :
    ringLen cap nr nw = cap.toNat - nr.toNat + nw.toNat := by
  rw [ringLen, if_neg (by omega), if_neg (by omega)]
  omega

theorem ringLen_eq_mod (hr : nr.toNat < cap.toNat) (hw : nw.toNat < cap.toNat) :
    ringLen cap nr nw = (nw.toNat + cap.toNat - nr.toNat) % cap.toNat := by
  rcases Nat.lt_or_ge nw.toNat nr.toNat with h | h
  · rw [ringLen_of_lt hr h, Nat.mod_eq_of_lt (by omega)]
    omega
  · have hsum : nw.toNat + cap.toNat - nr.toNat = (nw.toNat - nr.toNat) + cap.toNat := by omega
    rw [ringLen_of_le hr h, hsum, Nat.add_mod_right, Nat.mod_eq_of_lt (by omega)]

theorem ringLen_eq_zero_iff (h2 : 2 ≤ cap.toNat) (hr : nr.toNat < cap.toNat) : ringLen cap nr nw = 0 ↔ nw = nr := by
  constructor
  · intro hzero
    by_contra hne
    have := ringLen_pos h2 hr hne
    omega
  · rintro rfl
    exact ringLen_self cap nw

/-- From the successor of `next_write` round to `next_write` is a whole turn but one slot. -/
theorem ringLen_from_idxNext (hw : nw.toNat < cap.toNat) : ringLen cap (idxNext cap nw) nw = cap.toNat - 1 := by
  have hlt := idxNext_lt hw
  have hval := idxNext_toNat hw
  split at hval
  · rw [ringLen_of_le hlt (by omega)]
    omega
  · rw [ringLen_of_lt hlt (by omega)]
    omega

/-- The buffer is full exactly at `cap - 1` unread bytes: one byte more would fill a ring that is never longer. -/
theorem ringLen_eq_pred_iff (h2 : 2 ≤ cap.toNat) (hr : nr.toNat < cap.toNat) (hw : nw.toNat < cap.toNat) :
    ringLen cap nr nw = cap.toNat - 1 ↔ idxNext cap nw = nr := by
  constructor
  · intro hfull
    by_contra hne
    have hlonger := ringLen_idxNext h2 hr hw hne
    have hbound := ringLen_lt h2 hr (idxNext_lt hw)
    omega
  · rintro rfl
    exact ringLen_from_idxNext hw

end

/-- Settles O9. -/
theorem idxNextIsSuccessor : Obligations.IdxNextIsSuccessor :=
  fun _ _ _ hi => ⟨rfl, idxNext_toNat_mod hi, idxNext_lt hi⟩

/-- Settles O10. -/
theorem ringLenCountsUnread : Obligations.RingLenCountsUnread := by
  refine ⟨fun cap nr nw h2 hr hw => ?_, fun _ _ => rfl, by decide, by decide, by decide, by decide⟩
  exact ⟨ringLen_of_le hr, ringLen_of_lt hr, ringLen_eq_mod hr hw, Nat.le_sub_one_of_lt (ringLen_lt h2 hr hw),
    ringLen_eq_zero_iff h2 hr, ringLen_eq_pred_iff h2 hr hw⟩

/-! ### The selector mux (R141) -/

section
variable {top rem : Nat}

theorem txSel_top (h : top ≤ rem) : txSel top rem = top := if_pos h

theorem txSel_rem (h1 : 1 ≤ rem) (h : rem < top) : txSel top rem = rem := by simp [txSel, h1, Nat.not_le.mpr h]

theorem txSel_zero (htop : 1 ≤ top) : txSel top 0 = 1 := by simp [txSel, show top ≠ 0 by omega]

end

section
variable {s : State} (rem : Nat)

/-- The constraints of R5 that bound the mux's top. -/
theorem txTrigMax_range (h : s.cfg.ok = true) :
    1 ≤ s.cfg.txTrigMax ∧ s.cfg.txTrigMax ≤ s.cfg.txDepth ∧ s.cfg.txDepth ≤ 255 := by
  simp only [Config.Params.ok, Bool.and_eq_true, decide_eq_true_eq] at h
  omega

/-- The level fits the request's 8-bit operand, since the mux's top is at most the FIFO's depth. -/
theorem txLevel_toNat (h : s.cfg.ok = true) : (txLevel s rem).toNat = txSel s.cfg.txTrigMax rem := by
  obtain ⟨hone, hdepth, hbyte⟩ := txTrigMax_range h
  have hsel := txSel_range rem hone
  rw [txLevel, BitVec.toNat_ofNat, Nat.mod_eq_of_lt (by omega)]

theorem txLevel_legal (h : s.cfg.ok = true) : txLevelOk s.cfg (txLevel s rem) = true := by
  obtain ⟨hone, hdepth, -⟩ := txTrigMax_range h
  have hsel := txSel_range rem hone
  simp only [txLevelOk, txLevel_toNat rem h, Bool.and_eq_true, decide_eq_true_eq]
  omega

end

/-- Settles O11. -/
theorem txSelPicksLegalLevel : Obligations.TxSelPicksLegalLevel := by
  refine ⟨fun top rem htop => ⟨txSel_top, txSel_rem, ?_, txSel_range rem htop⟩,
    fun s rem hok => ⟨txLevel_toNat rem hok, txLevel_legal rem hok⟩, by decide⟩
  rintro rfl
  exact txSel_zero htop

end Sys2Proof.Machine
end

