-- ==== Sys2Proof/Proofs/Timers.lean ====
section
/-!
PROOF. The timers (R137): what arming, one tick and any number of ticks make of a timer, and when it is expired.
-/

namespace Sys2Proof.Machine

section
variable (t : Timer) {limit : Word}

/-! ### Arming and disarming -/

theorem Timer.arm_finite (h : limit ≠ infTimeout) : t.arm limit = { armed := true, count := limit } := if_neg h

theorem Timer.arm_infTimeout : t.arm infTimeout = t.disarm := rfl

theorem Timer.expired_iff : t.expired = true ↔ t.armed = true ∧ t.count = 0#32 := by simp [Timer.expired]

theorem Timer.expired_disarm : t.disarm.expired = false := rfl

/-! ### One tick -/

theorem Timer.tick_running (ha : t.armed = true) (hc : t.count ≠ 0#32) : t.tick = { t with count := t.count - 1#32 } := by
  simp [Timer.tick, ha, hc]

theorem Timer.tick_stopped (h : t.armed = false ∨ t.count = 0#32) : t.tick = t := by
  rcases h with h | h <;> simp [Timer.tick, h]

@[simp] theorem Timer.tick_armed : t.tick.armed = t.armed := by
  unfold Timer.tick
  split <;> rfl

/-- The subtraction of natural numbers stops at 0, as the tick of an armed timer does. -/
theorem Timer.tick_count (ha : t.armed = true) : t.tick.count.toNat = t.count.toNat - 1 := by
  by_cases hc : t.count = 0#32
  · rw [t.tick_stopped (.inr hc), hc]
    rfl
  · rw [t.tick_running ha hc]
    bv_omega

/-! ### Any number of ticks -/

theorem Timer.tick_iterate_armed (n : Nat) : (Timer.tick^[n] t).armed = t.armed := by
  induction n with
  | zero => rfl
  | succ n ih => rw [Function.iterate_succ_apply', Timer.tick_armed, ih]

theorem Timer.tick_iterate_count (n : Nat) (ha : t.armed = true) :
    (Timer.tick^[n] t).count.toNat = t.count.toNat - n := by
  induction n with
  | zero => rfl
  | succ n ih =>
    rw [Function.iterate_succ_apply', Timer.tick_count _ ((t.tick_iterate_armed n).trans ha), ih, Nat.sub_sub]

theorem Timer.tick_iterate_disarm (n : Nat) : Timer.tick^[n] t.disarm = t.disarm :=
  Function.iterate_fixed (t.disarm.tick_stopped (.inl rfl)) n

theorem Timer.expired_iterate_disarm (n : Nat) : (Timer.tick^[n] t.disarm).expired = false := by
  rw [Timer.tick_iterate_disarm, Timer.expired_disarm]

/-- The count runs down from the limit, so it is 0 exactly from the limit's tick on. -/
theorem Timer.expired_iterate_arm (n : Nat) (h : limit ≠ infTimeout) :
    (Timer.tick^[n] (t.arm limit)).expired = true ↔ limit.toNat ≤ n := by
  have hcount := Timer.tick_iterate_count { armed := true, count := limit } n rfl
  rw [t.arm_finite h, Timer.expired_iff, Timer.tick_iterate_armed, ← BitVec.toNat_inj, hcount]
  simp [Nat.sub_eq_zero_iff_le]

end

/-- Settles O12. -/
theorem timersCountTicks : Obligations.TimersCountTicks :=
  ⟨fun t _ h => t.arm_finite h, fun t => ⟨t.arm_infTimeout, rfl, t.expired_iff⟩, fun t => ⟨t.tick_running, t.tick_stopped⟩,
    fun t _ n h => t.expired_iterate_arm n h, fun t n => t.expired_iterate_disarm n,
    fun t n => ⟨t.expired_iterate_disarm n, t.tick_iterate_disarm n⟩, fun _ => rfl⟩

end Sys2Proof.Machine
end

