-- ==== Sys2Proof/Proofs/SharedUpdates.lean ====
section
/-!
PROOF. The gating of the interrupt sources (R140, R311) with the dispatch steps of the engine that it rules (R251, R259,
R265), and the atomic read-modify-writes of the shared state (R138, R139, R142, R143).
-/

namespace Sys2Proof.Machine

section
variable {s : State}

/-! ### The gated cause and `irq` -/

theorem irq_iff : irq s = true ↔ gatedCause s ≠ 0#3 := decide_eq_true_iff

theorem irq_of_masked (h : s.drv.ie = 0#3) : irq s = false := by simp [irq, gatedCause, h]

/-- The peripheral gates with its own copy of the mask (R44). -/
theorem pendingCause_eq_gatedCause (h : s.per.pmask = s.drv.ie) : pendingCause s = gatedCause s := by
  rw [pendingCause, gatedCause, h]

theorem hasRx_rawCond : hasRx (rawCond s.cfg s.per) = true ↔
    s.per.rxTrig.toNat ≤ s.per.rxFifo.length ∨ (1 ≤ s.per.rxFifo.length ∧ s.per.rxStale = true) := by
  simp [rawCond, rawRx]

theorem hasTx_rawCond :
    hasTx (rawCond s.cfg s.per) = true ↔ s.per.txTrig.toNat ≤ s.cfg.txDepth - s.per.txFifo.length := by
  simp [rawCond, rawTx]

theorem hasSt_rawCond : hasSt (rawCond s.cfg s.per) = true ↔ s.cfg.hasLineStatus = true ∧ s.per.hwerr ≠ 0#4 := by
  simp [rawCond, rawSt]

/-! ### A source whose enable bit is 0 is not in the cause -/

theorem pendingCause_disabled (source : Nat) (hm : s.per.pmask = s.drv.ie) (h : s.drv.ie.getLsbD source = false) :
    (pendingCause s).getLsbD source = false := by
  rw [pendingCause_eq_gatedCause hm, gatedCause, BitVec.getLsbD_and, h, Bool.and_false]

/-! ### The dispatch steps -/

/-- In S0 and S1, a section whose bit is not in the cause is skipped: no mark is set. -/
theorem isrDispatch_skip {hit : BitVec 3 → Bool} (mark : IsrMark) (enter skip : IsrPhase)
    (h : hit (pendingCause s) = false) :
    isrDispatch s hit mark enter skip =
      (priIntSource s).1.setIsr { s.isr with cause := pendingCause s, phase := skip } := by
  simp only [isrDispatch, priIntSource, h, Bool.false_eq_true, if_false]
  rfl

/-- In S2, the return. -/
theorem isrS2_skip (h : hasSt (pendingCause s) = false) :
    isrS2 s = .next (respondIsr ((priIntSource s).1.setIsr { s.isr with cause := pendingCause s })) := by
  simp [isrS2, priIntSource, h]

theorem exec_service_s0 (hf : s.drv.fatal = false) (hp : s.isr.phase = .s0) : exec .serviceInterrupt s = isrS0 s := by
  simp [exec, execServiceInterrupt, liveStep_ready _ hf, hp]

theorem exec_service_s1 (hf : s.drv.fatal = false) (hp : s.isr.phase = .s1) : exec .serviceInterrupt s = isrS1 s := by
  simp [exec, execServiceInterrupt, liveStep_ready _ hf, hp]

theorem exec_service_s2 (hf : s.drv.fatal = false) (hp : s.isr.phase = .s2) : exec .serviceInterrupt s = isrS2 s := by
  simp [exec, execServiceInterrupt, liveStep_ready _ hf, hp]

end

/-- Settles O13. -/
theorem gatingMasksSources : Obligations.GatingMasksSources := by
  refine ⟨fun _ => ⟨irq_iff, rfl, hasRx_rawCond, hasTx_rawCond, hasSt_rawCond⟩, fun _ _ => rfl,
    fun _ hm => pendingCause_eq_gatedCause hm, fun _ h => irq_of_masked h, ?_, ?_, ?_⟩ <;> intro s hm hf hp hoff
  · rw [exec_service_s0 hf hp, isrS0, isrDispatch_skip _ _ _ (pendingCause_disabled 0 hm hoff)]
    exact ⟨_, rfl, rfl, rfl⟩
  · rw [exec_service_s1 hf hp, isrS1, isrDispatch_skip _ _ _ (pendingCause_disabled 1 hm hoff)]
    exact ⟨_, rfl, rfl, rfl⟩
  · rw [exec_service_s2 hf hp, isrS2_skip (pendingCause_disabled 2 hm hoff)]
    exact ⟨_, rfl, rfl, rfl⟩

/-! ### The read-modify-writes -/

section
variable (s : State)

theorem ieSet_eq (m : BitVec 3) : ieSet s m =
    { s with
      drv := { s.drv with ie := s.drv.ie ||| m }, per := { s.per with pmask := s.drv.ie ||| m }
      pri := { s.pri with req := encode (.priSetIe (s.drv.ie ||| m)), rsp := 0#32 } } := rfl

theorem ieClr_eq (m : BitVec 3) : ieClr s m =
    { s with
      drv := { s.drv with ie := s.drv.ie &&& ~~~m }, per := { s.per with pmask := s.drv.ie &&& ~~~m }
      pri := { s.pri with req := encode (.priSetIe (s.drv.ie &&& ~~~m)), rsp := 0#32 } } := rfl

theorem casWakeRequest_requested (h : s.drv.rxWakeRequested = true) :
    casWakeRequest s = ({ s with drv := { s.drv with rxWakeRequested := false } }, true) := by
  rw [casWakeRequest, h]
  rfl

/-- With no request standing, the value the swap writes is the one the flag has. -/
theorem casWakeRequest_none (h : s.drv.rxWakeRequested = false) : casWakeRequest s = (s, false) := by
  rw [casWakeRequest, ← h]
  rfl

theorem transmitDone_eq (d : Peripheral) : transmitDone d = decide (d.txFifo = []) := by
  cases h : d.txFifo <;> simp [transmitDone, h]

/-- The status read is one exchange on the PRI with the flags kept in `err_mask`. -/
theorem pStatus_eq : pStatus s =
    ({ s with
        per := { s.per with hwerr := 0#4 }
        drv := { s.drv with errMask := s.drv.errMask ||| (if s.cfg.hasLineStatus then s.per.hwerr else 0#4) }
        pri := { s.pri with req := 0x20000000#32, rsp := statusRsp (peripheralStatus s.cfg s.per) } },
      peripheralStatus s.cfg s.per) := rfl

end

/-- Settles O14. -/
theorem atomicUpdates : Obligations.AtomicUpdates := by
  refine ⟨ieSet_eq, ieClr_eq, casWakeRequest_requested, casWakeRequest_none, fun s => ⟨_, pStatus_eq s, ?_⟩, fun _ => rfl⟩
  rw [peripheralStatus, transmitDone_eq]

end Sys2Proof.Machine
end

