-- ==== Sys2Proof/Proofs/RingQueue.lean ====
section
/-!
PROOF. The ring as a queue: the enqueue law over the engine's steps I2 to I4 (R132), and the dequeue of `READ`'s COPY into
host memory (R133, R180).
-/

namespace Sys2Proof.Machine

/-! ### Slots of the ring -/

section
variable {cap nr nw : Word} {j k : Nat}

/-- Fewer than `cap` steps round the ring do not come back to a slot. -/
theorem slotAt_injective (hj : j < cap.toNat) (hk : k < cap.toNat) (h : slotAt cap nr j = slotAt cap nr k) : j = k :=
  (Nat.ModEq.add_left_cancel' nr.toNat h).eq_of_lt_of_lt hj hk

/-- No unread byte stands in the slot the next enqueue writes. -/
theorem slotAt_ne_nextWrite (h2 : 2 ≤ cap.toNat) (hr : nr.toNat < cap.toNat) (hw : nw.toNat < cap.toNat)
    (hk : k < ringLen cap nr nw) : slotAt cap nr k ≠ nw.toNat := by
  intro h
  rw [← slotAt_ringLen h2 hr hw] at h
  have hlen := ringLen_lt h2 hr hw
  have := slotAt_injective (by omega) hlen h
  omega

end

/-! ### Publishing a byte at the tail (R132) -/

/-- A byte stored at the old `next_write` and published by its successor joins the unread bytes at the tail. -/
theorem ringContents_enqueue {s t : State} {b : Byte} (h2 : 2 ≤ s.drv.cap.toNat) (hr : s.drv.nextRead.toNat < s.drv.cap.toNat)
    (hw : s.drv.nextWrite.toNat < s.drv.cap.toNat) (hroom : idxNext s.drv.cap s.drv.nextWrite ≠ s.drv.nextRead)
    (hdrv : t.drv = { s.drv with nextWrite := idxNext s.drv.cap s.drv.nextWrite })
    (hbuf : ∀ j, bufSlot t j = if j = s.drv.nextWrite.toNat then b else bufSlot s j) :
    ringContents t = ringContents s ++ [b] := by
  have hlen : unread t = unread s + 1 := by rw [unread, hdrv]; exact ringLen_idxNext h2 hr hw hroom
  have hlast : slotAt s.drv.cap s.drv.nextRead (unread s) = s.drv.nextWrite.toNat := slotAt_ringLen h2 hr hw
  rw [ringContents, hlen, List.range_succ, List.map_append, List.map_singleton, ringContents]
  simp only [hdrv, hbuf, hlast, if_true, List.append_cancel_right_eq]
  refine List.map_congr_left fun k hk => if_neg ?_
  exact slotAt_ne_nextWrite h2 hr hw (List.mem_range.mp hk)

/-! ### The engine's steps I2 to I4 (R253 to R255) -/

section
variable {s : State}

/-- A run of one instruction begins with one step. -/
theorem execTimes_step {i : Instr} {t : State} {k : Nat} {r : Result} (h : exec i s = .next t)
    (hrest : execTimes i k t = r) : execTimes i (k + 1) s = r := by
  rw [execTimes, h]
  exact hrest

theorem execTimes_one {i : Instr} {t : State} (h : exec i s = .next t) : execTimes i 1 s = .next t :=
  execTimes_step h rfl

theorem exec_service_i2_full (hf : s.drv.fatal = false) (hp : s.isr.phase = .i2)
    (h : idxNext s.drv.cap s.drv.nextWrite = s.drv.nextRead) :
    exec .serviceInterrupt s =
      .next (s.setIsr { s.isr with nw1 := s.drv.nextRead, stored := false, phase := .i3f }) := by
  simp [exec, execServiceInterrupt, liveStep_ready _ hf, hp, isrI2, h]

theorem exec_service_i2_room (hf : s.drv.fatal = false) (hp : s.isr.phase = .i2)
    (h : idxNext s.drv.cap s.drv.nextWrite ≠ s.drv.nextRead) :
    exec .serviceInterrupt s =
      .next (s.setIsr { s.isr with nw1 := idxNext s.drv.cap s.drv.nextWrite, stored := true, phase := .i3 }) := by
  simp [exec, execServiceInterrupt, liveStep_ready _ hf, hp, isrI2, h]

theorem exec_service_i3f (hf : s.drv.fatal = false) (hp : s.isr.phase = .i3f) :
    exec .serviceInterrupt s = .next (isrGo (s.setDrv { s.drv with overflow := true }) .i7) := by
  simp [exec, execServiceInterrupt, liveStep_ready _ hf, hp, isrI3F]

theorem exec_service_i3 (hf : s.drv.fatal = false) (hp : s.isr.phase = .i3)
    (hcap : s.drv.nextWrite.toNat < s.cfg.capMax) :
    exec .serviceInterrupt s =
      .next (isrGo (s.setBuf (Memory.put s.buf s.drv.nextWrite.toNat s.isr.byte)) .i4) := by
  simp [exec, execServiceInterrupt, liveStep_ready _ hf, hp, isrI3, bufPut, hcap]

theorem exec_service_i4 (hf : s.drv.fatal = false) (hp : s.isr.phase = .i4) :
    exec .serviceInterrupt s = .next (isrGo (s.setDrv { s.drv with nextWrite := s.isr.nw1 }) .i5) := by
  simp [exec, execServiceInterrupt, liveStep_ready _ hf, hp, isrI4]

end

/-- Settles O39. -/
theorem enqueueLaw : Obligations.EnqueueLaw := by
  constructor
  · intro s hf hp hfull
    have hrun := execTimes_step (exec_service_i2_full hf hp hfull) <| execTimes_one (exec_service_i3f hf rfl)
    exact ⟨_, hrun, rfl, rfl, rfl, rfl⟩
  · intro s hf hp hroom h2 hcap hr hw
    have hstored := fun j => bufSlot_put s s.drv.nextWrite.toNat j s.isr.byte
    have hrun := execTimes_step (exec_service_i2_room hf hp hroom) <|
      execTimes_step (exec_service_i3 hf rfl (hw.trans_le hcap)) <| execTimes_one (exec_service_i4 hf rfl)
    exact ⟨_, hrun, rfl, rfl, hstored, ringContents_enqueue h2 hr hw hroom rfl hstored⟩

/-! ### COPY's loop (R133, R180) -/

section
variable {s t : State} {n k : Nat}

theorem Memory.wf_rising {m : Memory} (h : Memory.wf m = true) : Memory.risingFrom 0 m = true := by
  simp only [Memory.wf, Bool.and_eq_true] at h
  exact h.1.1

/-- One round of the loop: the slot's byte is stored, and the rest of the loop runs. -/
theorem copyBytes_succ_cases (h : copyBytes (n + 1) k s = some t) :
    copyBytes n (k + 1)
      (memWrite s (s.rx.a0 + BitVec.ofNat 32 k) (bufSlot s (slotAt s.drv.cap s.drv.nextRead k))) = some t := by
  simp only [copyBytes, bufGet] at h
  split at h
  · next b hb =>
    split at hb
    · cases hb
      exact h
    · cases hb
  · cases h

/-- Offsets below 2^32 give distinct addresses, also where the range wraps at the top of host memory. -/
theorem add_ofNat_ne (a : Word) {i j : Nat} (hij : i < j) (hj : j < 2 ^ 32) :
    a + BitVec.ofNat 32 i ≠ a + BitVec.ofNat 32 j := by
  bv_omega

/-- The loop leaves every byte it does not name. -/
theorem memRead_copyBytes_outside {x : Word} (h : copyBytes n k s = some t) (hm : Memory.wf s.hostMem = true)
    (hx : ∀ j, k ≤ j → j < k + n → x ≠ s.rx.a0 + BitVec.ofNat 32 j) : memRead t x = memRead s x := by
  induction n generalizing k s with
  | zero => cases h; rfl
  | succ n ih =>
    rw [ih (copyBytes_succ_cases h) (memWrite_wf _ _ hm) fun j hk hj => hx j (by omega) (by omega),
      memRead_memWrite (Memory.wf_rising hm), if_neg (hx k (by omega) (by omega))]

/-- Byte `j` of the range the loop writes is slot `(next_read + j) mod cap`: it is stored in its own round, and the later
rounds write other addresses. -/
theorem memRead_copyBytes_inside (h : copyBytes n k s = some t) (hm : Memory.wf s.hostMem = true) (hlen : k + n ≤ 2 ^ 32)
    {j : Nat} (hk : k ≤ j) (hj : j < k + n) :
    memRead t (s.rx.a0 + BitVec.ofNat 32 j) = bufSlot s (slotAt s.drv.cap s.drv.nextRead j) := by
  induction n generalizing k s with
  | zero => omega
  | succ n ih =>
    have hrest := copyBytes_succ_cases h
    rcases Nat.eq_or_lt_of_le hk with rfl | hlt
    · rw [memRead_copyBytes_outside hrest (memWrite_wf _ _ hm) fun i hi hn => add_ofNat_ne s.rx.a0 (by omega) (by omega),
        memRead_memWrite (Memory.wf_rising hm), if_pos rfl]
    · exact (ih hrest (memWrite_wf _ _ hm) (by omega) hlt (by omega) :)

end

/-! ### The step COPY of `READ` (R180) -/

section
variable {s : State}

theorem exec_read_copy (ha : s.appReady = true) (hp : s.rx.phase = .copy) : exec .read s = rxCopy s := by
  simp [exec, execRead, rxStep_busy, appStep_ready _ ha, hp]

/-- With the ring inside the RAM, COPY's only effects are host memory, `rd_n` and the phase. -/
theorem rxCopy_eq (h2 : 2 ≤ s.drv.cap.toNat) (hcap : s.drv.cap.toNat ≤ s.cfg.capMax) :
    ∃ m, copyBytes (copyCount s) 0 s = some (s.setHostMem m) ∧
      rxCopy s = .next ((s.setHostMem m).setRx { s.rx with rdN := BitVec.ofNat 32 (copyCount s), phase := .adv }) := by
  obtain ⟨u, hu⟩ := Option.isSome_iff_exists.mp
    (copyBytes_isSome (copyCount s) 0 s fun j => (slotAt_lt j h2).trans_le hcap)
  obtain ⟨m, rfl, -⟩ := copyBytes_frame _ _ _ _ hu
  exact ⟨m, hu, by rw [rxCopy, hu]; rfl⟩

/-- A dequeue takes a byte at least and never `cap` of them. -/
theorem copyCount_range (h2 : 2 ≤ s.drv.cap.toNat) (hr : s.drv.nextRead.toNat < s.drv.cap.toNat)
    (hw : s.rx.nwSnap.toNat < s.drv.cap.toNat) (hne : s.rx.nwSnap ≠ s.drv.nextRead) (hlen : s.rx.a1 ≠ 0#32) :
    1 ≤ copyCount s ∧ copyCount s < s.drv.cap.toNat := by
  have hpos := ringLen_pos h2 hr hne
  have hlt := ringLen_lt h2 hr hw
  have ha1 : s.rx.a1.toNat ≠ 0 := fun h => hlen (BitVec.eq_of_toNat_eq h)
  unfold copyCount takeCount
  omega

end

/-- Settles O23. -/
theorem readCopiesTheRing : Obligations.ReadCopiesTheRing := by
  intro s n hm ha hp h2 hcap hr hw hne hlen hn
  have hcount : n = copyCount s := by rw [hn, copyCount, takeCount, ringLen_eq_mod hr hw]
  obtain ⟨hone, hlt⟩ := copyCount_range h2 hr hw hne hlen
  obtain ⟨m, hcopy, hstep⟩ := rxCopy_eq h2 hcap
  have hword : copyCount s < 2 ^ 32 := hlt.trans s.drv.cap.isLt
  rw [exec_read_copy ha hp, hcount]
  refine ⟨hone, _, hstep, rfl, Nat.mod_eq_of_lt hword, fun k hk => ?_, fun x hx => ?_⟩
  · exact (memRead_copyBytes_inside hcopy hm (by omega) (Nat.zero_le k) (by omega) :)
  · exact (memRead_copyBytes_outside hcopy hm fun k _ hk => hx k (by omega) :)

end Sys2Proof.Machine
end

