-- ==== Sys2Proof/Proofs/LenAndEnableRx.lean ====
section
/-!
PROOF. `LEN` as the number of unread bytes modulo `cap` (R172), and the steps of `ENABLE_RX`: issue, EN1 with its three fatal
checks, EN2 (R170).
-/

namespace Sys2Proof.Machine

section
variable {s : State}

/-! ### `LEN` (R172) -/

theorem cfgStep_ready {t : State} (ha : s.appReady = true) : cfgStep s t = .next t := appStep_ready _ ha

theorem exec_len_disabled (ha : s.appReady = true) (hoff : s.drv.rxEnabled = false) :
    exec .len s = .next (respondCfg s .ok 0#4 0#8 0#32) := by
  simp [exec, execLen, cfgStep_ready ha, hoff]

theorem exec_len_enabled (ha : s.appReady = true) (hon : s.drv.rxEnabled = true) :
    exec .len s = .next (respondCfg s .ok 0#4 0#8 (BitVec.ofNat 32 (unread s))) := by
  simp [exec, execLen, cfgStep_ready ha, hon, unread]

/-- A count below `cap` is a count that the word `CFN` holds. -/
theorem unread_ofNat_toNat (h2 : 2 ≤ s.drv.cap.toNat) (hr : s.drv.nextRead.toNat < s.drv.cap.toNat)
    (hw : s.drv.nextWrite.toNat < s.drv.cap.toNat) : (BitVec.ofNat 32 (unread s)).toNat = unread s :=
  Nat.mod_eq_of_lt ((ringLen_lt h2 hr hw).trans s.drv.cap.isLt)

end

/-- Settles O17: `CFN` is `unread`, which is the difference modulo `cap` and stays below `cap`. -/
theorem lenResult : Obligations.LenResult := by
  refine ⟨fun s ha hoff => exec_len_disabled ha hoff, fun s ha hon h2 hr hw => ⟨_, exec_len_enabled ha hon, ?_⟩⟩
  rw [unread_ofNat_toNat h2 hr hw]
  exact ⟨ringLen_eq_mod hr hw, Nat.le_sub_one_of_lt (ringLen_lt h2 hr hw)⟩

/-! ### The receive trigger level of the configuration (R5, R305) -/

/-- The constraints of R5 that bound the level. -/
theorem rxTrig_range {p : Config.Params} (h : p.ok = true) : 1 ≤ p.rxTrig ∧ p.rxTrig ≤ p.rxDepth ∧ p.rxDepth ≤ 255 := by
  simp only [Config.Params.ok, Bool.and_eq_true, decide_eq_true_eq] at h
  omega

/-- The level fits the request's 8-bit operand. -/
theorem rxTrig_toNat {p : Config.Params} (h : p.ok = true) : (BitVec.ofNat 8 p.rxTrig).toNat = p.rxTrig := by
  obtain ⟨-, hdepth, hbyte⟩ := rxTrig_range h
  rw [BitVec.toNat_ofNat, Nat.mod_eq_of_lt (by omega)]

theorem rxTrig_legal {p : Config.Params} (h : p.ok = true) : rxLevelOk p (BitVec.ofNat 8 p.rxTrig) = true := by
  obtain ⟨hone, hdepth, -⟩ := rxTrig_range h
  simp [rxLevelOk, rxTrig_toNat h, hone, hdepth]

/-- The request word of a level: the request's code with the level in the low byte. -/
theorem encode_priSetRxTrig_or (n : BitVec 8) : encode (.priSetRxTrig n) = 0x50000000#32 ||| n.setWidth 32 := by
  revert n
  decide

theorem encode_rxTrig {p : Config.Params} (h : p.ok = true) :
    encode (.priSetRxTrig (BitVec.ofNat 8 p.rxTrig)) = 0x50000000#32 ||| BitVec.ofNat 32 p.rxTrig := by
  rw [encode_priSetRxTrig_or, ← BitVec.ofNat_toNat, rxTrig_toNat h]

/-! ### `ENABLE_RX` (R170) -/

section
variable {s : State}

theorem exec_enableRx_idle (hf : s.drv.fatal = false) (hp : s.rx.phase = .idle) :
    exec .enableRx s = .next (issueRx s (encode .enableRx) .en1) := by
  rw [exec, execEnableRx, rxStep_idle _ _ hp, liveStep_ready _ hf]

theorem exec_enableRx_en1 (ha : s.appReady = true) (hp : s.rx.phase = .en1) : exec .enableRx s = rxEN1 s := by
  simp [exec, execEnableRx, rxStep_busy, appStep_ready _ ha, hp]

theorem exec_enableRx_en2 (ha : s.appReady = true) (hp : s.rx.phase = .en2) : exec .enableRx s = rxEN2 s := by
  simp [exec, execEnableRx, rxStep_busy, appStep_ready _ ha, hp]

theorem rxEN1_enabled (hon : s.drv.rxEnabled = true) : rxEN1 s = .next (raiseFatal s .rxAlreadyEnabled) := by
  simp [rxEN1, hon]

theorem rxEN1_tooSmall (hoff : s.drv.rxEnabled = false) (h : s.rx.a0.toNat < 2) :
    rxEN1 s = .next (raiseFatal s .capacityTooSmall) := by
  simp [rxEN1, hoff, h]

theorem rxEN1_tooLarge (hoff : s.drv.rxEnabled = false) (h2 : 2 ≤ s.rx.a0.toNat) (h : s.cfg.capMax < s.rx.a0.toNat) :
    rxEN1 s = .next (raiseFatal s .capacityTooLarge) := by
  simp [rxEN1, hoff, h, Nat.not_lt.mpr h2]

/-- With an accepted capacity and a legal configuration, the request for the trigger level is not refused. -/
theorem rxEN1_accepted (hok : s.cfg.ok = true) (hoff : s.drv.rxEnabled = false) (h2 : 2 ≤ s.rx.a0.toNat)
    (hmax : s.rx.a0.toNat ≤ s.cfg.capMax) :
    rxEN1 s = .next (rxGo
      (priExchange ((rxEnable s).setPer { s.per with rxTrig := BitVec.ofNat 8 s.cfg.rxTrig })
        (.priSetRxTrig (BitVec.ofNat 8 s.cfg.rxTrig)) 0#32) .en2) := by
  have hset : priSetRxTrig (rxEnable s) (BitVec.ofNat 8 s.cfg.rxTrig) = some _ := if_pos (rxTrig_legal hok)
  simp only [rxEN1, hoff, Bool.false_eq_true, if_false, Nat.not_lt.mpr h2, Nat.not_lt.mpr hmax, hset]
  rfl

/-- The mask of R170 as the literals of R109. -/
theorem rxSources_eq (p : Config.Params) : rxSources p = if p.hasLineStatus then 5#3 else 1#3 := rfl

end

/-- Settles O18: one clause per outcome of a label, the fatal checks of EN1 in their order. -/
theorem enableRxSteps : Obligations.EnableRxSteps := by
  refine ⟨fun s hf hp => exec_enableRx_idle hf hp, fun s ha hp hon => ?_, fun s ha hp hoff hlow => ?_,
    fun s ha hp hoff h2 hhigh => ?_, fun s ha hp hok hoff h2 hmax => ?_, fun s m ha hp hm => ?_⟩
  · rw [exec_enableRx_en1 ha hp, rxEN1_enabled hon]
    rfl
  · rw [exec_enableRx_en1 ha hp, rxEN1_tooSmall hoff hlow]
    rfl
  · rw [exec_enableRx_en1 ha hp, rxEN1_tooLarge hoff h2 hhigh]
    rfl
  · rw [exec_enableRx_en1 ha hp, rxEN1_accepted hok hoff h2 hmax, ← encode_rxTrig hok]
    rfl
  · rw [exec_enableRx_en2 ha hp, rxEN2, hm, ← rxSources_eq]
    rfl

end Sys2Proof.Machine
end

