-- ==== Sys2Proof/Proofs/ReadSteps.lean ====
section
/-!
PROOF. The steps `READ` and `READ_BYTE` share: the wait protocol before the sleep (R174 to R177), and the completion FIN1 and
FIN2 (R182).
-/

namespace Sys2Proof.Machine

/-- The byte a read responds with: none (0) of `READ`, `rd_byte` of `READ_BYTE` (R182). -/
def RespondsWith (i : Instr) (b : Byte) (s : State) : Prop :=
  (i = .read ∧ b = 0#8) ∨ (i = .readByte ∧ b = s.rx.rdByte)

section
variable {i : Instr} {b : Byte} {s : State}

theorem exists_respondsWith (s : State) (hi : i = .read ∨ i = .readByte) : ∃ b, RespondsWith i b s :=
  hi.elim (fun h => ⟨_, .inl ⟨h, rfl⟩⟩) (fun h => ⟨_, .inr ⟨h, rfl⟩⟩)

/-! ### What a read runs at a shared label (R173, R182) -/

/-- Away from the issue and from COPY, the two reads are the same machine. -/
theorem exec_eq_rxShared {p : RxPhase} (hb : RespondsWith i b s) (ha : s.appReady = true) (hp : s.rx.phase = p)
    (hlabel : p ≠ .idle ∧ p ≠ .copy) : exec i s = rxShared b s := by
  subst hp
  obtain ⟨hidle, hcopy⟩ := hlabel
  rcases hb with ⟨rfl, rfl⟩ | ⟨rfl, rfl⟩
  · rw [exec, execRead, rxStep_busy _ _ hidle, appStep_ready _ ha]
    split
    · contradiction
    · rfl
  · rw [exec, execReadByte, rxStep_busy _ _ hidle, appStep_ready _ ha]
    split
    · contradiction
    · rfl

/-- A shared step that does not look at the byte is the same for both reads. -/
theorem exec_of_rxShared {p : RxPhase} {r : Result} (hi : i = .read ∨ i = .readByte) (ha : s.appReady = true)
    (hp : s.rx.phase = p) (hlabel : p ≠ .idle ∧ p ≠ .copy) (hr : ∀ b, rxShared b s = r) : exec i s = r := by
  obtain ⟨b, hb⟩ := exists_respondsWith s hi
  rw [exec_eq_rxShared hb ha hp hlabel, hr]

theorem rxShared_p1 (hp : s.rx.phase = .p1) (b : Byte) : rxShared b s = rxP1 s := by simp only [rxShared, hp]

theorem rxShared_p2a (hp : s.rx.phase = .p2a) (b : Byte) : rxShared b s = rxP2A s := by simp only [rxShared, hp]

theorem rxShared_p2b (hp : s.rx.phase = .p2b) (b : Byte) : rxShared b s = rxP2B s := by simp only [rxShared, hp]

theorem rxShared_p3 (hp : s.rx.phase = .p3) (b : Byte) : rxShared b s = rxP3 s := by simp only [rxShared, hp]

theorem rxShared_p3c (hp : s.rx.phase = .p3c) (b : Byte) : rxShared b s = rxP3C s := by simp only [rxShared, hp]

theorem rxShared_fin1 (hp : s.rx.phase = .fin1) (b : Byte) : rxShared b s = rxFIN1 s := by simp only [rxShared, hp]

theorem rxShared_fin2 (hp : s.rx.phase = .fin2) (b : Byte) : rxShared b s = rxFIN2 b s := by simp only [rxShared, hp]

/-! ### The two looks at the ring, P1 and P3 (R174, R177) -/

theorem rxP1_data (h : s.drv.nextWrite ≠ s.drv.nextRead) :
    rxP1 s = .next (s.setRx { s.rx with nwSnap := s.drv.nextWrite, phase := .copy }) := if_pos h

theorem rxP1_empty (h : s.drv.nextWrite = s.drv.nextRead) : rxP1 s = .next (rxGo s .p2a) := if_neg (not_not.mpr h)

theorem rxP3_data (h : s.drv.nextWrite ≠ s.drv.nextRead) :
    rxP3 s = .next (s.setRx { s.rx with nwSnap := s.drv.nextWrite, phase := .p3c }) := if_pos h

theorem rxP3_empty (h : s.drv.nextWrite = s.drv.nextRead) : rxP3 s = .next (rxGo s .p4) := if_neg (not_not.mpr h)

end

/-- Settles O21: P1 and P3 split on the ring being empty; P2A, P2B and P3C are unconditional. -/
theorem waitProtocolBeforeTheSleep : Obligations.WaitProtocolBeforeTheSleep := by
  intro i s hi ha
  refine ⟨fun hp hdata => ?_, fun hp hempty => ?_, fun hp => ?_, fun hp => ?_, fun hp hdata => ?_, fun hp hempty => ?_,
    fun hp => ?_⟩
  · exact (exec_of_rxShared hi ha hp (by decide) (rxShared_p1 hp)).trans (rxP1_data hdata)
  · exact (exec_of_rxShared hi ha hp (by decide) (rxShared_p1 hp)).trans (rxP1_empty hempty)
  · exact exec_of_rxShared hi ha hp (by decide) (rxShared_p2a hp)
  · exact exec_of_rxShared hi ha hp (by decide) (rxShared_p2b hp)
  · exact (exec_of_rxShared hi ha hp (by decide) (rxShared_p3 hp)).trans (rxP3_data hdata)
  · exact (exec_of_rxShared hi ha hp (by decide) (rxShared_p3 hp)).trans (rxP3_empty hempty)
  · exact exec_of_rxShared hi ha hp (by decide) (rxShared_p3c hp)

/-! ### The completion (R182) -/

/-- Field `ERR` of a read's response: a hardware error hides an overflow. -/
theorem errCode_readErr (mask : BitVec 4) (ovf : Bool) :
    errCode (readErr mask ovf) = if mask ≠ 0#4 then 3#4 else if ovf then 2#4 else 0#4 := by
  unfold readErr
  split
  · rfl
  · split <;> rfl

/-- FIN2's whole effect: the mask is taken, reported and resolved into `ERR`. -/
theorem rxFIN2_eq (b : Byte) (s : State) : rxFIN2 b s = .next
    { s with
      drv := { s.drv with errMask := 0#4 }
      regs := { s.regs with
        rxRsp := rspWord (errCode (readErr s.drv.errMask s.rx.rdOvf)) s.drv.errMask b, rxN := s.rx.rdN }
      rx := { s.rx with phase := .idle } } := rfl

/-- Settles O25. -/
theorem readCompletion : Obligations.ReadCompletion := by
  intro i b s hb ha
  refine ⟨fun hp => ?_, fun err hp herr => ?_⟩
  · rw [exec_eq_rxShared hb ha hp (by decide), rxShared_fin1 hp]
    rfl
  · rw [exec_eq_rxShared hb ha hp (by decide), rxShared_fin2 hp, rxFIN2_eq, errCode_readErr, ← herr, rspWord]

end Sys2Proof.Machine
end

