-- ==== Sys2Proof/Proofs/WriteSteps.lean ====
section
/-!
PROOF. The steps the three write commands share: the issue W0 (R212, R222, R223), the fast fill W1S and W1P (R213), the staging
and arming labels W3 to W6 and the abandoning W8 (R214 to R219), and the accounting W10 in a good state (R221).
-/

namespace Sys2Proof.Machine

/-- The length `L` of the payload a write command is issued with: `A1` of `WRITE` and `WRITE_STRING`, 1 of `WRITE_BYTE`
(R212, R222, R223). -/
def IssuesWrite (i : Instr) (len : Word) (s : State) : Prop :=
  (i = .write ∧ len = s.regs.txA1) ∨ (i = .writeString ∧ len = s.regs.txA1) ∨ (∃ b, i = .writeByte b ∧ len = 1#32)

section
variable {i : Instr} {len : Word} {s : State}

/-! ### What a write command runs (R114, R116) -/

/-- On the idle port the three commands issue alike. -/
theorem exec_write_idle (hi : IssuesWrite i len s) (hf : s.drv.fatal = false) (hp : s.tx.phase = .idle) :
    exec i s = txW0 (encode i) len s := by
  rcases hi with ⟨rfl, rfl⟩ | ⟨rfl, rfl⟩ | ⟨b, rfl, rfl⟩
  · rw [exec, execWrite, txStep_idle _ _ hp, liveStep_ready _ hf]
  · rw [exec, execWriteString, txStep_idle _ _ hp, liveStep_ready _ hf]
  · rw [exec, execWriteByte, txStep_idle _ _ hp, liveStep_ready _ hf]

/-- In flight, a write command's step depends on the command through its payload's form alone. -/
theorem exec_write_gated (hw : isWrite (some i) = true) (hp : s.tx.phase ≠ .idle) :
    exec i s = appStep s (txWriteStep (formOf (some i)) s) := by
  cases i
  case write => exact txStep_busy _ _ hp
  case writeString => exact txStep_busy _ _ hp
  case writeByte b => exact txStep_busy _ _ hp
  all_goals cases hw

theorem exec_write_busy {p : TxPhase} (hw : isWrite (some i) = true) (ha : s.appReady = true) (hp : s.tx.phase = p)
    (hbusy : p ≠ .idle) : exec i s = txWriteStep (formOf (some i)) s := by
  rw [exec_write_gated hw (hp ▸ hbusy), appStep_ready _ ha]

theorem isWrite_of_memory (hi : i = .write ∨ i = .writeString) : isWrite (some i) = true ∧ formOf (some i) = .memory := by
  rcases hi with rfl | rfl
  · exact ⟨rfl, rfl⟩
  · exact ⟨rfl, rfl⟩

/-! ### The step each label names -/

section
variable (form : PayloadForm)

theorem txWriteStep_w1s (hp : s.tx.phase = .w1s) : txWriteStep form s = txW1S s := by simp only [txWriteStep, hp]

theorem txWriteStep_w1p (hp : s.tx.phase = .w1p) : txWriteStep form s = txW1P form s := by simp only [txWriteStep, hp]

theorem txWriteStep_w3 (hp : s.tx.phase = .w3) : txWriteStep form s = txW3 form s := by simp only [txWriteStep, hp]

theorem txWriteStep_w4 (hp : s.tx.phase = .w4) : txWriteStep form s = txW4 form s := by simp only [txWriteStep, hp]

theorem txWriteStep_w5 (hp : s.tx.phase = .w5) : txWriteStep form s = txW5 s := by simp only [txWriteStep, hp]

theorem txWriteStep_w6 (hp : s.tx.phase = .w6) : txWriteStep form s = txW6 s := by simp only [txWriteStep, hp]

theorem txWriteStep_w8 (hp : s.tx.phase = .w8) : txWriteStep form s = txW8 s := by simp only [txWriteStep, hp]

theorem txWriteStep_w10 (hp : s.tx.phase = .w10) : txWriteStep form s = txW10 s := by simp only [txWriteStep, hp]

end

/-! ### The issue, W0 (R212) -/

section
variable (w : Word)

theorem txW0_disabled (hoff : s.drv.txEnabled = false) : txW0 w len s = .refused .txDisabled := by simp [txW0, hoff]

/-- An empty payload is answered at once, with `BUSY` already back at 0. -/
theorem txW0_empty (hon : s.drv.txEnabled = true) (hlen : len = 0#32) : txW0 w len s = .next
    { s with
      regs := { s.regs with txRsp := 0#32, txN := 0#32 }
      tx := { s.tx with
        op := opcField w, imm := immField w, a0 := s.regs.txA0, a1 := s.regs.txA1, i := 0#32, phase := .idle } } := by
  simp only [txW0, hon, Bool.not_true, Bool.false_eq_true, if_false, if_pos hlen]
  rfl

theorem txW0_payload (hon : s.drv.txEnabled = true) (hlen : len ≠ 0#32) : txW0 w len s = .next
    { s with
      regs := { s.regs with txRsp := busyWord, txN := 0#32 }
      tx := { s.tx with
        op := opcField w, imm := immField w, a0 := s.regs.txA0, a1 := s.regs.txA1, i := 0#32, phase := .w1s } } := by
  simp only [txW0, hon, Bool.not_true, Bool.false_eq_true, if_false, if_neg hlen]
  rfl

end

/-! ### The fast fill, W1S and W1P (R213) -/

/-- W1S branches on the FIFO as the status read reports it. -/
theorem txW1S_eq (s : State) : txW1S s = .next
    { s with
      drv := { s.drv with errMask := s.drv.errMask ||| (if s.cfg.hasLineStatus then s.per.hwerr else 0#4) }
      per := { s.per with hwerr := 0#4 }
      pri := { s.pri with req := 0x20000000#32, rsp := statusRsp (peripheralStatus s.cfg s.per) }
      tx := { s.tx with phase := if s.per.txFifo.length = s.cfg.txDepth then .w3 else .w1p } } := by
  simp only [txW1S, pStatus_eq, txGo, State.setTx, peripheralStatus, decide_eq_true_eq]

/-- The byte W1P fetches is byte number `tx_i` of the payload. -/
theorem payloadByte_eq_payloadAt (s : State) (form : PayloadForm) : payloadByte s form = payloadAt s form s.tx.i.toNat := by
  cases form with
  | memory => rw [payloadByte, payloadAt, BitVec.ofNat_toNat, BitVec.setWidth_eq]
  | immediate => rfl

/-- A `store` on a FIFO with room (R301). -/
theorem priStore_room (b : Byte) (hroom : s.per.txFifo.length < s.cfg.txDepth) : priStore s b = some
    { s with
      per := { s.per with txFifo := s.per.txFifo ++ [b] }
      pri := { s.pri with req := 0x10#8 ++ 0#16 ++ b, rsp := 0#32 } } := by
  rw [priStore, if_pos hroom, priExchange, encode_priStore]
  rfl

section
variable (form : PayloadForm)

theorem txW1P_more (hroom : s.per.txFifo.length < s.cfg.txDepth) (hmore : s.tx.i + 1#32 ≠ payloadLen s form) :
    txW1P form s = .next
      { s with
        per := { s.per with txFifo := s.per.txFifo ++ [payloadByte s form] }
        pri := { s.pri with req := 0x10#8 ++ 0#16 ++ payloadByte s form, rsp := 0#32 }
        tx := { s.tx with i := s.tx.i + 1#32, phase := .w1s } } := by
  simp only [txW1P, priStore_room _ hroom, if_neg hmore]
  rfl

theorem txW1P_last (hroom : s.per.txFifo.length < s.cfg.txDepth) (hlast : s.tx.i + 1#32 = payloadLen s form) :
    txW1P form s = .next
      { s with
        per := { s.per with txFifo := s.per.txFifo ++ [payloadByte s form] }
        pri := { s.pri with req := 0x10#8 ++ 0#16 ++ payloadByte s form, rsp := 0#32 }
        regs := { s.regs with txRsp := 0#32, txN := payloadLen s form }
        tx := { s.tx with i := s.tx.i + 1#32, phase := .idle } } := by
  simp only [txW1P, priStore_room _ hroom, if_pos hlast]
  rfl

/-! ### The trigger level, W4 (R215) -/

/-- The request word of a transmit level: the request's code with the level in the low byte. -/
theorem encode_priSetTxTrig_or (n : BitVec 8) : encode (.priSetTxTrig n) = 0x60000000#32 ||| n.setWidth 32 := by
  revert n
  decide

/-- In a legal configuration the level of the selector mux is never refused. -/
theorem txW4_eq (hok : s.cfg.ok = true) : txW4 form s = .next
    (txGo
      (priExchange
        (s.setPer { s.per with txTrig := txLevel s ((payloadLen s form).toNat - s.tx.i.toNat) })
        (.priSetTxTrig (txLevel s ((payloadLen s form).toNat - s.tx.i.toNat))) 0#32) .w5) := by
  simp only [txW4, priSetTxTrig, txLevel_legal _ hok, if_true]

theorem encode_txLevel (rem : Nat) (hok : s.cfg.ok = true) :
    encode (.priSetTxTrig (txLevel s rem)) = 0x60000000#32 ||| BitVec.ofNat 32 (txSel s.cfg.txTrigMax rem) := by
  rw [encode_priSetTxTrig_or, ← BitVec.ofNat_toNat, txLevel_toNat rem hok]

end

/-! ### The accounting, W10 (R221) -/

/-- `ERR` of the response says how the wait ended. -/
theorem rspWord_waitOk (ok : Bool) :
    rspWord (errCode (if ok then .ok else .timeout)) 0#4 0#8 = if ok then 0#32 else 1#32 := by
  cases ok
  · rfl
  · rfl

theorem txW10_eq (s : State) : txW10 s = .next
    { s with
      drv := { s.drv with txPending := TxDesc.empty, txCursor := 0#32 }
      regs := { s.regs with txRsp := if s.tx.waitOk then 0#32 else 1#32, txN := s.tx.i + s.drv.txCursor }
      tx := { s.tx with phase := .idle } } := by
  rw [txW10, respondTx_eq, rspWord_waitOk]
  rfl

/-- The staged remainder ends the payload, so the sum of the two counts is a count that the word `TXN` holds. -/
theorem accounted_toNat (hstaged : s.tx.i.toNat + s.drv.txPending.len.toNat = len.toNat)
    (hcursor : s.drv.txCursor.toNat ≤ s.drv.txPending.len.toNat) :
    (s.tx.i + s.drv.txCursor).toNat = s.tx.i.toNat + s.drv.txCursor.toNat := by
  have hlen := len.isLt
  rw [BitVec.toNat_add, Nat.mod_eq_of_lt (by omega)]

theorem txRuns_writing {p : TxPhase} (h : txWriting p = true) (j : Option Instr) : txRuns p j = isWrite j := by
  cases p <;> simp [txWriting] at h <;> rfl

/-- The command latched at a label of a write is a write (R101). -/
theorem isWrite_of_latched (hg : PortsGood s) (hp : txWriting s.tx.phase = true) (hl : latchedTx s = some i) :
    isWrite (some i) = true := by
  rw [← hl, ← txRuns_writing hp]
  exact hg.txLatch

end

/-- Settles O28. -/
theorem writeIssue : Obligations.WriteIssue := by
  refine ⟨fun s hp => ?_, fun i len s hi hf hp => ⟨fun hon hlen => ?_, fun hon hlen => ?_, fun hoff => ?_⟩⟩
  · rw [exec_write_gated (i := .write) rfl hp, exec_write_gated (i := .writeString) rfl hp]
    rfl
  · exact (exec_write_idle hi hf hp).trans (txW0_payload _ hon hlen)
  · exact (exec_write_idle hi hf hp).trans (txW0_empty _ hon hlen)
  · exact (exec_write_idle hi hf hp).trans (txW0_disabled _ hoff)

/-- Settles O29: W1S branches on the full FIFO, W1P on the last byte. -/
theorem fastFillSteps : Obligations.FastFillSteps := by
  intro i s hw ha
  refine ⟨fun e hp he => ?_, fun len b hp hroom hlen hb => ⟨fun hmore => ?_, fun hlast => ?_⟩⟩
  · rw [exec_write_busy hw ha hp (by decide), txWriteStep_w1s _ hp, txW1S_eq, he]
  · rw [exec_write_busy hw ha hp (by decide), txWriteStep_w1p _ hp, txW1P_more _ hroom (hlen ▸ hmore),
      payloadByte_eq_payloadAt, hb]
  · rw [exec_write_busy hw ha hp (by decide), txWriteStep_w1p _ hp, txW1P_last _ hroom (hlen ▸ hlast),
      payloadByte_eq_payloadAt, hb, hlen]

/-- Settles O30: W3 by the payload's form, the other labels alike for the three commands. -/
theorem stagingSteps : Obligations.StagingSteps := by
  refine ⟨fun i s hi ha hp => ?_, fun b s ha hp => ?_, fun i s hw ha =>
    ⟨fun n hp hok hn => ?_, fun hp => ?_, fun m hp hm => ?_, fun m hp hm => ?_⟩⟩
  · obtain ⟨hw, hform⟩ := isWrite_of_memory hi
    rw [exec_write_busy hw ha hp (by decide), txWriteStep_w3 _ hp, hform]
    rfl
  · rw [exec_write_busy rfl ha hp (by decide), txWriteStep_w3 _ hp]
    rfl
  · rw [exec_write_busy hw ha hp (by decide), txWriteStep_w4 _ hp, txW4_eq _ hok, priExchange, encode_txLevel _ hok, ← hn,
      txLevel, ← hn]
    rfl
  · rw [exec_write_busy hw ha hp (by decide), txWriteStep_w5 _ hp]
    rfl
  · rw [exec_write_busy hw ha hp (by decide), txWriteStep_w6 _ hp, txW6, ieSet_eq, encode_priSetIe, hm]
    rfl
  · rw [exec_write_busy hw ha hp (by decide), txWriteStep_w8 _ hp, txW8, ieClr_eq, encode_priSetIe, hm]
    rfl

/-- Settles O32: the invariant `TransmitGood` at W10 bounds the cursor, says that a woken writer's cursor is at the end of the
remainder, and excludes the enable and a transmit section. -/
theorem writeAccounting : Obligations.WriteAccounting := by
  intro i s hg ha hp hl
  have hstaged := hg.transmit.staged (by rw [hp]; rfl)
  have hcursor := hg.transmit.cursor
  have hcount := accounted_toNat hstaged hcursor
  have hpushed : pushed s = s.tx.i.toNat + s.drv.txCursor.toNat := by rw [pushed, hp]; rfl
  have hwoken : s.tx.waitOk = true → s.tx.i + s.drv.txCursor = payloadLen s (latchedForm s) := fun hok =>
    BitVec.eq_of_toNat_eq (by rw [hcount, hg.transmit.woken (.inr hp) hok, hstaged])
  have harmed : hasTx s.drv.ie = false :=
    Bool.eq_false_iff.mpr fun h => by simpa [hp, txArmed] using hg.transmit.armed h
  have hsection : s.drv.isrState ≠ .inTx := fun h => by simpa [hp, txShared] using hg.transmit.section_ h
  have hlow : s.tx.i.toNat ≤ (s.tx.i + s.drv.txCursor).toNat := by omega
  have hhigh : (s.tx.i + s.drv.txCursor).toNat ≤ (payloadLen s (latchedForm s)).toNat := by omega
  have hwrite := isWrite_of_latched hg.ports (by rw [hp]; rfl) hl
  exact ⟨_, (exec_write_busy hwrite ha hp (by decide)).trans ((txWriteStep_w10 _ hp).trans (txW10_eq s)), rfl, rfl, rfl, rfl,
    hcount.trans hpushed.symm, hlow, hhigh, hwoken, harmed, hsection, rfl, rfl⟩

end Sys2Proof.Machine
end

