-- ==== Sys2Proof/Proofs/ServiceSteps.lean ====
section
/-!
PROOF. The interrupt service engine step by step, each step with its frame: the issue, the dispatch steps and the returns (R250,
R251, R259, R265, R266), the receive section (R252 to R258) and the transmit section (R260 to R264).
-/

namespace Sys2Proof.Machine

/-! ### The step each label names (R250) -/

/-- What `SERVICE_INTERRUPT` runs at each value of `isr_phase`, the fatal state aside. -/
def serviceStep (s : State) : IsrPhase → Result
  | .idle => .next (issueIsr s)
  | .s0 => isrS0 s
  | .i1 => isrI1 s
  | .i2 => isrI2 s
  | .i3 => isrI3 s
  | .i3f => isrI3F s
  | .i4 => isrI4 s
  | .i5 => isrI5 s
  | .i6 => isrI6 s
  | .i7 => isrI7 s
  | .s1 => isrS1 s
  | .t1 => isrT1 s
  | .t1a => isrT1A s
  | .t1w => isrT1W s
  | .t2s => isrT2S s
  | .t3 => isrT3 s
  | .t4 => isrT4 s
  | .t5 => isrT5 s
  | .s2 => isrS2 s
  | .st1 => isrST1 s

section
variable {s : State}

/-- The engine is stopped by the fatal state only (R145, R267 (1)). -/
theorem exec_service_eq_serviceStep {p : IsrPhase} (hf : s.drv.fatal = false) (hp : s.isr.phase = p) :
    exec .serviceInterrupt s = serviceStep s p := by
  rw [exec, execServiceInterrupt, liveStep_ready _ hf, hp]
  cases p <;> rfl

/-! ### The dispatch steps and the returns (R251, R259, R265, R266) -/

/-- The cause is sampled and the mark set in the one exchange on the PRI. -/
theorem isrDispatch_eq (s : State) (hit : BitVec 3 → Bool) (mark : IsrMark) (enter skip : IsrPhase) :
    isrDispatch s hit mark enter skip =
      { s with
        pri := { s.pri with req := 0x40000000#32, rsp := 0#29 ++ pendingCause s }
        drv := { s.drv with isrState := if hit (pendingCause s) then mark else s.drv.isrState }
        isr := { s.isr with cause := pendingCause s, phase := if hit (pendingCause s) then enter else skip } } := by
  cases h : hit (pendingCause s)
  · rw [isrDispatch_skip mark enter skip h]
    rfl
  · simp only [isrDispatch, priIntSource, h, if_true]
    rfl

/-- In S2, the entry into the status section; `isrS2_skip` is the return. -/
theorem isrS2_hit (h : hasSt (pendingCause s) = true) :
    isrS2 s = .next (isrGo ((priIntSource s).1.setIsr { s.isr with cause := pendingCause s }) .st1) := by
  simp [isrS2, priIntSource, h]

/-- In ST1, the response follows the status read in the same step. -/
theorem isrST1_eq (s : State) : isrST1 s = .next
    { s with
      drv := { s.drv with errMask := s.drv.errMask ||| (if s.cfg.hasLineStatus then s.per.hwerr else 0#4) }
      per := { s.per with hwerr := 0#4 }
      pri := { s.pri with req := 0x20000000#32, rsp := statusRsp (peripheralStatus s.cfg s.per) }
      regs := { s.regs with svRsp := s.regs.svRsp &&& 0xFFFEFFFF#32 }
      isr := { s.isr with phase := .idle } } := by
  rw [isrST1, pStatus_eq, respondIsr_eq]

/-! ### The receive section (R252, R258) -/

/-- A `load` on a FIFO that holds a byte (R300): `has_more` says whether another one stands behind it. -/
theorem priLoad_cons {b : Byte} {rest : List Byte} (h : s.per.rxFifo = b :: rest) : priLoad s = some
    ({ s with
        per := { s.per with rxFifo := rest, rxStale := if rest = [] then false else s.per.rxStale }
        pri := { s.pri with req := 0#32, rsp := 0#23 ++ BitVec.ofBool (decide (rest ≠ [])) ++ b } },
      b, decide (rest ≠ [])) := by
  cases rest with
  | nil => simp [priLoad, h, priExchange, State.setPri, State.setPer, loadRsp]
  | cons c rest => simp [priLoad, h, priExchange, State.setPri, State.setPer, loadRsp]

theorem isrI1_cons {b : Byte} {rest : List Byte} (h : s.per.rxFifo = b :: rest) : isrI1 s = .next
    { s with
      per := { s.per with rxFifo := rest, rxStale := if rest = [] then false else s.per.rxStale }
      pri := { s.pri with req := 0#32, rsp := 0#23 ++ BitVec.ofBool (decide (rest ≠ [])) ++ b }
      isr := { s.isr with byte := b, more := decide (rest ≠ []), phase := .i2 } } := by
  rw [isrI1, priLoad_cons h]
  rfl

theorem isrI7_more (h : s.isr.more = true) : isrI7 s = .next { s with isr := { s.isr with phase := .i1 } } := if_pos h

theorem isrI7_last (h : s.isr.more = false) :
    isrI7 s = .next { s with drv := { s.drv with isrState := .idle }, isr := { s.isr with phase := .s1 } } :=
  if_neg (Bool.eq_false_iff.mp h)

/-! ### The transmit section (R260, R262 to R264) -/

theorem isrT1_finished (h : s.drv.txPending.len.toNat ≤ s.drv.txCursor.toNat) :
    isrT1 s = .next { s with isr := { s.isr with phase := .t1a } } := by
  rw [isrT1, if_pos h]
  rfl

theorem isrT1_unfinished (h : s.drv.txCursor.toNat < s.drv.txPending.len.toNat) :
    isrT1 s = .next { s with isr := { s.isr with phase := .t2s } } := by
  rw [isrT1, if_neg (Nat.not_le.mpr h)]
  rfl

/-- T2S branches on the FIFO as the status read reports it. -/
theorem isrT2S_eq (s : State) : isrT2S s = .next
    { s with
      drv := { s.drv with errMask := s.drv.errMask ||| (if s.cfg.hasLineStatus then s.per.hwerr else 0#4) }
      per := { s.per with hwerr := 0#4 }
      pri := { s.pri with req := 0x20000000#32, rsp := statusRsp (peripheralStatus s.cfg s.per) }
      isr :=
        { s.isr with
          full := decide (s.per.txFifo.length = s.cfg.txDepth)
          phase := if s.per.txFifo.length = s.cfg.txDepth then .t4 else .t3 } } := by
  simp only [isrT2S, pStatus_eq, State.setIsr, peripheralStatus, decide_eq_true_eq]

/-- On a FIFO with room, T3's store takes the byte at the cursor. -/
theorem isrT3_room (hroom : s.per.txFifo.length < s.cfg.txDepth) : isrT3 s = .next
    { s with
      per := { s.per with txFifo := s.per.txFifo ++ [payload s s.drv.txCursor] }
      pri := { s.pri with req := 0x10#8 ++ 0#16 ++ payload s s.drv.txCursor, rsp := 0#32 }
      drv := { s.drv with txCursor := s.drv.txCursor + 1#32 }
      isr := { s.isr with phase := if s.drv.txCursor + 1#32 = s.drv.txPending.len then .t4 else .t2s } } := by
  rw [isrT3, priStore_room _ hroom]
  rfl

/-- In a legal configuration the level of the selector mux is never refused. -/
theorem isrT4_eq (hok : s.cfg.ok = true) : isrT4 s = .next
    { s with
      per := { s.per with txTrig := txLevel s (remaining s) }
      pri := { s.pri with req := 0x60000000#32 ||| BitVec.ofNat 32 (txSel s.cfg.txTrigMax (remaining s)), rsp := 0#32 }
      isr := { s.isr with phase := .t5 } } := by
  rw [isrT4, priSetTxTrig, if_pos (txLevel_legal _ hok), priExchange, encode_txLevel _ hok]
  rfl

end

/-- Settles O36: S0 and S1 are one dispatch step with different sources; S2 splits on the status bit of the cause. -/
theorem serviceDispatchAndReturn : Obligations.ServiceDispatchAndReturn := by
  refine fun s hf => ⟨fun hp => ?_, fun c (hc : c = pendingCause s) =>
    ⟨fun hp => ?_, fun hp => ?_, fun hp hst => ?_, fun hp hst => ?_⟩, fun hp => ?_, fun e hp he => ?_⟩
  · exact exec_service_eq_serviceStep hf hp
  · rw [exec_service_s0 hf hp, isrS0, isrDispatch_eq, hc]
    rfl
  · rw [exec_service_s1 hf hp, isrS1, isrDispatch_eq, hc]
    rfl
  · rw [exec_service_s2 hf hp, isrS2_hit (hc ▸ hst), hc]
    rfl
  · rw [exec_service_s2 hf hp, isrS2_skip (hc ▸ hst), respondIsr_eq, hc]
    rfl
  · exact exec_service_eq_serviceStep hf hp
  · rw [exec_service_eq_serviceStep hf hp, he]
    exact isrST1_eq s

/-- Settles O37: I3's store is the one-slot update of `bufSlot_put`, and I7 splits on `has_more`. -/
theorem receiveSectionSteps : Obligations.ReceiveSectionSteps := by
  refine fun s hf => ⟨fun b rest hp hfifo => ?_, fun w1 hp hw1 => ?_, fun hp hcap => ?_, fun hp => ?_, fun hp => ?_,
    fun hp => ?_, fun hp => ?_, fun hp hmore => ?_, fun hp hlast => ?_⟩
  · exact (exec_service_eq_serviceStep hf hp).trans (isrI1_cons hfifo)
  · rw [exec_service_eq_serviceStep hf hp, hw1]
    rfl
  · exact ⟨_, exec_service_i3 hf hp hcap, rfl, fun j => bufSlot_put s s.drv.nextWrite.toNat j s.isr.byte⟩
  · exact exec_service_i3f hf hp
  · exact exec_service_i4 hf hp
  · exact exec_service_eq_serviceStep hf hp
  · exact exec_service_eq_serviceStep hf hp
  · exact (exec_service_eq_serviceStep hf hp).trans (isrI7_more hmore)
  · exact (exec_service_eq_serviceStep hf hp).trans (isrI7_last hlast)

/-- Settles O38: T1 splits on the cursor; T1A leaves `ie` without its transmit bit, which is the mask 5; T3 and T4 are never
refused under their premises. -/
theorem transmitSectionSteps : Obligations.TransmitSectionSteps := by
  refine fun s hf => ⟨fun hp hdone => ?_, fun hp hleft => ?_, fun m hp hm => ?_, fun hp => ?_, fun e hp he => ?_,
    fun b hp hroom hb => ?_, fun n hp hok hn => ?_⟩
  · exact (exec_service_eq_serviceStep hf hp).trans (isrT1_finished hdone)
  · exact (exec_service_eq_serviceStep hf hp).trans (isrT1_unfinished hleft)
  · have hmask : s.drv.ie &&& ~~~srcTx = m := hm.symm
    rw [exec_service_eq_serviceStep hf hp, serviceStep, isrT1A, ieClr_eq, encode_priSetIe, hmask]
    rfl
  · exact exec_service_eq_serviceStep hf hp
  · rw [exec_service_eq_serviceStep hf hp, he]
    exact isrT2S_eq s
  · rw [exec_service_eq_serviceStep hf hp, hb]
    exact isrT3_room hroom
  · rw [exec_service_eq_serviceStep hf hp, hn]
    exact isrT4_eq hok

end Sys2Proof.Machine
end

