-- ==== Sys2Proof/Proofs/ConfigCommands.lean ====
section
/-!
PROOF. The two timeout setters and `STATUS` (R281 to R283): each is one `Respond` on CFG over one update of the driver's state.
-/

namespace Sys2Proof.Machine

/-! ### The timeouts (R281, R282) -/

section
variable {s : State}

theorem exec_setReadTimeout (ha : s.appReady = true) :
    exec .setReadTimeout s = .next (respondCfg (s.setDrv { s.drv with readTimeout := s.regs.cfA0 }) .ok 0#4 0#8 0#32) :=
  cfgStep_ready ha

theorem exec_setWriteTimeout (ha : s.appReady = true) :
    exec .setWriteTimeout s = .next (respondCfg (s.setDrv { s.drv with writeTimeout := s.regs.cfA0 }) .ok 0#4 0#8 0#32) :=
  cfgStep_ready ha

/-! ### `STATUS` (R283) -/

/-- The word `STATUS` answers: the error mask in `HWERR`, every other field 0. -/
theorem rspWord_okHwerr (e : BitVec 4) : rspWord (errCode .ok) e 0#8 = 0#24 ++ e ++ 0#4 := rfl

/-- The mask answered is the one that stood before `StatusTake` cleared it. -/
theorem exec_status (ha : s.appReady = true) :
    exec .status s = .next
      (respondCfg (s.setDrv { s.drv with errMask := 0#4 }) .ok s.drv.errMask 0#8 (s.drv.errMask.setWidth 32)) :=
  cfgStep_ready ha

end

/-- Settles O16: each command is its `Respond`, whose frame is `respondCfg_eq`; registers 38 and 39 are the timeouts. -/
theorem timeoutsAndStatusResult : Obligations.TimeoutsAndStatusResult := by
  refine ⟨fun s ha => ?_, fun s ha => ?_, fun s ha => ?_, fun s => ⟨rfl, rfl⟩⟩
  · rw [exec_setReadTimeout ha, respondCfg_eq]
    rfl
  · rw [exec_setWriteTimeout ha, respondCfg_eq]
    rfl
  · rw [exec_status ha, respondCfg_eq, rspWord_okHwerr]
    rfl

end Sys2Proof.Machine
end

