-- ==== Sys2Proof/Proofs/PriRequests.lean ====
section
/-!
PROOF. The PRI requests that have a result in every state (R302 to R304, R307, R308): each is one exchange on the PRI, over at
most one update of the peripheral.
-/

namespace Sys2Proof.Machine

section
variable (s : State)

/-! ### The reads, `STATUS` and `INT_SOURCE` (R302, R304) -/

/-- `transmit_done` by the count of bytes in the FIFO, the form of R302. -/
theorem transmitDone_eq_length (d : Peripheral) : transmitDone d = decide (d.txFifo.length = 0) := by
  simp only [transmitDone_eq, List.length_eq_zero_iff]

/-- The response word of `STATUS`, laid out as in R111. -/
theorem statusRsp_peripheralStatus : statusRsp (peripheralStatus s.cfg s.per) =
    0#24 ++ (if s.cfg.hasLineStatus then s.per.hwerr else 0#4) ++ 0#1 ++ BitVec.ofBool (decide (s.per.txFifo.length = 0)) ++
      BitVec.ofBool (decide (s.per.txFifo.length = s.cfg.txDepth)) ++
      BitVec.ofBool (decide (1 ≤ s.per.rxFifo.length)) := by
  rw [statusRsp, peripheralStatus, transmitDone_eq_length]

/-- The bare request clears the error latch and keeps no flag in `err_mask`, unlike `pStatus_eq`. -/
theorem exec_priStatus : exec .priStatus s = .next
    { s with
      per := { s.per with hwerr := 0#4 }
      pri := { s.pri with req := 0x20000000#32, rsp := statusRsp (peripheralStatus s.cfg s.per) } } := rfl

/-- `INT_SOURCE` has no side effect beyond the exchange itself. -/
theorem exec_priIntSource : exec .priIntSource s = .next
    { s with pri := { s.pri with req := 0x40000000#32, rsp := 0#29 ++ pendingCause s } } := rfl

/-! ### The settings (R303, R307, R308) -/

theorem exec_priSetIe (m : BitVec 3) : exec (.priSetIe m) s = .next
    { s with per := { s.per with pmask := m }, pri := { s.pri with req := encode (.priSetIe m), rsp := 0#32 } } := rfl

theorem exec_priSetBaudDiv (n : BitVec 28) : exec (.priSetBaudDiv n) s = .next
    { s with per := { s.per with div := n }, pri := { s.pri with req := encode (.priSetBaudDiv n), rsp := 0#32 } } := rfl

theorem exec_priCfgWordFormat (f : BitVec 5) : exec (.priCfgWordFormat f) s = .next
    { s with per := { s.per with lcr := f }, pri := { s.pri with req := encode (.priCfgWordFormat f), rsp := 0#32 } } := rfl

end

/-- Settles O46: each request's effect and frame, with its words put in the layout of R111. -/
theorem priStatusAndSettings : Obligations.PriStatusAndSettings := by
  refine ⟨fun s w hw => ?_, fun mask s => ?_, fun s => ?_, fun n s => ?_, fun f s => ?_⟩
  · rw [exec_priStatus, statusRsp_peripheralStatus, hw]
  · rw [exec_priSetIe, encode_priSetIe]
  · rw [exec_priIntSource, pendingCause]
  · rw [exec_priSetBaudDiv, encode_priSetBaudDiv]
  · rw [exec_priCfgWordFormat, encode_priCfgWordFormat]

end Sys2Proof.Machine
end

