-- ==== Sys2Proof/Proofs/Encoding.lean ====
section
/-!
PROOF. The decoder and the encoder of the opcode table (R100, R102, R111, R113). A word that hits a row is the encoding of an
instruction of that row, and an encoding is decoded to its instruction; the statements about rows and about round trips follow.
-/

namespace Sys2Proof.Machine

/-! ### The columns of the table -/

/-- Every encoding hits its own row, and a host command's names its own port: the family `RowMatch`. -/
theorem rowMatch_statement (i : Instr) : Laws.RowMatch.Statement i := by
  cases i
  case configure f => exact Laws.RowMatch.configure f
  case setReadTimeout => exact Laws.RowMatch.setReadTimeout
  case setWriteTimeout => exact Laws.RowMatch.setWriteTimeout
  case status => exact Laws.RowMatch.status
  case len => exact Laws.RowMatch.len
  case enableRx => exact Laws.RowMatch.enableRx
  case disableRx => exact Laws.RowMatch.disableRx
  case read => exact Laws.RowMatch.read
  case readByte => exact Laws.RowMatch.readByte
  case enableTx => exact Laws.RowMatch.enableTx
  case disableTx => exact Laws.RowMatch.disableTx
  case write => exact Laws.RowMatch.write
  case writeString => exact Laws.RowMatch.writeString
  case writeByte b => exact Laws.RowMatch.writeByte b
  case flush => exact Laws.RowMatch.flush
  case serviceInterrupt => exact Laws.RowMatch.serviceInterrupt
  case priLoad => exact Laws.RowMatch.priLoad
  case priStore b => exact Laws.RowMatch.priStore b
  case priStatus => exact Laws.RowMatch.priStatus
  case priSetIe m => exact Laws.RowMatch.priSetIe m
  case priIntSource => exact Laws.RowMatch.priIntSource
  case priSetRxTrig n => exact Laws.RowMatch.priSetRxTrig n
  case priSetTxTrig n => exact Laws.RowMatch.priSetTxTrig n
  case priSetBaudDiv n => exact Laws.RowMatch.priSetBaudDiv n
  case priCfgWordFormat f => exact Laws.RowMatch.priCfgWordFormat f

theorem encode_hits (i : Instr) : encode i &&& rowMask i = rowMatch i := (rowMatch_statement i).1

/-- The mask column read from the match column: no two rows share a match value. -/
def maskOf (pattern : Word) : Word :=
  if pattern = 0x00000001#32 then 0xFFE0FFFF#32
  else if pattern = 0x00000024#32 then 0xFF00FFFF#32
  else if pattern = 0x10000000#32 ∨ pattern = 0x50000000#32 ∨ pattern = 0x60000000#32 then 0xFFFFFF00#32
  else if pattern = 0x30000000#32 then 0xFFFFFFF8#32
  else if pattern = 0x70000000#32 then 0xF0000000#32
  else if pattern = 0x80000000#32 then 0xFFFFFFE0#32
  else 0xFFFFFFFF#32

theorem rowMask_eq_maskOf (i : Instr) : rowMask i = maskOf (rowMatch i) := by
  cases i <;> rfl

theorem sameRow_iff {i j : Instr} : sameRow i j = true ↔ rowMatch i = rowMatch j := decide_eq_true_iff

theorem rowMask_of_sameRow {i j : Instr} (h : sameRow i j = true) : rowMask i = rowMask j := by
  rw [rowMask_eq_maskOf, rowMask_eq_maskOf, sameRow_iff.mp h]

/-! ### A word that hits a row is the encoding of what the row's fields say -/

section
variable {w : Word}

theorem rowHit_iff {mask pattern : Word} : rowHit w mask pattern = true ↔ w &&& mask = pattern := beq_iff_eq

/-- Under the full mask a word is its row's match value. -/
theorem eq_of_rowHit_full {pattern : Word} (h : rowHit w 0xFFFFFFFF#32 pattern = true) : pattern = w := by
  rw [rowHit_iff] at h
  rw [← h]
  exact (BitVec.and_allOnes (x := w)).symm ▸ rfl

/-- Two words that agree under a mask and beside it are equal. -/
theorem eq_of_masked {u mask : Word} (hin : u &&& mask = w &&& mask) (hout : u &&& ~~~mask = w &&& ~~~mask) : u = w := by
  apply BitVec.eq_of_getLsbD_eq
  intro k hk
  have h1 := congrArg (BitVec.getLsbD · k) hin
  have h2 := congrArg (BitVec.getLsbD · k) hout
  simp only [BitVec.getLsbD_and, BitVec.getLsbD_not, hk, decide_true, Bool.true_and] at h1 h2
  cases hm : mask.getLsbD k <;> simp_all

/-- The operand of a format-H row is the word beside the row's mask. -/
theorem formatH_operand (opc : BitVec 8) (n : Nat) :
    formatH opc ((w.extractLsb' 16 n).setWidth 16) &&& (BitVec.allOnes n).setWidth 32 <<< 16 =
      w &&& (BitVec.allOnes n).setWidth 32 <<< 16 := by
  apply BitVec.eq_of_getLsbD_eq
  intro k hk
  simp only [formatH, BitVec.getLsbD_and, BitVec.getLsbD_append, BitVec.getLsbD_shiftLeft, BitVec.getLsbD_setWidth,
    BitVec.getLsbD_extractLsb', BitVec.getLsbD_allOnes]
  rcases Nat.lt_or_ge k 16 with hlow | hhigh
  · simp [hlow]
  · obtain ⟨d, rfl⟩ := Nat.exists_eq_add_of_le hhigh
    have hb : ¬ 16 + d < 8 := by omega
    have hz : ¬ 16 + d - 8 < 8 := by omega
    have hd : 16 + d - 8 - 8 = d := by omega
    have hf : d < 16 := by omega
    simp only [hb, hz, hd, hf, if_false, decide_true, Bool.true_and, Nat.add_sub_cancel_left]
    by_cases hn : d < n <;> simp [hn]

/-- The operand of a format-P row, likewise. -/
theorem formatP_operand (req : BitVec 4) (n : Nat) (hn : n ≤ 28) :
    formatP req ((w.extractLsb' 0 n).setWidth 28) &&& (BitVec.allOnes n).setWidth 32 =
      w &&& (BitVec.allOnes n).setWidth 32 := by
  apply BitVec.eq_of_getLsbD_eq
  intro k hk
  simp only [formatP, BitVec.getLsbD_and, BitVec.getLsbD_append, BitVec.getLsbD_setWidth,
    BitVec.getLsbD_extractLsb', BitVec.getLsbD_allOnes]
  by_cases hkn : k < n
  · have : k < 28 := by omega
    simp_all
  · simp [hkn]

/-- A word that hits a row with an operand in format H is the encoding of that operand. -/
theorem formatH_of_rowHit {opc : BitVec 8} {n : Nat} {mask pattern : Word} (h : w &&& mask = pattern)
    (hmask : ~~~mask = (BitVec.allOnes n).setWidth 32 <<< 16)
    (hrow : formatH opc ((w.extractLsb' 16 n).setWidth 16) &&& mask = pattern) :
    formatH opc ((w.extractLsb' 16 n).setWidth 16) = w :=
  eq_of_masked (hrow.trans h.symm) (by rw [hmask]; exact formatH_operand opc n)

theorem formatP_of_rowHit {req : BitVec 4} {n : Nat} {mask pattern : Word} {data : BitVec 28} (h : w &&& mask = pattern)
    (hn : n ≤ 28) (hdata : data = (w.extractLsb' 0 n).setWidth 28) (hmask : ~~~mask = (BitVec.allOnes n).setWidth 32)
    (hrow : formatP req data &&& mask = pattern) : formatP req data = w := by
  subst hdata
  exact eq_of_masked (hrow.trans h.symm) (by rw [hmask]; exact formatP_operand req n hn)

/-- The instruction of `i`'s row whose operand stands in the word. -/
def rereadAs (w : Word) : Instr → Instr
  | .configure _ => .configure (w.extractLsb' 16 5)
  | .writeByte _ => .writeByte (w.extractLsb' 16 8)
  | .priStore _ => .priStore (w.extractLsb' 0 8)
  | .priSetIe _ => .priSetIe (w.extractLsb' 0 3)
  | .priSetRxTrig _ => .priSetRxTrig (w.extractLsb' 0 8)
  | .priSetTxTrig _ => .priSetTxTrig (w.extractLsb' 0 8)
  | .priSetBaudDiv _ => .priSetBaudDiv (w.extractLsb' 0 28)
  | .priCfgWordFormat _ => .priCfgWordFormat (w.extractLsb' 0 5)
  | i => i

theorem rereadAs_row (w : Word) (i : Instr) : rowMatch (rereadAs w i) = rowMatch i ∧ (rereadAs w i).port = i.port := by
  cases i <;> exact ⟨rfl, rfl⟩

/-- A word that hits a row is the encoding of the instruction read from it. -/
theorem encode_rereadAs {i : Instr} (h : w &&& rowMask i = rowMatch i) : encode (rereadAs w i) = w := by
  have hrow : encode (rereadAs w i) &&& rowMask i = rowMatch i := by
    rw [rowMask_eq_maskOf, ← (rereadAs_row w i).1, ← rowMask_eq_maskOf]
    exact encode_hits _
  cases i
  case configure => exact formatH_of_rowHit (mask := 0xFFE0FFFF#32) h (by decide) hrow
  case writeByte => exact formatH_of_rowHit (mask := 0xFF00FFFF#32) h (by decide) hrow
  case priStore => exact formatP_of_rowHit (mask := 0xFFFFFF00#32) h (by decide) rfl (by decide) hrow
  case priSetIe => exact formatP_of_rowHit (mask := 0xFFFFFFF8#32) h (by decide) rfl (by decide) hrow
  case priSetRxTrig => exact formatP_of_rowHit (mask := 0xFFFFFF00#32) h (by decide) rfl (by decide) hrow
  case priSetTxTrig => exact formatP_of_rowHit (mask := 0xFFFFFF00#32) h (by decide) rfl (by decide) hrow
  case priSetBaudDiv => exact formatP_of_rowHit (mask := 0xF0000000#32) h (by decide) (BitVec.setWidth_eq _).symm (by decide) hrow
  case priCfgWordFormat => exact formatP_of_rowHit (mask := 0xFFFFFFE0#32) h (by decide) rfl (by decide) hrow
  all_goals exact eq_of_rowHit_full (rowHit_iff.mpr h)

end

/-! ### Decoding -/

/-- A word that hits a row does not hit a row whose match value differs where both masks look. -/
theorem rowHit_other {w m p m' p' : Word} (h : w &&& m = p) (hne : p &&& m' ≠ p' &&& m) : rowHit w m' p' = false := by
  rw [Bool.eq_false_iff]
  intro h'
  rw [rowHit_iff] at h'
  apply hne
  rw [← h, ← h']
  ac_rfl

/-- A host command's encoding is decoded to it, and no request's encoding is a host command. -/
theorem decodeHost_encode (i : Instr) : decodeHost (encode i) = if i.port.isSome then some i else none := by
  cases i
  case configure f => revert f; decide
  case writeByte b => revert b; decide
  case priStore b => revert b; decide
  case priSetIe m => revert m; decide
  case priSetRxTrig n => revert n; decide
  case priSetTxTrig n => revert n; decide
  case priSetBaudDiv n =>
    have h : encode (.priSetBaudDiv n) &&& 0xF0000000#32 = 0x70000000#32 := encode_hits (.priSetBaudDiv n)
    simp [decodeHost, rowHit_other h, Instr.port]
  case priCfgWordFormat f => revert f; decide
  all_goals rfl

theorem decodePri_encode {i : Instr} (hp : i.port = none) : decodePri (encode i) = some i := by
  cases i
  case priStore b => revert b; decide
  case priSetIe m => revert m; decide
  case priSetRxTrig n => revert n; decide
  case priSetTxTrig n => revert n; decide
  case priSetBaudDiv n =>
    have h : encode (.priSetBaudDiv n) &&& 0xF0000000#32 = 0x70000000#32 := encode_hits (.priSetBaudDiv n)
    have hn : (encode (.priSetBaudDiv n)).extractLsb' 0 28 = n := by
      apply BitVec.eq_of_getLsbD_eq
      intro k hk
      simp only [encode, formatP, BitVec.getLsbD_extractLsb', BitVec.getLsbD_append, Nat.zero_add, hk, if_true, decide_true,
        Bool.true_and]
    simp [decodePri, rowHit_other h, rowHit_iff.mpr h, hn]
  case priCfgWordFormat f => revert f; decide
  case priLoad => rfl
  case priStatus => rfl
  case priIntSource => rfl
  all_goals cases hp

/-- The word hits the row of `i`, a host command's or a request's, and carries `i`'s operand. -/
def Carries (w : Word) (host : Bool) (i : Instr) : Prop :=
  w &&& rowMask i = rowMatch i ∧ rereadAs w i = i ∧ i.port.isSome = host

/-- One row of a decoder: it answers its own instruction on a hit, else what the rows below it answer. -/
theorem row_elim {Q : Instr → Prop} {w mask pattern : Word} {i j : Instr} {below : Option Instr}
    (hit : w &&& mask = pattern → Q j) (miss : below = some i → Q i) :
    (if rowHit w mask pattern then some j else below) = some i → Q i := by
  split
  · next h =>
    intro hj
    cases hj
    exact hit (rowHit_iff.mp h)
  · exact miss

theorem carries_of_decodeHost {w : Word} {i : Instr} : decodeHost w = some i → Carries w true i := by
  unfold decodeHost
  iterate 16 refine row_elim (Q := Carries w true) (fun hit => ⟨hit, rfl, rfl⟩) ?_
  exact nofun

theorem carries_of_decodePri {w : Word} {i : Instr} : decodePri w = some i → Carries w false i := by
  unfold decodePri
  iterate 9 refine row_elim (Q := Carries w false) (fun hit => ⟨hit, rfl, rfl⟩) ?_
  exact nofun

theorem encode_of_decodeHost {w : Word} {i : Instr} (h : decodeHost w = some i) : encode i = w := by
  obtain ⟨hhit, hread, -⟩ := carries_of_decodeHost h
  rw [← hread, encode_rereadAs hhit]

theorem encode_of_decodePri {w : Word} {i : Instr} (h : decodePri w = some i) : encode i = w := by
  obtain ⟨hhit, hread, -⟩ := carries_of_decodePri h
  rw [← hread, encode_rereadAs hhit]

/-- A port's decoder is the table's, restricted to the port's own rows. -/
theorem decodeCmd_eq_some {p : Port} {w : Word} {i : Instr} :
    decodeCmd p w = some i ↔ decodeHost w = some i ∧ i.port = some p := by
  unfold decodeCmd
  cases h : decodeHost w with
  | none => simp
  | some j =>
    by_cases hj : j.port = some p
    · simp only [hj, if_true, Option.some.injEq]
      exact ⟨fun e => ⟨e, e ▸ hj⟩, fun e => e.1⟩
    · simp only [hj, if_false, Option.some.injEq, reduceCtorEq, false_iff]
      exact fun e => hj (e.1 ▸ e.2)

theorem decodeCmd_encode {p : Port} {i : Instr} (hp : i.port = some p) : decodeCmd p (encode i) = some i := by
  rw [decodeCmd_eq_some, decodeHost_encode, hp]
  exact ⟨rfl, rfl⟩

theorem decodeWord_encode (i : Instr) : decodeWord (encode i) = some i := by
  unfold decodeWord
  rw [decodeHost_encode]
  cases hp : i.port with
  | some p => rfl
  | none => exact decodePri_encode hp

theorem encode_of_decodeWord {w : Word} {i : Instr} (h : decodeWord w = some i) : encode i = w := by
  unfold decodeWord at h
  cases hw : decodeHost w with
  | some j =>
    rw [hw] at h
    cases h
    exact encode_of_decodeHost hw
  | none =>
    rw [hw] at h
    exact encode_of_decodePri h

/-- Settles O1. -/
theorem decodeEncodeAgree : Obligations.DecodeEncodeAgree :=
  ⟨decodeWord_encode, fun _ _ hp => decodeCmd_encode hp, fun _ hp => decodePri_encode hp, fun _ _ h => encode_of_decodeWord h⟩

/-! ### Rows (R102, R111, R113) -/

/-- A row's decoder answers the row exactly on the words that hit it. -/
theorem decodes_row_iff {decode : Word → Option Instr} {i : Instr} (w : Word)
    (hits : ∀ j, decode w = some j → w &&& rowMask j = rowMatch j)
    (answers : ∀ j, j.port = i.port → decode (encode j) = some j) :
    (∃ j, decode w = some j ∧ sameRow i j = true) ↔ w &&& rowMask i = rowMatch i := by
  constructor
  · rintro ⟨j, hj, hrow⟩
    rw [rowMask_of_sameRow hrow, sameRow_iff.mp hrow]
    exact hits j hj
  · intro hhit
    obtain ⟨hrow, hport⟩ := rereadAs_row w i
    have hj := answers _ hport
    rw [encode_rereadAs hhit] at hj
    exact ⟨_, hj, sameRow_iff.mpr hrow.symm⟩

theorem decodeCmd_row_iff {p : Port} {i : Instr} (w : Word) (hp : i.port = some p) :
    (∃ j, decodeCmd p w = some j ∧ sameRow i j = true) ↔ w &&& rowMask i = rowMatch i :=
  decodes_row_iff w (fun _ h => (carries_of_decodeHost (decodeCmd_eq_some.mp h).1).1)
    fun _ hj => decodeCmd_encode (hj.trans hp)

theorem decodePri_row_iff {i : Instr} (w : Word) (hp : i.port = none) :
    (∃ j, decodePri w = some j ∧ sameRow i j = true) ↔ w &&& rowMask i = rowMatch i :=
  decodes_row_iff w (fun _ h => (carries_of_decodePri h).1) fun _ hj => decodePri_encode (hj.trans hp)

/-- Settles O2: the third clause is the first one read for all rows of the port. -/
theorem decodeFollowsRows : Obligations.DecodeFollowsRows := by
  refine ⟨fun i p w hp => decodeCmd_row_iff w hp, fun i w hp => decodePri_row_iff w hp, fun p w => ⟨fun hnone i hp hhit => ?_,
    fun hmiss => ?_⟩⟩
  · obtain ⟨j, hj, -⟩ := (decodeCmd_row_iff w hp).mpr hhit
    rw [hnone] at hj
    cases hj
  · cases hw : decodeCmd p w with
    | none => rfl
    | some i =>
      obtain ⟨hi, hp⟩ := decodeCmd_eq_some.mp hw
      exact absurd (carries_of_decodeHost hi).1 (hmiss i hp)

/-- Settles O3. -/
theorem decodeSanityWords : Obligations.DecodeSanityWords := by
  unfold Obligations.DecodeSanityWords
  decide

end Sys2Proof.Machine
end

