-- ==== Sys2Proof/Proofs/FetchPlaces.lean ====
section
/-!
PROOF. The places an instruction is fetched from (R37, R101, R114), the `CMD` writes that issue nothing (R113, R114), and the host's
plain accesses to the register file and to host memory (R35, R71, R75).
-/

namespace Sys2Proof.Machine

/-! ### The register window -/

theorem wholeReg_ofNat {k : Nat} (hk : k < 64) :
    wholeReg (BitVec.ofNat 8 (4 * k)) 4 = true ∧ (BitVec.ofNat 8 (4 * k)).toNat / 4 = k := by
  have h : (BitVec.ofNat 8 (4 * k)).toNat = 4 * k := by rw [BitVec.toNat_ofNat, Nat.mod_eq_of_lt (by omega)]
  constructor
  · simp [wholeReg, h]
  · omega

theorem wholeReg_cmdOffset (p : Port) : wholeReg (cmdOffset p) 4 = true ∧ cmdPort ((cmdOffset p).toNat / 4) = some p := by
  cases p <;> decide

theorem eq_cfg_of_cmdOffset {p : Port} (h : cmdOffset p = cmdOffset .cfg) : p = .cfg := by
  cases p
  case cfg => rfl
  all_goals cases h

section
variable {s : State}

/-- A whole-register write at a port's `CMD` offset is a `CMD` write of that port. -/
theorem hostWrite_cmdOffset (p : Port) (w : Word) (s : State) : hostWrite (cmdOffset p) 4 w s = cmdWrite p w s := by
  obtain ⟨hwhole, hport⟩ := wholeReg_cmdOffset p
  simp only [hostWrite, hwhole, if_true, hport]

/-! ### `CMD` writes (R113, R114) -/

theorem cmdWrite_fatal (p : Port) (w : Word) (hf : s.drv.fatal = true) : cmdWrite p w s = .next s := if_pos hf

theorem cmdWrite_busy {p : Port} (w : Word) (hf : s.drv.fatal = false) (hb : portBusy s p = true) :
    cmdWrite p w s = if p = .isr then .next s else .refused .portBusy := by
  simp [cmdWrite, hf, hb]

theorem cmdWrite_illegal {p : Port} {w : Word} (hf : s.drv.fatal = false) (hb : portBusy s p = false)
    (hw : decodeCmd p w = none) : cmdWrite p w s = .next (illegalCmd s p) := by
  simp [cmdWrite, hf, hb, hw]

theorem cmdWrite_legal {p : Port} {w : Word} {i : Instr} (hf : s.drv.fatal = false) (hb : portBusy s p = false)
    (hw : decodeCmd p w = some i) : cmdWrite p w s =
      if cfgHeld s p then .next (putOff s (.hostWrite (cmdOffset p) 4 w)) else exec i s := by
  simp [cmdWrite, hf, hb, hw]

/-- Only the CFG port is ever held, and only by an interrupt service (R9). -/
theorem cfgHeld_eq_false {p : Port} (h : p = .cfg → isrHolds s = false) : cfgHeld s p = false := by
  unfold cfgHeld
  by_cases hp : p = .cfg
  · rw [h hp, Bool.and_false]
  · simp [hp]

/-- A legal command on an idle port that is not held runs at once. -/
theorem cmdWrite_issues {p : Port} {w : Word} {i : Instr} (hf : s.drv.fatal = false) (hb : portBusy s p = false)
    (hfree : p = .cfg → isrHolds s = false) (hw : decodeCmd p w = some i) : cmdWrite p w s = exec i s := by
  rw [cmdWrite_legal hf hb hw, cfgHeld_eq_false hfree]
  rfl

/-! ### One step by what waits (R9) -/

theorem step_event (hpri : s.pri.pending = none) : step s = runEvent (nextEvent s) (takeEvent s) := by
  simp only [step, hpri]

theorem step_request {w : Word} (hpri : s.pri.pending = some w) : step s = answerPri w s := by
  simp only [step, hpri]

theorem answerPri_decoded {w : Word} {i : Instr} (hw : decodePri w = some i) : answerPri w s = exec i (takePri s) := by
  simp only [answerPri, hw]

/-- Taking an event leaves everything but the schedule, so the sequencers' phases and latches too. -/
theorem takeEvent_rx : (takeEvent s).rx = s.rx := by
  obtain ⟨_, _, h⟩ := takeEvent_cases s
  rw [h]
  rfl

theorem takeEvent_tx : (takeEvent s).tx = s.tx := by
  obtain ⟨_, _, h⟩ := takeEvent_cases s
  rw [h]
  rfl

theorem takeEvent_isr : (takeEvent s).isr = s.isr := by
  obtain ⟨_, _, h⟩ := takeEvent_cases s
  rw [h]
  rfl

theorem rxTurn_latched {i : Instr} (hp : s.rx.phase ≠ .idle) (hi : latchedRx s = some i) : rxTurn s = exec i s := by
  simp only [rxTurn, if_neg hp, hi]

theorem txTurn_latched {i : Instr} (hp : s.tx.phase ≠ .idle) (hi : latchedTx s = some i) : txTurn s = exec i s := by
  simp only [txTurn, if_neg hp, hi]

theorem isrTurn_busy (hp : s.isr.phase ≠ .idle) : isrTurn s = exec .serviceInterrupt s := if_neg hp

/-- A `CMD` write that can be issued, at the head of the schedule, runs its command. -/
theorem step_cmd_write {p : Port} {w : Word} {i : Instr} {rest : List Event} (hpri : s.pri.pending = none)
    (hin : s.env.inputs = .hostWrite (cmdOffset p) 4 w :: rest) (hf : s.drv.fatal = false)
    (hfree : p = .cfg → isrHolds s = false) (hb : portBusy s p = false) (hw : decodeCmd p w = some i) :
    step s = exec i (s.setEnv { s.env with inputs := rest }) := by
  have hnot : heldEvent s (.hostWrite (cmdOffset p) 4 w) = false := by
    rw [Bool.eq_false_iff]
    intro h
    obtain ⟨_, heq, hholds, -⟩ := heldEvent_cases h
    injection heq with hoff
    rw [hfree (eq_cfg_of_cmdOffset hoff)] at hholds
    cases hholds
  rw [step_event hpri, nextEvent_head hin hnot, takeEvent_head hin hnot, runEvent, hostWrite_cmdOffset]
  exact cmdWrite_issues hf (by cases p <;> exact hb) hfree hw

end

/-- Settles O4. -/
theorem stepRunsTheDecodedInstruction : Obligations.StepRunsTheDecodedInstruction := by
  refine ⟨fun s p w i rest hpri hin hf hfree hb hw => step_cmd_write hpri hin hf hfree hb hw, fun s i hpri he hp hi => ?_,
    fun s i hpri he hp hi => ?_, fun s hpri he hp => ?_, fun s w i hpri hw => ?_⟩
  · rw [step_event hpri, he]
    exact rxTurn_latched (by rw [takeEvent_rx]; exact hp) (by rw [latchedRx, takeEvent_rx]; exact hi)
  · rw [step_event hpri, he]
    exact txTurn_latched (by rw [takeEvent_tx]; exact hp) (by rw [latchedTx, takeEvent_tx]; exact hi)
  · rw [step_event hpri, he]
    exact isrTurn_busy (by rw [takeEvent_isr]; exact hp)
  · rw [step_request hpri, answerPri_decoded hw]
    rfl

/-! ### Placing a word (log 10) -/

theorem withFetchWord_encode (s : State) (i : Instr) : s.withFetchWord 32 (encode i).toNat = placeWord s (encode i) := by
  rw [State.withFetchWord, Nat.mod_eq_of_lt (encode i).isLt, BitVec.ofNat_toNat, BitVec.setWidth_eq]

/-- No host command's encoding is a request (R111). -/
theorem decodePri_encode_host {i : Instr} {p : Port} (hp : i.port = some p) : decodePri (encode i) = none := by
  cases h : decodePri (encode i) with
  | none => rfl
  | some j =>
    have hj := (carries_of_decodePri h).2.2
    have hback := decodeHost_encode j
    rw [encode_of_decodePri h, decodeHost_encode, hp, hj] at hback
    cases hback

theorem placeWord_host (s : State) {i : Instr} {p : Port} (hp : i.port = some p) : placeWord s (encode i) =
    (takePri s).setEnv { s.env with inputs := .hostWrite (cmdOffset p) 4 (encode i) :: s.env.inputs } := by
  rw [placeWord, decodePri_encode_host hp, (rowMatch_statement i).2 p hp]

theorem placeWord_request (s : State) {i : Instr} (hp : i.port = none) :
    placeWord s (encode i) = s.setPri { s.pri with pending := some (encode i) } := by
  rw [placeWord, decodePri_encode hp]

/-- Settles O5. -/
theorem placedWordRuns : Obligations.PlacedWordRuns := by
  refine ⟨fun s i p hp hf hfree hb => ?_, fun s i hp => ?_⟩
  · rw [withFetchWord_encode, placeWord_host s hp]
    exact step_cmd_write rfl rfl hf hfree (by cases p <;> exact hb) (decodeCmd_encode hp)
  · rw [withFetchWord_encode, placeWord_request s hp, step_request rfl, answerPri_decoded (decodePri_encode hp)]
    rfl

/-! ### `CMD` writes that issue nothing -/

/-- Behind a held CFG command the host's accesses wait, so the next event is the first one that is no access (log 7). -/
theorem next_behind_held {s : State} {held e : Event} {accesses rest : List Event} (hheld : heldEvent s held = true)
    (hhost : hostAccess held = true) (hacc : accesses.all hostAccess = true) (he : hostAccess e = false)
    (hin : s.env.inputs = held :: accesses ++ e :: rest) :
    nextEvent s = e ∧ takeEvent s = s.setEnv { s.env with inputs := held :: accesses ++ rest } := by
  have htake : mayTake s = fun f => !hostAccess f := funext fun f => mayTake_held hin hheld f
  have hfront : ∀ f ∈ held :: accesses, ¬ (!hostAccess f) = true := by
    simpa [hhost] using List.all_eq_true.mp hacc
  have hnone : (held :: accesses).find? (fun f => !hostAccess f) = none := List.find?_eq_none.mpr hfront
  constructor
  · rw [nextEvent, htake, hin, List.find?_append, hnone]
    simp [he]
  · have hany : s.env.inputs.any (mayTake s) = true := by
      rw [htake, hin]
      simp [he]
    have herase : s.env.inputs.eraseP (mayTake s) = held :: accesses ++ rest := by
      rw [htake, hin, List.eraseP_append_right _ hfront]
      simp [he]
    rw [takeEvent, if_pos hany, herase]

/-- Settles O6. -/
theorem commandWritesThatIssueNothing : Obligations.CommandWritesThatIssueNothing := by
  refine ⟨fun p w s hf => ?_, fun w s hp => ?_, fun w s hf hp => ?_, fun w s hf hp => ?_, fun w s hf hw => ?_,
    fun w s hf hp hw => ?_, fun w s hf hp hw => ?_, fun w s hf hp hw => ?_, fun w i s hf hh hw => ?_,
    fun w i s e accesses rest hf hh hw hacc he hin => ?_⟩
  · rw [hostWrite_cmdOffset, cmdWrite_fatal p w hf]
  · rw [hostWrite_cmdOffset]
    cases hf : s.drv.fatal with
    | true => exact cmdWrite_fatal _ w hf
    | false => exact cmdWrite_busy w hf (decide_eq_true hp)
  · rw [hostWrite_cmdOffset]
    exact cmdWrite_busy w hf (decide_eq_true hp)
  · rw [hostWrite_cmdOffset]
    exact cmdWrite_busy w hf (decide_eq_true hp)
  · rw [hostWrite_cmdOffset]
    exact cmdWrite_illegal hf rfl hw
  · rw [hostWrite_cmdOffset, cmdWrite_illegal hf (by simp [portBusy, hp]) hw, illegalCmd, respondRx_eq, ← hp]
    rfl
  · rw [hostWrite_cmdOffset, cmdWrite_illegal hf (by simp [portBusy, hp]) hw, illegalCmd, respondTx_eq, ← hp]
    rfl
  · rw [hostWrite_cmdOffset, cmdWrite_illegal hf (by simp [portBusy, hp]) hw]
    rfl
  · rw [hostWrite_cmdOffset, cmdWrite_legal hf rfl hw, if_pos (by simp [cfgHeld, hh])]
    rfl
  · exact next_behind_held (by simp [heldEvent, wholeReg_cmdOffset, hf, cfgHeld, hh, hw]) rfl hacc he hin

/-! ### The host's plain accesses (R35, R71, R75) -/

/-- The numbers of the six operand registers. -/
abbrev operandRegs : List Nat := [1, 2, 9, 10, 17, 18]

/-- An operand register holds what the host writes, and the write touches no other register. -/
theorem readReg_writeOperand (s : State) {k : Nat} (v : Word) (hk : k ∈ operandRegs) (j : Nat) :
    readReg (writeOperand s k v) j = if j = k then v else readReg s j := by
  by_cases hj : j = k
  · subst hj
    rw [if_pos rfl]
    simp only [operandRegs, List.mem_cons, List.not_mem_nil, or_false] at hk
    rcases hk with rfl | rfl | rfl | rfl | rfl | rfl <;> rfl
  · rw [if_neg hj]
    simp only [operandRegs, List.mem_cons, List.not_mem_nil, or_false] at hk
    rcases hk with rfl | rfl | rfl | rfl | rfl | rfl <;> unfold readReg <;> split <;> first | rfl | exact absurd rfl hj

/-- Every register but the operand registers ignores a write that reaches it. -/
theorem writeOperand_other (s : State) {k : Nat} (v : Word) (hk : k ∉ operandRegs) : writeOperand s k v = s := by
  unfold writeOperand
  split
  all_goals first | rfl | simp [operandRegs] at hk

theorem cmdPort_eq_none {k : Nat} (hk : k ∉ [0, 8, 16, 24]) : cmdPort k = none := by
  unfold cmdPort
  split
  all_goals first | rfl | simp at hk

/-- `CMD` registers and reserved registers read 0. -/
theorem readReg_unreadable (s : State) {k : Nat}
    (hk : k ∈ [0, 5, 6, 7, 8, 13, 14, 15, 16, 21, 22, 23, 24, 25, 26, 28, 29, 30, 31] ∨ 40 ≤ k) : readReg s k = 0#32 := by
  unfold readReg
  split
  all_goals first | rfl | simp at hk

theorem hostWrite_whole (s : State) {k : Nat} (v : Word) (hk : k < 64) (hcmd : k ∉ [0, 8, 16, 24]) :
    hostWrite (BitVec.ofNat 8 (4 * k)) 4 v s = .next (writeOperand s k v) := by
  obtain ⟨hwhole, hnum⟩ := wholeReg_ofNat hk
  simp only [hostWrite, hwhole, if_true, hnum, cmdPort_eq_none hcmd]

theorem hostRead_whole (s : State) {k : Nat} (hk : k < 64) :
    hostRead (BitVec.ofNat 8 (4 * k)) 4 s = .next (latchHostData s (readReg s k)) := by
  obtain ⟨hwhole, hnum⟩ := wholeReg_ofNat hk
  simp only [hostRead, hwhole, if_true, hnum]

/-- An access that is not one whole register has no meaning (U9). -/
theorem host_access_partial (s : State) {off : BitVec 8} {bytes : Nat} (v : Word) (h : bytes ≠ 4 ∨ off.toNat % 4 ≠ 0) :
    hostWrite off bytes v s = .refused .hrfAccess ∧ hostRead off bytes s = .refused .hrfAccess := by
  have hpart : wholeReg off bytes = false := by
    rcases h with h | h <;> simp [wholeReg, h]
  constructor
  · simp [hostWrite, hpart]
  · simp [hostRead, hpart]

theorem byte_setWidth (b : Byte) : b.setWidth 32 = 0#24 ++ b := by
  revert b
  decide

/-- Settles O7. -/
theorem hostRegisterFileAndMemory : Obligations.HostRegisterFileAndMemory := by
  refine ⟨fun s k j v hk => readReg_writeOperand s v hk j, fun s k v hk => writeOperand_other s v hk,
    fun s k hk => readReg_unreadable s hk, fun s k v hk hcmd => hostWrite_whole s v hk hcmd, fun s k hk => hostRead_whole s hk,
    fun s off bytes v h => host_access_partial s v h, fun s a b hm => ?_⟩
  have hread : ∀ x : Word, memRead (memWrite s a b) x = if x = a then b else memRead s x :=
    fun x => memRead_memWrite (Memory.wf_rising hm) a x b
  refine ⟨memWrite s a b, rfl, rfl, memWrite_wf a b hm, hread, fun x => ?_⟩
  rw [← hread x, ← byte_setWidth]
  rfl

end Sys2Proof.Machine
end

