-- ==== Sys2Proof/Proofs/ReceiveSteps.lean ====
section
/-!
PROOF. The steps of the RX port that stand beside `ReadSteps`: `DISABLE_RX` (R171), the issue of the two reads (R180, R181), the
sleep and its ends (R178, R179, R183), and `READ_BYTE`'s COPY with ADV of both reads (R180, R181).
-/

namespace Sys2Proof.Machine

section
variable {s : State}

/-! ### `DISABLE_RX` (R171) -/

theorem exec_disableRx_idle (hf : s.drv.fatal = false) (hp : s.rx.phase = .idle) :
    exec .disableRx s = .next (issueRx s (encode .disableRx) .dr1) := by
  rw [exec, execDisableRx, rxStep_idle _ _ hp, liveStep_ready _ hf]

theorem exec_disableRx_dr1 (ha : s.appReady = true) (hp : s.rx.phase = .dr1) : exec .disableRx s = rxDR1 s := by
  simp [exec, execDisableRx, rxStep_busy, appStep_ready _ ha, hp]

theorem exec_disableRx_dr2 (ha : s.appReady = true) (hp : s.rx.phase = .dr2) : exec .disableRx s = rxDR2 s := by
  simp [exec, execDisableRx, rxStep_busy, appStep_ready _ ha, hp]

theorem exec_disableRx_dr3 (ha : s.appReady = true) (hp : s.rx.phase = .dr3) : exec .disableRx s = rxDR3 s := by
  simp [exec, execDisableRx, rxStep_busy, appStep_ready _ ha, hp]

theorem rxDR1_disabled (hoff : s.drv.rxEnabled = false) : rxDR1 s = .next (respondRx s .ok 0#4 0#8 0#32) := by
  simp [rxDR1, hoff]

/-- DR1's mask: what is left of `ie` without its receive and status bits. -/
theorem rxDR1_enabled (hon : s.drv.rxEnabled = true) : rxDR1 s = .next
    { s with
      drv := { s.drv with ie := s.drv.ie &&& 2#3 }, per := { s.per with pmask := s.drv.ie &&& 2#3 }
      pri := { s.pri with req := encode (.priSetIe (s.drv.ie &&& 2#3)), rsp := 0#32 }
      rx := { s.rx with phase := .dr2 } } := by
  rw [rxDR1, if_pos hon, ieClr_eq]
  rfl

theorem rxDR2_hold (h : s.drv.isrState = .inRx) : rxDR2 s = .next s := if_pos h

theorem rxDR2_leave (h : s.drv.isrState ≠ .inRx) : rxDR2 s = .next (rxGo s .dr3) := if_neg h

/-! ### The issue of the reads, RD0 and RB0 (R180, R181) -/

theorem exec_read_idle (hf : s.drv.fatal = false) (hp : s.rx.phase = .idle) : exec .read s = rxRD0 s := by
  rw [exec, execRead, rxStep_idle _ _ hp, liveStep_ready _ hf]

theorem exec_readByte_idle (hf : s.drv.fatal = false) (hp : s.rx.phase = .idle) : exec .readByte s = rxRB0 s := by
  rw [exec, execReadByte, rxStep_idle _ _ hp, liveStep_ready _ hf]

theorem rxRD0_disabled (hoff : s.drv.rxEnabled = false) : rxRD0 s = .refused .rxDisabled := by simp [rxRD0, hoff]

theorem rxRD0_empty (hon : s.drv.rxEnabled = true) (hlen : s.regs.rxA1 = 0#32) :
    rxRD0 s = .next (respondRx (issueRx s (encode .read) .idle) .ok 0#4 0#8 0#32) := by simp [rxRD0, hon, hlen]

theorem rxRD0_bytes (hon : s.drv.rxEnabled = true) (hlen : s.regs.rxA1 ≠ 0#32) :
    rxRD0 s = .next (issueRx s (encode .read) .p1) := by simp [rxRD0, hon, hlen]

theorem rxRB0_disabled (hoff : s.drv.rxEnabled = false) : rxRB0 s = .refused .rxDisabled := by simp [rxRB0, hoff]

theorem rxRB0_enabled (hon : s.drv.rxEnabled = true) : rxRB0 s = .next (issueRx s (encode .readByte) .p1) := by
  simp [rxRB0, hon]

/-! ### The label of the sleep that is next (R178, R179, R183) -/

theorem rxShared_p4 (hp : s.rx.phase = .p4) (b : Byte) : rxShared b s = rxP4 s := by simp only [rxShared, hp]

theorem rxShared_p4l (hp : s.rx.phase = .p4l) (b : Byte) : rxShared b s = rxP4L s := by simp only [rxShared, hp]

theorem rxShared_p5 (hp : s.rx.phase = .p5) (b : Byte) : rxShared b s = rxP5 s := by simp only [rxShared, hp]

theorem rxShared_p5s (hp : s.rx.phase = .p5s) (b : Byte) : rxShared b s = rxP5S s := by simp only [rxShared, hp]

theorem rxShared_p5l (hp : s.rx.phase = .p5l) (b : Byte) : rxShared b s = rxP5L s := by simp only [rxShared, hp]

theorem rxShared_p6 (hp : s.rx.phase = .p6) (b : Byte) : rxShared b s = rxP6 s := by simp only [rxShared, hp]

theorem rxShared_adv (hp : s.rx.phase = .adv) (b : Byte) : rxShared b s = rxADV s := by simp only [rxShared, hp]

/-! ### What the sleep's steps do -/

theorem rxP4L_woken (h : s.drv.rxWake = true) : rxP4L s = .next
    (s.setRx { s.rx with waitOk := true, timer := s.rx.timer.disarm, phase := .p6 }) := by simp [rxP4L, h]

theorem rxP4L_expired (h : s.drv.rxWake = false) (ht : s.rx.timer.expired = true) : rxP4L s = .next
    (s.setRx { s.rx with waitOk := false, timer := s.rx.timer.disarm, phase := .p5 }) := by simp [rxP4L, h, ht]

theorem rxP4L_hold (h : s.drv.rxWake = false) (ht : s.rx.timer.expired = false) : rxP4L s = .next s := by
  simp [rxP4L, h, ht]

theorem rxP5_timeout (h : s.drv.rxWakeRequested = true) : rxP5 s = .next
    (respondRx (s.setDrv { s.drv with rxWakeRequested := false }) .timeout 0#4 0#8 0#32) := by
  rw [rxP5, casWakeRequest_requested s h]
  rfl

theorem rxP5_late (h : s.drv.rxWakeRequested = false) : rxP5 s = .next (rxGo s .p5s) := by
  rw [rxP5, casWakeRequest_none s h]
  rfl

theorem rxP5L_woken (h : s.drv.rxWake = true) : rxP5L s = .next (rxGo s .p6) := if_pos h

theorem rxP5L_hold (h : s.drv.rxWake = false) : rxP5L s = .next s := if_neg (Bool.eq_false_iff.mp h)

theorem rxP6_empty (h : s.drv.nextWrite = s.drv.nextRead) : rxP6 s = .next (raiseFatal s .wakeOnEmpty) := if_pos h

theorem rxP6_data (h : s.drv.nextWrite ≠ s.drv.nextRead) :
    rxP6 s = .next (s.setRx { s.rx with nwSnap := s.drv.nextWrite, phase := .copy }) := if_neg h

theorem Timer.not_expired_iff (t : Timer) : t.expired = false ↔ t.armed = false ∨ t.count ≠ 0#32 := by
  cases h : t.armed <;> simp [Timer.expired, h]

/-! ### `READ_BYTE`'s COPY, and ADV (R180, R181) -/

theorem exec_readByte_copy (ha : s.appReady = true) (hp : s.rx.phase = .copy) : exec .readByte s = rxCopyByte s := by
  simp [exec, execReadByte, rxStep_busy, appStep_ready _ ha, hp]

theorem rxCopyByte_eq (h : s.drv.nextRead.toNat < s.cfg.capMax) : rxCopyByte s = .next
    (s.setRx { s.rx with rdByte := bufSlot s s.drv.nextRead.toNat, rdN := 1#32, phase := .adv }) := by
  simp [rxCopyByte, bufGet, h]

/-- The consumer's index moves on modulo the capacity (R133). -/
theorem idxAdd_eq_mod {cap nr : Word} {n : Nat} (hr : nr.toNat < cap.toNat) (hn : n < cap.toNat) :
    idxAdd cap nr n = BitVec.ofNat 32 ((nr.toNat + n) % cap.toNat) := by
  unfold idxAdd
  split
  · next h => rw [Nat.mod_eq_of_lt h]
  · next h => rw [Nat.mod_eq_sub_mod (by omega), Nat.mod_eq_of_lt (by omega)]

end

/-- Settles O19. -/
theorem disableRxSteps : Obligations.DisableRxSteps := by
  refine ⟨fun s hf hp => exec_disableRx_idle hf hp, fun s ha hp hoff => ?_, fun s m ha hp hon hm => ?_,
    fun s ha hp h => ?_, fun s ha hp h => ?_, fun s ha hp => ?_⟩
  · rw [exec_disableRx_dr1 ha hp, rxDR1_disabled hoff]
    rfl
  · rw [exec_disableRx_dr1 ha hp, rxDR1_enabled hon, encode_priSetIe, hm]
  · rw [exec_disableRx_dr2 ha hp, rxDR2_hold h]
  · rw [exec_disableRx_dr2 ha hp, rxDR2_leave h]
    rfl
  · rw [exec_disableRx_dr3 ha hp]
    rfl

/-- Settles O20. -/
theorem readIssue : Obligations.ReadIssue := by
  refine ⟨fun s hf hp hon hlen => ?_, fun s hf hp hon hlen => ?_, fun s hf hp hon => ?_, fun i s hi hf hp hoff => ?_⟩
  · exact (exec_read_idle hf hp).trans (rxRD0_bytes hon hlen)
  · exact (exec_read_idle hf hp).trans (rxRD0_empty hon hlen)
  · exact (exec_readByte_idle hf hp).trans (rxRB0_enabled hon)
  · rcases hi with rfl | rfl
    · exact (exec_read_idle hf hp).trans (rxRD0_disabled hoff)
    · exact (exec_readByte_idle hf hp).trans (rxRB0_disabled hoff)

/-- Settles O22: the first sleep ends by a signal, by expiry or not at all, and the verdict of P6 splits on the ring. -/
theorem waitProtocolFromTheSleep : Obligations.WaitProtocolFromTheSleep := by
  intro i s hi ha
  have at_label {p : RxPhase} {r : Result} (hp : s.rx.phase = p) (hlabel : p ≠ .idle ∧ p ≠ .copy)
      (hr : ∀ b, rxShared b s = r) : exec i s = r := exec_of_rxShared hi ha hp hlabel hr
  refine ⟨fun hp hT => ?_, fun hp hT => ?_, fun hp hw => ?_, fun hp hw harm hz => ?_, fun hp hw ht => ?_, fun hp hr => ?_,
    fun hp hr => ?_, fun hp => ?_, fun hp hw => ?_, fun hp hw => ?_, fun hp he => ?_, fun hp he => ?_⟩
  · rw [at_label hp (by decide) (rxShared_p4 hp), rxP4, Timer.arm_finite _ hT]
    rfl
  · rw [at_label hp (by decide) (rxShared_p4 hp), rxP4, hT]
    rfl
  · exact (at_label hp (by decide) (rxShared_p4l hp)).trans (rxP4L_woken hw)
  · exact (at_label hp (by decide) (rxShared_p4l hp)).trans (rxP4L_expired hw ((Timer.expired_iff _).mpr ⟨harm, hz⟩))
  · exact (at_label hp (by decide) (rxShared_p4l hp)).trans (rxP4L_hold hw ((Timer.not_expired_iff _).mpr ht))
  · exact (at_label hp (by decide) (rxShared_p5 hp)).trans (rxP5_timeout hr)
  · exact (at_label hp (by decide) (rxShared_p5 hp)).trans (rxP5_late hr)
  · exact at_label hp (by decide) (rxShared_p5s hp)
  · exact (at_label hp (by decide) (rxShared_p5l hp)).trans (rxP5L_woken hw)
  · exact (at_label hp (by decide) (rxShared_p5l hp)).trans (rxP5L_hold hw)
  · exact (at_label hp (by decide) (rxShared_p6 hp)).trans (rxP6_empty he)
  · exact (at_label hp (by decide) (rxShared_p6 hp)).trans (rxP6_data he)

/-- Settles O24. -/
theorem readByteCopyAndAdvance : Obligations.ReadByteCopyAndAdvance := by
  refine ⟨fun s ha hp hr => (exec_readByte_copy ha hp).trans (rxCopyByte_eq hr), fun i s hi ha hp hr hn => ?_⟩
  rw [exec_of_rxShared hi ha hp (by decide) (rxShared_adv hp), rxADV, idxAdd_eq_mod hr hn]
  rfl

end Sys2Proof.Machine
end

