-- ==== Sys2Proof/Proofs/TransmitSteps.lean ====
section
/-!
PROOF. The steps of the TX port that stand beside `WriteSteps`: `ENABLE_TX` and `DISABLE_TX` (R210, R211), the writer's sleep, spin
and response (R218, R220, R221), and `FLUSH` (R224).
-/

namespace Sys2Proof.Machine

section
variable {s : State}

/-! ### `ENABLE_TX` and `DISABLE_TX` -/

theorem exec_enableTx_idle (hf : s.drv.fatal = false) (hp : s.tx.phase = .idle) :
    exec .enableTx s = .next (issueTx s (encode .enableTx) .te1) := by
  rw [exec, execEnableTx, txStep_idle _ _ hp, liveStep_ready _ hf]

theorem exec_enableTx_te1 (ha : s.appReady = true) (hp : s.tx.phase = .te1) : exec .enableTx s = txTE1 s := by
  simp [exec, execEnableTx, txStep_busy, appStep_ready _ ha, hp]

theorem exec_disableTx_idle (hf : s.drv.fatal = false) (hp : s.tx.phase = .idle) :
    exec .disableTx s = .next (issueTx s (encode .disableTx) .dt1) := by
  rw [exec, execDisableTx, txStep_idle _ _ hp, liveStep_ready _ hf]

theorem exec_disableTx_dt1 (ha : s.appReady = true) (hp : s.tx.phase = .dt1) : exec .disableTx s = txDT1 s := by
  simp [exec, execDisableTx, txStep_busy, appStep_ready _ ha, hp]

theorem exec_disableTx_dt2 (ha : s.appReady = true) (hp : s.tx.phase = .dt2) : exec .disableTx s = txDT2 s := by
  simp [exec, execDisableTx, txStep_busy, appStep_ready _ ha, hp]

theorem exec_disableTx_dt3 (ha : s.appReady = true) (hp : s.tx.phase = .dt3) : exec .disableTx s = txDT3 s := by
  simp [exec, execDisableTx, txStep_busy, appStep_ready _ ha, hp]

theorem txDT1_disabled (hoff : s.drv.txEnabled = false) : txDT1 s = .next (respondTx s .ok 0#4 0#8 0#32) := by
  simp [txDT1, hoff]

/-- DT1's mask: what is left of `ie` without its transmit bit. -/
theorem txDT1_enabled (hon : s.drv.txEnabled = true) : txDT1 s = .next
    { s with
      drv := { s.drv with ie := s.drv.ie &&& 5#3 }, per := { s.per with pmask := s.drv.ie &&& 5#3 }
      pri := { s.pri with req := encode (.priSetIe (s.drv.ie &&& 5#3)), rsp := 0#32 }
      tx := { s.tx with phase := .dt2 } } := by
  rw [txDT1, if_pos hon, ieClr_eq]
  rfl

theorem txDT2_hold (h : s.drv.isrState = .inTx) : txDT2 s = .next s := if_pos h

theorem txDT2_leave (h : s.drv.isrState ≠ .inTx) : txDT2 s = .next (txGo s .dt3) := if_neg h

/-! ### The writer's sleep and spin (R218, R220) -/

section
variable (form : PayloadForm)

theorem txWriteStep_w7 (hp : s.tx.phase = .w7) : txWriteStep form s = txW7 s := by simp only [txWriteStep, hp]

theorem txWriteStep_w7l (hp : s.tx.phase = .w7l) : txWriteStep form s = txW7L s := by simp only [txWriteStep, hp]

theorem txWriteStep_w9 (hp : s.tx.phase = .w9) : txWriteStep form s = txW9 s := by simp only [txWriteStep, hp]

end

theorem txW7L_woken (h : s.drv.txDone = true) : txW7L s = .next
    (s.setTx { s.tx with waitOk := true, timer := s.tx.timer.disarm, phase := .w9 }) := by simp [txW7L, h]

theorem txW7L_expired (h : s.drv.txDone = false) (ht : s.tx.timer.expired = true) : txW7L s = .next
    (s.setTx { s.tx with waitOk := false, timer := s.tx.timer.disarm, phase := .w8 }) := by simp [txW7L, h, ht]

theorem txW7L_hold (h : s.drv.txDone = false) (ht : s.tx.timer.expired = false) : txW7L s = .next s := by
  simp [txW7L, h, ht]

theorem txW9_hold (h : s.drv.isrState = .inTx) : txW9 s = .next s := if_pos h

theorem txW9_leave (h : s.drv.isrState ≠ .inTx) : txW9 s = .next (txGo s .w10) := if_neg h

/-! ### `FLUSH` (R224) -/

theorem exec_flush_idle (hf : s.drv.fatal = false) (hp : s.tx.phase = .idle) :
    exec .flush s = .next (issueTx s (encode .flush) .fl1) := by
  rw [exec, execFlush, txStep_idle _ _ hp, liveStep_ready _ hf]

theorem exec_flush_fl1 (ha : s.appReady = true) (hp : s.tx.phase = .fl1) : exec .flush s = txFL1 s := by
  simp [exec, execFlush, txStep_busy, appStep_ready _ ha, hp]

theorem exec_flush_fl2 (ha : s.appReady = true) (hp : s.tx.phase = .fl2) : exec .flush s = txFL2 s := by
  simp [exec, execFlush, txStep_busy, appStep_ready _ ha, hp]

theorem txFL2_hold (hfifo : s.per.txFifo ≠ []) (ht : s.tx.timer.expired = false) : txFL2 s = .next s := by
  simp [txFL2, transmitDone_eq, hfifo, ht]

/-- The response of FL2: an empty FIFO is `OK` whatever the timer says (R345 (d)). -/
theorem rspWord_flushed (fifo : List Byte) :
    rspWord (errCode (if decide (fifo = []) then .ok else .timeout)) 0#4 0#8 = if fifo = [] then 0#32 else 1#32 := by
  by_cases h : fifo = []
  · rw [if_pos h, decide_eq_true h]
    rfl
  · rw [if_neg h, decide_eq_false h]
    rfl

theorem txFL2_leave (h : s.per.txFifo = [] ∨ s.tx.timer.expired = true) : txFL2 s = .next
    { s with
      drv := { s.drv with errMask := s.drv.errMask ||| (if s.cfg.hasLineStatus then s.per.hwerr else 0#4) }
      per := { s.per with hwerr := 0#4 }
      pri := { s.pri with req := 0x20000000#32, rsp := statusRsp (peripheralStatus s.cfg s.per) }
      regs := { s.regs with txRsp := if s.per.txFifo = [] then 0#32 else 1#32, txN := 0#32 }
      tx := { s.tx with timer := s.tx.timer.disarm, phase := .idle } } := by
  have hleave : (transmitDone s.per || s.tx.timer.expired) = true := by simpa [transmitDone_eq] using h
  rw [txFL2, if_pos hleave, pStatus_eq, ← rspWord_flushed, ← transmitDone_eq]
  rfl

end

/-- Settles O27. -/
theorem enableDisableTxSteps : Obligations.EnableDisableTxSteps := by
  refine ⟨fun s hf hp => exec_enableTx_idle hf hp, fun s ha hp => ?_, fun s hf hp => exec_disableTx_idle hf hp,
    fun s ha hp hoff => ?_, fun s m ha hp hon hm => ?_, fun s ha hp h => ?_, fun s ha hp h => ?_, fun s ha hp => ?_⟩
  · rw [exec_enableTx_te1 ha hp]
    rfl
  · rw [exec_disableTx_dt1 ha hp, txDT1_disabled hoff]
    rfl
  · rw [exec_disableTx_dt1 ha hp, txDT1_enabled hon, encode_priSetIe, hm]
  · rw [exec_disableTx_dt2 ha hp, txDT2_hold h]
  · rw [exec_disableTx_dt2 ha hp, txDT2_leave h]
    rfl
  · rw [exec_disableTx_dt3 ha hp]
    rfl

/-- Settles O31. -/
theorem writeSleepAndResponse : Obligations.WriteSleepAndResponse := by
  intro i s hw ha
  have at_label {p : TxPhase} (hp : s.tx.phase = p) (hbusy : p ≠ .idle) := exec_write_busy hw ha hp hbusy
  refine ⟨fun hp hT => ?_, fun hp hT => ?_, fun hp hd => ?_, fun hp hd harm hz => ?_, fun hp hd ht => ?_, fun hp h => ?_,
    fun hp h => ?_, fun hp => ?_⟩
  · rw [at_label hp (by decide), txWriteStep_w7 _ hp, txW7, Timer.arm_finite _ hT]
    rfl
  · rw [at_label hp (by decide), txWriteStep_w7 _ hp, txW7, hT]
    rfl
  · rw [at_label hp (by decide), txWriteStep_w7l _ hp, txW7L_woken hd]
    rfl
  · rw [at_label hp (by decide), txWriteStep_w7l _ hp, txW7L_expired hd ((Timer.expired_iff _).mpr ⟨harm, hz⟩)]
    rfl
  · rw [at_label hp (by decide), txWriteStep_w7l _ hp, txW7L_hold hd ((Timer.not_expired_iff _).mpr ht)]
  · rw [at_label hp (by decide), txWriteStep_w9 _ hp, txW9_hold h]
  · rw [at_label hp (by decide), txWriteStep_w9 _ hp, txW9_leave h]
    rfl
  · rw [at_label hp (by decide), txWriteStep_w10 _ hp, txW10_eq]
    rfl

/-- Settles O35. -/
theorem flushSteps : Obligations.FlushSteps := by
  refine ⟨fun s hf hp => exec_flush_idle hf hp, fun s ha hp hT => ?_, fun s ha hp hT => ?_, fun s ha hp hfifo ht => ?_,
    fun s e ha hp h he => ?_⟩
  · rw [exec_flush_fl1 ha hp, txFL1, Timer.arm_finite _ hT]
    rfl
  · rw [exec_flush_fl1 ha hp, txFL1, hT]
    rfl
  · rw [exec_flush_fl2 ha hp, txFL2_hold hfifo ((Timer.not_expired_iff _).mpr ht)]
  · rw [exec_flush_fl2 ha hp, txFL2_leave (h.imp_right (Timer.expired_iff _).mpr), he]
    rfl

end Sys2Proof.Machine
end

