-- ==== Sys2Proof/Proofs/Environment.lean ====
section
/-!
PROOF. `CONFIGURE` (R280), the PRI requests that can be refused (R300, R301, R305, R306), the steps of agent LINE (R313 to R316),
reset (R45, R310, R380), and the late wake-up of R384 as a concrete run.
-/

namespace Sys2Proof.Machine

/-- Settles O15: both requests in one step, so the record shows the second one. -/
theorem configureResult : Obligations.ConfigureResult := by
  intro lcrf s ha
  rw [exec, execConfigure, cfgStep_ready ha, respondCfg_eq, priSetBaudDiv, priExchange, encode_priSetBaudDiv]
  rfl

section
variable {s : State}

/-! ### The FIFO requests (R300, R301) -/

theorem exec_priLoad_cons {b : Byte} {rest : List Byte} (h : s.per.rxFifo = b :: rest) : exec .priLoad s = .next
    { s with
      per := { s.per with rxFifo := rest, rxStale := if rest = [] then false else s.per.rxStale }
      pri := { s.pri with req := 0#32, rsp := 0#23 ++ BitVec.ofBool (decide (rest ≠ [])) ++ b } } := by
  rw [exec, execPriLoad, priLoad_cons h]
  rfl

theorem exec_priLoad_nil (h : s.per.rxFifo = []) : exec .priLoad s = .refused .loadEmpty := by
  simp [exec, execPriLoad, priLoad, h, orRefuse]

theorem exec_priStore_room (b : Byte) (h : s.per.txFifo.length < s.cfg.txDepth) : exec (.priStore b) s = .next
    { s with
      per := { s.per with txFifo := s.per.txFifo ++ [b] }
      pri := { s.pri with req := 0x10#8 ++ 0#16 ++ b, rsp := 0#32 } } := by
  rw [exec, execPriStore, priStore_room b h]
  rfl

theorem exec_priStore_full (b : Byte) (h : s.cfg.txDepth ≤ s.per.txFifo.length) :
    exec (.priStore b) s = .refused .storeFull := by
  rw [exec, execPriStore, priStore, if_neg (Nat.not_lt.mpr h)]
  rfl

/-! ### The trigger levels (R305, R306) -/

theorem rxLevelOk_iff {p : Config.Params} {n : BitVec 8} : rxLevelOk p n = true ↔ 1 ≤ n.toNat ∧ n.toNat ≤ p.rxDepth := by
  simp [rxLevelOk]

theorem txLevelOk_iff {p : Config.Params} {n : BitVec 8} : txLevelOk p n = true ↔ 1 ≤ n.toNat ∧ n.toNat ≤ p.txDepth := by
  simp [txLevelOk]

theorem exec_priSetRxTrig_legal {n : BitVec 8} (h : rxLevelOk s.cfg n = true) : exec (.priSetRxTrig n) s = .next
    { s with per := { s.per with rxTrig := n }, pri := { s.pri with req := 0x50#8 ++ 0#16 ++ n, rsp := 0#32 } } := by
  rw [exec, execPriSetRxTrig, priSetRxTrig, if_pos h, priExchange, encode_priSetRxTrig]
  rfl

theorem exec_priSetRxTrig_illegal {n : BitVec 8} (h : ¬ rxLevelOk s.cfg n = true) :
    exec (.priSetRxTrig n) s = .refused .triggerRange := by
  rw [exec, execPriSetRxTrig, priSetRxTrig, if_neg h]
  rfl

theorem exec_priSetTxTrig_legal {n : BitVec 8} (h : txLevelOk s.cfg n = true) : exec (.priSetTxTrig n) s = .next
    { s with per := { s.per with txTrig := n }, pri := { s.pri with req := 0x60#8 ++ 0#16 ++ n, rsp := 0#32 } } := by
  rw [exec, execPriSetTxTrig, priSetTxTrig, if_pos h, priExchange, encode_priSetTxTrig]
  rfl

theorem exec_priSetTxTrig_illegal {n : BitVec 8} (h : ¬ txLevelOk s.cfg n = true) :
    exec (.priSetTxTrig n) s = .refused .triggerRange := by
  rw [exec, execPriSetTxTrig, priSetTxTrig, if_neg h]
  rfl

/-! ### The steps of LINE (R313 to R316) -/

theorem lineRx_room (b : Byte) (h : s.per.rxFifo.length < s.cfg.rxDepth) :
    lineRx s b = s.setPer { s.per with rxFifo := s.per.rxFifo ++ [b] } := if_pos h

theorem lineRx_overrun (b : Byte) (h : s.cfg.rxDepth ≤ s.per.rxFifo.length) (hst : s.cfg.hasLineStatus = true) :
    lineRx s b = s.setPer { s.per with hwerr := s.per.hwerr ||| flagOE } := by
  rw [lineRx, if_neg (Nat.not_lt.mpr h), if_pos hst]

theorem lineRx_lost (b : Byte) (h : s.cfg.rxDepth ≤ s.per.rxFifo.length) (hst : s.cfg.hasLineStatus = false) :
    lineRx s b = s := by
  rw [lineRx, if_neg (Nat.not_lt.mpr h), if_neg (Bool.eq_false_iff.mp hst)]

theorem lineTx_cons {b : Byte} {rest : List Byte} (h : s.per.txFifo = b :: rest) :
    lineTx s = s.setPer { s.per with txFifo := rest, wire := s.per.wire ++ [b] } := by
  simp only [lineTx, h]

theorem lineTx_nil (h : s.per.txFifo = []) : lineTx s = s := by
  simp only [lineTx, h]

theorem lineErr_taken {f : BitVec 4} (hst : s.cfg.hasLineStatus = true) (hf : f ≠ 0#4) :
    lineErr s f = s.setPer { s.per with hwerr := s.per.hwerr ||| f } := by
  simp [lineErr, hst, hf]

theorem lineErr_idle {f : BitVec 4} (h : s.cfg.hasLineStatus = false ∨ f = 0#4) : lineErr s f = s := by
  rcases h with h | h <;> simp [lineErr, h]

theorem rxIdle_marked (h : 1 ≤ s.per.rxFifo.length) : rxIdle s = s.setPer { s.per with rxStale := true } := if_pos h

theorem rxIdle_empty (h : s.per.rxFifo = []) : rxIdle s = s := by simp [rxIdle, h]

end

/-- Settles O45. -/
theorem priFifoRequests : Obligations.PriFifoRequests :=
  ⟨fun _ _ _ h => exec_priLoad_cons h, fun _ h => exec_priLoad_nil h, fun b _ h => exec_priStore_room b h,
    fun b _ h => exec_priStore_full b h⟩

/-- Settles O47. -/
theorem priTriggerLevels : Obligations.PriTriggerLevels := by
  refine ⟨fun n s h1 h => exec_priSetRxTrig_legal (rxLevelOk_iff.mpr ⟨h1, h⟩), fun n s h => exec_priSetRxTrig_illegal ?_,
    fun n s h1 h => exec_priSetTxTrig_legal (txLevelOk_iff.mpr ⟨h1, h⟩), fun n s h => exec_priSetTxTrig_illegal ?_⟩
  · rw [rxLevelOk_iff]
    omega
  · rw [txLevelOk_iff]
    omega

/-- Settles O48. -/
theorem lineSteps : Obligations.LineSteps := by
  refine ⟨fun b s h => ?_, fun b s h hst => ?_, fun b s h hst => ?_, fun s b rest h => ?_, fun s h => ?_, fun f s hst hf => ?_,
    fun f s h => ?_, fun s h => ?_, fun s h => ?_⟩
  · rw [runEvent, lineRx_room b h]
    rfl
  · rw [runEvent, lineRx_overrun b h hst]
    rfl
  · rw [runEvent, lineRx_lost b h hst]
  · rw [runEvent, lineTx_cons h]
    rfl
  · rw [runEvent, lineTx_nil h]
  · rw [runEvent, lineErr_taken hst hf]
    rfl
  · rw [runEvent, lineErr_idle h]
  · rw [runEvent, rxIdle_marked h]
    rfl
  · rw [runEvent, rxIdle_empty h]

/-! ### Reset (R45, R310, R380) -/

/-- The two timeout registers read `INF` after reset, every other one 0. -/
theorem readReg_reset (k : Nat) : readReg State.reset k = if k = 38 ∨ k = 39 then 0xFFFFFFFF#32 else 0#32 := by
  by_cases h : k < 40
  · interval_cases k <;> rfl
  · rw [readReg_unreadable _ (.inr (Nat.not_lt.mp h)), if_neg (by omega)]

/-- Settles O49. -/
theorem resetState : Obligations.ResetState :=
  ⟨rfl, rfl, rfl, rfl, readReg_reset, ⟨rfl, rfl, rfl, rfl, rfl, rfl, rfl, rfl, rfl, rfl⟩, rfl, fun _ => rfl⟩

/-- Settles O50. -/
theorem resetIsGood : Obligations.ResetIsGood where
  cfgOk := by decide
  peripheral := by constructor <;> decide
  memory := by constructor <;> decide
  ports := by constructor <;> decide
  ring := by constructor <;> decide
  reading := by constructor; decide
  wake := by constructor <;> decide
  engine := by constructor <;> decide
  transmit := by constructor <;> decide

/-! ### The late wake-up (R384) -/

/-- A reader asleep on an empty ring while the engine, having taken its request, is about to wake it. -/
def lateWakeState : State :=
  { State.reset with
    drv := { Driver.reset with
      cap := 8#32, rxEnabled := true, nextRead := 6#32, nextWrite := 6#32, ie := 5#3, isrState := .inRx }
    per := { Peripheral.powerUp with pmask := 5#3 }
    regs := { HostRegs.reset with rxRsp := busyWord, svRsp := busyWord }
    rx := { RxSeq.reset with phase := .p4l, op := 0x12#8, a0 := 0x1000#32, a1 := 3#32 }
    isr := { IsrSeq.reset with phase := .i6 }
    env := { Bench.reset with inputs := [.isrSeq, .rxSeq, .rxSeq] } }

theorem lateWakeState_good : lateWakeState.Good where
  cfgOk := by decide
  peripheral := by constructor <;> decide
  memory := by constructor <;> decide
  ports := by constructor <;> decide
  ring := by constructor <;> decide
  reading := by constructor; decide
  wake := by constructor <;> decide
  engine := by constructor <;> decide
  transmit := by constructor <;> decide

/-- Settles O57: the wake arrives on an empty ring, and P6 finds nothing to take. -/
theorem lateWakeUpIsReachable : Obligations.LateWakeUpIsReachable :=
  ⟨lateWakeState, _, lateWakeState_good, rfl, rfl, rfl, rfl, rfl, rfl, rfl, rfl, rfl⟩

end Sys2Proof.Machine
end

