-- ==== Sys2Proof/Proofs/Moves.lean ====
section
/-!
PROOF. What each sequencer can do in one step, said once: a relation per sequencer with one rule per outcome of a label (R170 to
R183, R210 to R224, R251 to R266), each rule an actual step, and in a good state always one that applies. What every step keeps is
proved over these rules.
-/

namespace Sys2Proof.Machine

/-! ### RXSEQ -/

/-- The steps of RXSEQ, each under the label it leaves. -/
inductive RxMove (s : State) : State → Prop
  | en1Enabled (hp : s.rx.phase = .en1) (hon : s.drv.rxEnabled = true) :
    RxMove s { s with drv := { s.drv with fatal := true, fatalCause := 1#4 } }
  | en1Small (hp : s.rx.phase = .en1) (hoff : s.drv.rxEnabled = false) (hlow : s.rx.a0.toNat < 2) :
    RxMove s { s with drv := { s.drv with fatal := true, fatalCause := 2#4 } }
  | en1Large (hp : s.rx.phase = .en1) (hoff : s.drv.rxEnabled = false) (hlow : 2 ≤ s.rx.a0.toNat)
      (hhigh : s.cfg.capMax < s.rx.a0.toNat) :
    RxMove s { s with drv := { s.drv with fatal := true, fatalCause := 4#4 } }
  | en1 (hp : s.rx.phase = .en1) (hoff : s.drv.rxEnabled = false) (hlow : 2 ≤ s.rx.a0.toNat)
      (hhigh : s.rx.a0.toNat ≤ s.cfg.capMax) :
    RxMove s { s with
      drv := { s.drv with
        cap := s.rx.a0, nextRead := 0#32, nextWrite := 0#32, overflow := false, rxWakeRequested := false, rxWake := false
        rxEnabled := true }
      per := { s.per with rxTrig := BitVec.ofNat 8 s.cfg.rxTrig }
      pri := { s.pri with req := encode (.priSetRxTrig (BitVec.ofNat 8 s.cfg.rxTrig)), rsp := 0#32 }
      rx := { s.rx with phase := .en2 } }
  | en2 (hp : s.rx.phase = .en2) :
    RxMove s { s with
      regs := { s.regs with rxRsp := 0#32, rxN := s.rx.a0 }
      drv := { s.drv with ie := s.drv.ie ||| rxSources s.cfg }, per := { s.per with pmask := s.drv.ie ||| rxSources s.cfg }
      pri := { s.pri with req := encode (.priSetIe (s.drv.ie ||| rxSources s.cfg)), rsp := 0#32 }
      rx := { s.rx with phase := .idle } }
  | dr1Off (hp : s.rx.phase = .dr1) (hoff : s.drv.rxEnabled = false) :
    RxMove s { s with regs := { s.regs with rxRsp := 0#32, rxN := 0#32 }, rx := { s.rx with phase := .idle } }
  | dr1 (hp : s.rx.phase = .dr1) (hon : s.drv.rxEnabled = true) :
    RxMove s { s with
      drv := { s.drv with ie := s.drv.ie &&& ~~~(srcRx ||| srcSt) }
      per := { s.per with pmask := s.drv.ie &&& ~~~(srcRx ||| srcSt) }
      pri := { s.pri with req := encode (.priSetIe (s.drv.ie &&& ~~~(srcRx ||| srcSt))), rsp := 0#32 }
      rx := { s.rx with phase := .dr2 } }
  | dr2Hold (hp : s.rx.phase = .dr2) (hm : s.drv.isrState = .inRx) : RxMove s s
  | dr2 (hp : s.rx.phase = .dr2) (hm : s.drv.isrState ≠ .inRx) : RxMove s { s with rx := { s.rx with phase := .dr3 } }
  | dr3 (hp : s.rx.phase = .dr3) :
    RxMove s { s with
      regs := { s.regs with rxRsp := 0#32, rxN := s.drv.cap }
      drv := { s.drv with
        rxEnabled := false, cap := 0#32, nextRead := 0#32, nextWrite := 0#32, overflow := false, rxWakeRequested := false }
      rx := { s.rx with phase := .idle } }
  | p1Data (hp : s.rx.phase = .p1) (hd : s.drv.nextWrite ≠ s.drv.nextRead) :
    RxMove s { s with rx := { s.rx with nwSnap := s.drv.nextWrite, phase := .copy } }
  | p1Empty (hp : s.rx.phase = .p1) (he : s.drv.nextWrite = s.drv.nextRead) :
    RxMove s { s with rx := { s.rx with phase := .p2a } }
  | p2a (hp : s.rx.phase = .p2a) :
    RxMove s { s with drv := { s.drv with rxWake := false }, rx := { s.rx with phase := .p2b } }
  | p2b (hp : s.rx.phase = .p2b) :
    RxMove s { s with drv := { s.drv with rxWakeRequested := true }, rx := { s.rx with phase := .p3 } }
  | p3Data (hp : s.rx.phase = .p3) (hd : s.drv.nextWrite ≠ s.drv.nextRead) :
    RxMove s { s with rx := { s.rx with nwSnap := s.drv.nextWrite, phase := .p3c } }
  | p3Empty (hp : s.rx.phase = .p3) (he : s.drv.nextWrite = s.drv.nextRead) :
    RxMove s { s with rx := { s.rx with phase := .p4 } }
  | p3c (hp : s.rx.phase = .p3c) :
    RxMove s { s with drv := { s.drv with rxWakeRequested := false }, rx := { s.rx with phase := .copy } }
  | p4 (hp : s.rx.phase = .p4) :
    RxMove s { s with rx := { s.rx with timer := s.rx.timer.arm s.drv.readTimeout, phase := .p4l } }
  | p4lWoken (hp : s.rx.phase = .p4l) (hw : s.drv.rxWake = true) :
    RxMove s { s with rx := { s.rx with waitOk := true, timer := s.rx.timer.disarm, phase := .p6 } }
  | p4lExpired (hp : s.rx.phase = .p4l) (hw : s.drv.rxWake = false) (ht : s.rx.timer.expired = true) :
    RxMove s { s with rx := { s.rx with waitOk := false, timer := s.rx.timer.disarm, phase := .p5 } }
  | p4lHold (hp : s.rx.phase = .p4l) (hw : s.drv.rxWake = false) (ht : s.rx.timer.expired = false) : RxMove s s
  | p5Timeout (hp : s.rx.phase = .p5) (hr : s.drv.rxWakeRequested = true) :
    RxMove s { s with
      drv := { s.drv with rxWakeRequested := false }, regs := { s.regs with rxRsp := 1#32, rxN := 0#32 }
      rx := { s.rx with phase := .idle } }
  | p5Late (hp : s.rx.phase = .p5) (hr : s.drv.rxWakeRequested = false) :
    RxMove s { s with rx := { s.rx with phase := .p5s } }
  | p5s (hp : s.rx.phase = .p5s) :
    RxMove s { s with rx := { s.rx with timer := s.rx.timer.disarm, phase := .p5l } }
  | p5lWoken (hp : s.rx.phase = .p5l) (hw : s.drv.rxWake = true) : RxMove s { s with rx := { s.rx with phase := .p6 } }
  | p5lHold (hp : s.rx.phase = .p5l) (hw : s.drv.rxWake = false) : RxMove s s
  | p6Empty (hp : s.rx.phase = .p6) (he : s.drv.nextWrite = s.drv.nextRead) :
    RxMove s { s with drv := { s.drv with fatal := true, fatalCause := 3#4 } }
  | p6Data (hp : s.rx.phase = .p6) (hd : s.drv.nextWrite ≠ s.drv.nextRead) :
    RxMove s { s with rx := { s.rx with nwSnap := s.drv.nextWrite, phase := .copy } }
  | copy (hp : s.rx.phase = .copy) (hl : latchedRx s = some .read) (m : Memory)
      (hm : copyBytes (copyCount s) 0 s = some (s.setHostMem m)) :
    RxMove s { s with hostMem := m, rx := { s.rx with rdN := BitVec.ofNat 32 (copyCount s), phase := .adv } }
  | copyByte (hp : s.rx.phase = .copy) (hl : latchedRx s = some .readByte) (hr : s.drv.nextRead.toNat < s.cfg.capMax) :
    RxMove s { s with rx := { s.rx with rdByte := bufSlot s s.drv.nextRead.toNat, rdN := 1#32, phase := .adv } }
  | adv (hp : s.rx.phase = .adv) :
    RxMove s { s with
      drv := { s.drv with nextRead := idxAdd s.drv.cap s.drv.nextRead s.rx.rdN.toNat }, rx := { s.rx with phase := .fin1 } }
  | fin1 (hp : s.rx.phase = .fin1) :
    RxMove s { s with
      drv := { s.drv with overflow := false }, rx := { s.rx with rdOvf := s.drv.overflow, phase := .fin2 } }
  | fin2 (hp : s.rx.phase = .fin2) (b : Byte) (hb : ∃ i, latchedRx s = some i ∧ RespondsWith i b s) :
    RxMove s { s with
      drv := { s.drv with errMask := 0#4 }
      regs := { s.regs with
        rxRsp := rspWord (errCode (readErr s.drv.errMask s.rx.rdOvf)) s.drv.errMask b, rxN := s.rx.rdN }
      rx := { s.rx with phase := .idle } }

/-! ### TXSEQ -/

/-- The steps of TXSEQ, each under the label it leaves. -/
inductive TxMove (s : State) : State → Prop
  | te1 (hp : s.tx.phase = .te1) :
    TxMove s { s with
      regs := { s.regs with txRsp := 0#32, txN := 0#32 }, drv := { s.drv with txEnabled := true }
      tx := { s.tx with phase := .idle } }
  | dt1Off (hp : s.tx.phase = .dt1) (hoff : s.drv.txEnabled = false) :
    TxMove s { s with regs := { s.regs with txRsp := 0#32, txN := 0#32 }, tx := { s.tx with phase := .idle } }
  | dt1 (hp : s.tx.phase = .dt1) (hon : s.drv.txEnabled = true) :
    TxMove s { s with
      drv := { s.drv with ie := s.drv.ie &&& ~~~srcTx }, per := { s.per with pmask := s.drv.ie &&& ~~~srcTx }
      pri := { s.pri with req := encode (.priSetIe (s.drv.ie &&& ~~~srcTx)), rsp := 0#32 }
      tx := { s.tx with phase := .dt2 } }
  | dt2Hold (hp : s.tx.phase = .dt2) (hm : s.drv.isrState = .inTx) : TxMove s s
  | dt2 (hp : s.tx.phase = .dt2) (hm : s.drv.isrState ≠ .inTx) : TxMove s { s with tx := { s.tx with phase := .dt3 } }
  | dt3 (hp : s.tx.phase = .dt3) :
    TxMove s { s with
      regs := { s.regs with txRsp := 0#32, txN := 0#32 }, drv := { s.drv with txEnabled := false }
      tx := { s.tx with phase := .idle } }
  | w1s (hp : s.tx.phase = .w1s) :
    TxMove s { s with
      drv := { s.drv with errMask := s.drv.errMask ||| (if s.cfg.hasLineStatus then s.per.hwerr else 0#4) }
      per := { s.per with hwerr := 0#4 }
      pri := { s.pri with req := 0x20000000#32, rsp := statusRsp (peripheralStatus s.cfg s.per) }
      tx := { s.tx with phase := if s.per.txFifo.length = s.cfg.txDepth then .w3 else .w1p } }
  | w1pMore (hp : s.tx.phase = .w1p) (hroom : s.per.txFifo.length < s.cfg.txDepth)
      (hmore : s.tx.i + 1#32 ≠ payloadLen s (latchedForm s)) :
    TxMove s { s with
      per := { s.per with txFifo := s.per.txFifo ++ [payloadByte s (latchedForm s)] }
      pri := { s.pri with req := 0x10#8 ++ 0#16 ++ payloadByte s (latchedForm s), rsp := 0#32 }
      tx := { s.tx with i := s.tx.i + 1#32, phase := .w1s } }
  | w1pLast (hp : s.tx.phase = .w1p) (hroom : s.per.txFifo.length < s.cfg.txDepth)
      (hlast : s.tx.i + 1#32 = payloadLen s (latchedForm s)) :
    TxMove s { s with
      per := { s.per with txFifo := s.per.txFifo ++ [payloadByte s (latchedForm s)] }
      pri := { s.pri with req := 0x10#8 ++ 0#16 ++ payloadByte s (latchedForm s), rsp := 0#32 }
      regs := { s.regs with txRsp := 0#32, txN := payloadLen s (latchedForm s) }
      tx := { s.tx with i := s.tx.i + 1#32, phase := .idle } }
  | w3 (hp : s.tx.phase = .w3) :
    TxMove s { s with
      drv := { s.drv with
        txPending := stagedDesc s (latchedForm s), txByte := stagedByte s (latchedForm s), txCursor := 0#32 }
      tx := { s.tx with phase := .w4 } }
  | w4 (hp : s.tx.phase = .w4) (n : BitVec 8) (hn : n = txLevel s ((payloadLen s (latchedForm s)).toNat - s.tx.i.toNat)) :
    TxMove s { s with
      per := { s.per with txTrig := n }, pri := { s.pri with req := encode (.priSetTxTrig n), rsp := 0#32 }
      tx := { s.tx with phase := .w5 } }
  | w5 (hp : s.tx.phase = .w5) :
    TxMove s { s with drv := { s.drv with txDone := false }, tx := { s.tx with phase := .w6 } }
  | w6 (hp : s.tx.phase = .w6) :
    TxMove s { s with
      drv := { s.drv with ie := s.drv.ie ||| srcTx }, per := { s.per with pmask := s.drv.ie ||| srcTx }
      pri := { s.pri with req := encode (.priSetIe (s.drv.ie ||| srcTx)), rsp := 0#32 }, tx := { s.tx with phase := .w7 } }
  | w7 (hp : s.tx.phase = .w7) :
    TxMove s { s with tx := { s.tx with timer := s.tx.timer.arm s.drv.writeTimeout, phase := .w7l } }
  | w7lWoken (hp : s.tx.phase = .w7l) (hd : s.drv.txDone = true) :
    TxMove s { s with tx := { s.tx with waitOk := true, timer := s.tx.timer.disarm, phase := .w9 } }
  | w7lExpired (hp : s.tx.phase = .w7l) (hd : s.drv.txDone = false) (ht : s.tx.timer.expired = true) :
    TxMove s { s with tx := { s.tx with waitOk := false, timer := s.tx.timer.disarm, phase := .w8 } }
  | w7lHold (hp : s.tx.phase = .w7l) (hd : s.drv.txDone = false) (ht : s.tx.timer.expired = false) : TxMove s s
  | w8 (hp : s.tx.phase = .w8) :
    TxMove s { s with
      drv := { s.drv with ie := s.drv.ie &&& ~~~srcTx }, per := { s.per with pmask := s.drv.ie &&& ~~~srcTx }
      pri := { s.pri with req := encode (.priSetIe (s.drv.ie &&& ~~~srcTx)), rsp := 0#32 }
      tx := { s.tx with phase := .w9 } }
  | w9Hold (hp : s.tx.phase = .w9) (hm : s.drv.isrState = .inTx) : TxMove s s
  | w9 (hp : s.tx.phase = .w9) (hm : s.drv.isrState ≠ .inTx) : TxMove s { s with tx := { s.tx with phase := .w10 } }
  | w10 (hp : s.tx.phase = .w10) :
    TxMove s { s with
      drv := { s.drv with txPending := TxDesc.empty, txCursor := 0#32 }
      regs := { s.regs with txRsp := if s.tx.waitOk then 0#32 else 1#32, txN := s.tx.i + s.drv.txCursor }
      tx := { s.tx with phase := .idle } }
  | fl1 (hp : s.tx.phase = .fl1) :
    TxMove s { s with tx := { s.tx with timer := s.tx.timer.arm s.drv.writeTimeout, phase := .fl2 } }
  | fl2Hold (hp : s.tx.phase = .fl2) (hfifo : s.per.txFifo ≠ []) (ht : s.tx.timer.expired = false) : TxMove s s
  | fl2 (hp : s.tx.phase = .fl2) (h : s.per.txFifo = [] ∨ s.tx.timer.expired = true) :
    TxMove s { s with
      drv := { s.drv with errMask := s.drv.errMask ||| (if s.cfg.hasLineStatus then s.per.hwerr else 0#4) }
      per := { s.per with hwerr := 0#4 }
      pri := { s.pri with req := 0x20000000#32, rsp := statusRsp (peripheralStatus s.cfg s.per) }
      regs := { s.regs with txRsp := if s.per.txFifo = [] then 0#32 else 1#32, txN := 0#32 }
      tx := { s.tx with timer := s.tx.timer.disarm, phase := .idle } }

/-! ### ISRSEQ -/

/-- The steps of ISRSEQ, each under the label it leaves. -/
inductive IsrMove (s : State) : State → Prop
  | s0 (hp : s.isr.phase = .s0) :
    IsrMove s { s with
      pri := { s.pri with req := 0x40000000#32, rsp := 0#29 ++ pendingCause s }
      drv := { s.drv with isrState := if hasRx (pendingCause s) then .inRx else s.drv.isrState }
      isr := { s.isr with cause := pendingCause s, phase := if hasRx (pendingCause s) then .i1 else .s1 } }
  | i1 (hp : s.isr.phase = .i1) (b : Byte) (rest : List Byte) (hf : s.per.rxFifo = b :: rest) :
    IsrMove s { s with
      per := { s.per with rxFifo := rest, rxStale := if rest = [] then false else s.per.rxStale }
      pri := { s.pri with req := 0#32, rsp := 0#23 ++ BitVec.ofBool (decide (rest ≠ [])) ++ b }
      isr := { s.isr with byte := b, more := decide (rest ≠ []), phase := .i2 } }
  | i2Full (hp : s.isr.phase = .i2) (hfull : idxNext s.drv.cap s.drv.nextWrite = s.drv.nextRead) :
    IsrMove s { s with isr := { s.isr with nw1 := s.drv.nextRead, stored := false, phase := .i3f } }
  | i2Room (hp : s.isr.phase = .i2) (hroom : idxNext s.drv.cap s.drv.nextWrite ≠ s.drv.nextRead) :
    IsrMove s { s with isr := { s.isr with nw1 := idxNext s.drv.cap s.drv.nextWrite, stored := true, phase := .i3 } }
  | i3 (hp : s.isr.phase = .i3) (hcap : s.drv.nextWrite.toNat < s.cfg.capMax) :
    IsrMove s { s with
      buf := Memory.put s.buf s.drv.nextWrite.toNat s.isr.byte, isr := { s.isr with phase := .i4 } }
  | i3f (hp : s.isr.phase = .i3f) :
    IsrMove s { s with drv := { s.drv with overflow := true }, isr := { s.isr with phase := .i7 } }
  | i4 (hp : s.isr.phase = .i4) :
    IsrMove s { s with drv := { s.drv with nextWrite := s.isr.nw1 }, isr := { s.isr with phase := .i5 } }
  | i5 (hp : s.isr.phase = .i5) :
    IsrMove s { s with
      drv := { s.drv with rxWakeRequested := false }
      isr := { s.isr with phase := if s.drv.rxWakeRequested then .i6 else .i7 } }
  | i6 (hp : s.isr.phase = .i6) :
    IsrMove s { s with drv := { s.drv with rxWake := true }, isr := { s.isr with phase := .i7 } }
  | i7More (hp : s.isr.phase = .i7) (hm : s.isr.more = true) : IsrMove s { s with isr := { s.isr with phase := .i1 } }
  | i7Last (hp : s.isr.phase = .i7) (hm : s.isr.more = false) :
    IsrMove s { s with drv := { s.drv with isrState := .idle }, isr := { s.isr with phase := .s1 } }
  | s1 (hp : s.isr.phase = .s1) :
    IsrMove s { s with
      pri := { s.pri with req := 0x40000000#32, rsp := 0#29 ++ pendingCause s }
      drv := { s.drv with isrState := if hasTx (pendingCause s) then .inTx else s.drv.isrState }
      isr := { s.isr with cause := pendingCause s, phase := if hasTx (pendingCause s) then .t1 else .s2 } }
  | t1Done (hp : s.isr.phase = .t1) (hc : s.drv.txPending.len.toNat ≤ s.drv.txCursor.toNat) :
    IsrMove s { s with isr := { s.isr with phase := .t1a } }
  | t1More (hp : s.isr.phase = .t1) (hc : s.drv.txCursor.toNat < s.drv.txPending.len.toNat) :
    IsrMove s { s with isr := { s.isr with phase := .t2s } }
  | t1a (hp : s.isr.phase = .t1a) :
    IsrMove s { s with
      drv := { s.drv with ie := s.drv.ie &&& ~~~srcTx }, per := { s.per with pmask := s.drv.ie &&& ~~~srcTx }
      pri := { s.pri with req := encode (.priSetIe (s.drv.ie &&& ~~~srcTx)), rsp := 0#32 }
      isr := { s.isr with phase := .t1w } }
  | t1w (hp : s.isr.phase = .t1w) :
    IsrMove s { s with drv := { s.drv with txDone := true }, isr := { s.isr with phase := .t5 } }
  | t2s (hp : s.isr.phase = .t2s) :
    IsrMove s { s with
      drv := { s.drv with errMask := s.drv.errMask ||| (if s.cfg.hasLineStatus then s.per.hwerr else 0#4) }
      per := { s.per with hwerr := 0#4 }
      pri := { s.pri with req := 0x20000000#32, rsp := statusRsp (peripheralStatus s.cfg s.per) }
      isr := { s.isr with
        full := decide (s.per.txFifo.length = s.cfg.txDepth)
        phase := if s.per.txFifo.length = s.cfg.txDepth then .t4 else .t3 } }
  | t3 (hp : s.isr.phase = .t3) (hroom : s.per.txFifo.length < s.cfg.txDepth) :
    IsrMove s { s with
      per := { s.per with txFifo := s.per.txFifo ++ [payload s s.drv.txCursor] }
      pri := { s.pri with req := 0x10#8 ++ 0#16 ++ payload s s.drv.txCursor, rsp := 0#32 }
      drv := { s.drv with txCursor := s.drv.txCursor + 1#32 }
      isr := { s.isr with phase := if s.drv.txCursor + 1#32 = s.drv.txPending.len then .t4 else .t2s } }
  | t4 (hp : s.isr.phase = .t4) (n : BitVec 8) (hn : n = txLevel s (remaining s)) :
    IsrMove s { s with
      per := { s.per with txTrig := n }, pri := { s.pri with req := encode (.priSetTxTrig n), rsp := 0#32 }
      isr := { s.isr with phase := .t5 } }
  | t5 (hp : s.isr.phase = .t5) :
    IsrMove s { s with drv := { s.drv with isrState := .idle }, isr := { s.isr with phase := .s2 } }
  | s2Status (hp : s.isr.phase = .s2) (hst : hasSt (pendingCause s) = true) :
    IsrMove s { s with
      pri := { s.pri with req := 0x40000000#32, rsp := 0#29 ++ pendingCause s }
      isr := { s.isr with cause := pendingCause s, phase := .st1 } }
  | s2Return (hp : s.isr.phase = .s2) (hst : hasSt (pendingCause s) = false) :
    IsrMove s { s with
      pri := { s.pri with req := 0x40000000#32, rsp := 0#29 ++ pendingCause s }
      regs := { s.regs with svRsp := s.regs.svRsp &&& 0xFFFEFFFF#32 }
      isr := { s.isr with cause := pendingCause s, phase := .idle } }
  | st1 (hp : s.isr.phase = .st1) :
    IsrMove s { s with
      drv := { s.drv with errMask := s.drv.errMask ||| (if s.cfg.hasLineStatus then s.per.hwerr else 0#4) }
      per := { s.per with hwerr := 0#4 }
      pri := { s.pri with req := 0x20000000#32, rsp := statusRsp (peripheralStatus s.cfg s.per) }
      regs := { s.regs with svRsp := s.regs.svRsp &&& 0xFFFEFFFF#32 }
      isr := { s.isr with phase := .idle } }

/-! ### Every rule is a step -/

section
variable {s t : State}

theorem IsrMove.exec_eq (h : IsrMove s t) (hok : s.cfg.ok = true) (hf : s.drv.fatal = false) :
    exec .serviceInterrupt s = .next t := by
  cases h with
  | s0 hp => exact (exec_service_s0 hf hp).trans (congrArg _ (isrDispatch_eq s hasRx .inRx .i1 .s1))
  | i1 hp b rest hfifo => exact (exec_service_eq_serviceStep hf hp).trans (isrI1_cons hfifo)
  | i2Full hp hfull => exact exec_service_i2_full hf hp hfull
  | i2Room hp hroom => exact exec_service_i2_room hf hp hroom
  | i3 hp hcap => exact exec_service_i3 hf hp hcap
  | i3f hp => exact exec_service_i3f hf hp
  | i4 hp => exact exec_service_i4 hf hp
  | i5 hp => exact exec_service_eq_serviceStep hf hp
  | i6 hp => exact exec_service_eq_serviceStep hf hp
  | i7More hp hm => exact (exec_service_eq_serviceStep hf hp).trans (isrI7_more hm)
  | i7Last hp hm => exact (exec_service_eq_serviceStep hf hp).trans (isrI7_last hm)
  | s1 hp => exact (exec_service_s1 hf hp).trans (congrArg _ (isrDispatch_eq s hasTx .inTx .t1 .s2))
  | t1Done hp hc => exact (exec_service_eq_serviceStep hf hp).trans (isrT1_finished hc)
  | t1More hp hc => exact (exec_service_eq_serviceStep hf hp).trans (isrT1_unfinished hc)
  | t1a hp => exact exec_service_eq_serviceStep hf hp
  | t1w hp => exact exec_service_eq_serviceStep hf hp
  | t2s hp => exact (exec_service_eq_serviceStep hf hp).trans (isrT2S_eq s)
  | t3 hp hroom => exact (exec_service_eq_serviceStep hf hp).trans (isrT3_room hroom)
  | t4 hp n hn =>
    rw [exec_service_eq_serviceStep hf hp, serviceStep, isrT4, priSetTxTrig, if_pos (txLevel_legal _ hok), hn]
    rfl
  | t5 hp => exact exec_service_eq_serviceStep hf hp
  | s2Status hp hst => exact (exec_service_s2 hf hp).trans (isrS2_hit hst)
  | s2Return hp hst => exact (exec_service_s2 hf hp).trans (isrS2_skip hst)
  | st1 hp => exact (exec_service_eq_serviceStep hf hp).trans (isrST1_eq s)

/-- The command that goes through a label of RXSEQ is the one latched there. -/
theorem latchedRx_of_label {p : RxPhase} {i : Instr} (hl : rxRuns s.rx.phase (latchedRx s) = true) (hp : s.rx.phase = p)
    (hruns : rxRuns p = fun j => decide (j = some i)) : latchedRx s = some i := by
  rw [hp, hruns] at hl
  exact of_decide_eq_true hl

theorem latchedTx_of_label {p : TxPhase} {i : Instr} (hl : txRuns s.tx.phase (latchedTx s) = true) (hp : s.tx.phase = p)
    (hruns : txRuns p = fun j => decide (j = some i)) : latchedTx s = some i := by
  rw [hp, hruns] at hl
  exact of_decide_eq_true hl

theorem rxRuns_reading {p : RxPhase} (h : rxReading p = true) (i : Option Instr) :
    rxRuns p i = decide (i = some .read ∨ i = some .readByte) := by
  cases p <;> first | rfl | cases h

/-- At a label of the reads one of the two reads is latched. -/
theorem latchedRx_reading (hl : rxRuns s.rx.phase (latchedRx s) = true) (hp : rxReading s.rx.phase = true) :
    ∃ i, latchedRx s = some i ∧ (i = .read ∨ i = .readByte) := by
  rw [rxRuns_reading hp] at hl
  rcases of_decide_eq_true hl with h | h
  · exact ⟨_, h, .inl rfl⟩
  · exact ⟨_, h, .inr rfl⟩

theorem rxReading_busy {p : RxPhase} (h : rxReading p = true) : p ≠ .idle := by
  rintro rfl
  cases h

theorem txWriting_busy {p : TxPhase} (h : txWriting p = true) : p ≠ .idle := by
  rintro rfl
  cases h

/-- RXSEQ's turn at a label whose step the two reads share. -/
theorem rxTurn_shared {p : RxPhase} {r : Result} (hl : rxRuns s.rx.phase (latchedRx s) = true) (ha : s.appReady = true)
    (hp : s.rx.phase = p) (hread : rxReading p = true) (hcopy : p ≠ .copy) (hr : ∀ b, rxShared b s = r) : rxTurn s = r := by
  have hbusy := rxReading_busy hread
  obtain ⟨i, hi, hkind⟩ := latchedRx_reading hl (hp ▸ hread)
  rw [rxTurn_latched (hp ▸ hbusy) hi]
  exact exec_of_rxShared hkind ha hp ⟨hbusy, hcopy⟩ hr

/-- TXSEQ's turn at a label of the write commands. -/
theorem txTurn_write {p : TxPhase} (hl : txRuns s.tx.phase (latchedTx s) = true) (ha : s.appReady = true)
    (hp : s.tx.phase = p) (hwrite : txWriting p = true) : txTurn s = txWriteStep (latchedForm s) s := by
  have hbusy := txWriting_busy hwrite
  rw [hp, txRuns_writing hwrite] at hl
  cases hi : latchedTx s with
  | none =>
    rw [hi] at hl
    cases hl
  | some i =>
    rw [hi] at hl
    rw [txTurn_latched (hp ▸ hbusy) hi, exec_write_busy hl ha hp hbusy, latchedForm, hi]

theorem RxMove.turn_eq (h : RxMove s t) (hok : s.cfg.ok = true) (hl : rxRuns s.rx.phase (latchedRx s) = true)
    (ha : s.appReady = true) : rxTurn s = .next t := by
  have at_label {p : RxPhase} {i : Instr} (hp : s.rx.phase = p) (hbusy : p ≠ .idle)
      (hruns : rxRuns p = fun j => decide (j = some i)) : rxTurn s = exec i s :=
    rxTurn_latched (hp ▸ hbusy) (latchedRx_of_label hl hp hruns)
  have shared {p : RxPhase} {r : Result} (hp : s.rx.phase = p) (hread : rxReading p = true) (hcopy : p ≠ .copy)
      (hr : ∀ b, rxShared b s = r) : rxTurn s = r := rxTurn_shared hl ha hp hread hcopy hr
  cases h with
  | en1Enabled hp hon => exact (at_label hp nofun rfl).trans ((exec_enableRx_en1 ha hp).trans (rxEN1_enabled hon))
  | en1Small hp hoff hlow =>
    exact (at_label hp nofun rfl).trans ((exec_enableRx_en1 ha hp).trans (rxEN1_tooSmall hoff hlow))
  | en1Large hp hoff hlow hhigh =>
    exact (at_label hp nofun rfl).trans ((exec_enableRx_en1 ha hp).trans (rxEN1_tooLarge hoff hlow hhigh))
  | en1 hp hoff hlow hhigh =>
    exact (at_label hp nofun rfl).trans ((exec_enableRx_en1 ha hp).trans (rxEN1_accepted hok hoff hlow hhigh))
  | en2 hp => exact (at_label hp nofun rfl).trans (exec_enableRx_en2 ha hp)
  | dr1Off hp hoff => exact (at_label hp nofun rfl).trans ((exec_disableRx_dr1 ha hp).trans (rxDR1_disabled hoff))
  | dr1 hp hon => exact (at_label hp nofun rfl).trans ((exec_disableRx_dr1 ha hp).trans (rxDR1_enabled hon))
  | dr2Hold hp hm => exact (at_label hp nofun rfl).trans ((exec_disableRx_dr2 ha hp).trans (rxDR2_hold hm))
  | dr2 hp hm => exact (at_label hp nofun rfl).trans ((exec_disableRx_dr2 ha hp).trans (rxDR2_leave hm))
  | dr3 hp => exact (at_label hp nofun rfl).trans (exec_disableRx_dr3 ha hp)
  | p1Data hp hd => exact (shared hp rfl nofun (rxShared_p1 hp)).trans (rxP1_data hd)
  | p1Empty hp he => exact (shared hp rfl nofun (rxShared_p1 hp)).trans (rxP1_empty he)
  | p2a hp => exact shared hp rfl nofun (rxShared_p2a hp)
  | p2b hp => exact shared hp rfl nofun (rxShared_p2b hp)
  | p3Data hp hd => exact (shared hp rfl nofun (rxShared_p3 hp)).trans (rxP3_data hd)
  | p3Empty hp he => exact (shared hp rfl nofun (rxShared_p3 hp)).trans (rxP3_empty he)
  | p3c hp => exact shared hp rfl nofun (rxShared_p3c hp)
  | p4 hp => exact shared hp rfl nofun (rxShared_p4 hp)
  | p4lWoken hp hw => exact (shared hp rfl nofun (rxShared_p4l hp)).trans (rxP4L_woken hw)
  | p4lExpired hp hw ht => exact (shared hp rfl nofun (rxShared_p4l hp)).trans (rxP4L_expired hw ht)
  | p4lHold hp hw ht => exact (shared hp rfl nofun (rxShared_p4l hp)).trans (rxP4L_hold hw ht)
  | p5Timeout hp hr => exact (shared hp rfl nofun (rxShared_p5 hp)).trans (rxP5_timeout hr)
  | p5Late hp hr => exact (shared hp rfl nofun (rxShared_p5 hp)).trans (rxP5_late hr)
  | p5s hp => exact shared hp rfl nofun (rxShared_p5s hp)
  | p5lWoken hp hw => exact (shared hp rfl nofun (rxShared_p5l hp)).trans (rxP5L_woken hw)
  | p5lHold hp hw => exact (shared hp rfl nofun (rxShared_p5l hp)).trans (rxP5L_hold hw)
  | p6Empty hp he => exact (shared hp rfl nofun (rxShared_p6 hp)).trans (rxP6_empty he)
  | p6Data hp hd => exact (shared hp rfl nofun (rxShared_p6 hp)).trans (rxP6_data hd)
  | copy hp hi m hm =>
    rw [rxTurn_latched (by rw [hp]; nofun) hi, exec_read_copy ha hp, rxCopy, hm]
    rfl
  | copyByte hp hi hr =>
    exact (rxTurn_latched (by rw [hp]; nofun) hi).trans ((exec_readByte_copy ha hp).trans (rxCopyByte_eq hr))
  | adv hp => exact shared hp rfl nofun (rxShared_adv hp)
  | fin1 hp => exact shared hp rfl nofun (rxShared_fin1 hp)
  | fin2 hp b hb =>
    obtain ⟨i, hi, hb⟩ := hb
    exact (rxTurn_latched (by rw [hp]; nofun) hi).trans
      ((exec_eq_rxShared hb ha hp (by decide)).trans ((rxShared_fin2 hp b).trans (rxFIN2_eq b s)))

theorem TxMove.turn_eq (h : TxMove s t) (hok : s.cfg.ok = true) (hl : txRuns s.tx.phase (latchedTx s) = true)
    (ha : s.appReady = true) : txTurn s = .next t := by
  have at_label {p : TxPhase} {i : Instr} (hp : s.tx.phase = p) (hbusy : p ≠ .idle)
      (hruns : txRuns p = fun j => decide (j = some i)) : txTurn s = exec i s :=
    txTurn_latched (hp ▸ hbusy) (latchedTx_of_label hl hp hruns)
  have write {p : TxPhase} (hp : s.tx.phase = p) (hwrite : txWriting p = true) : txTurn s = txWriteStep (latchedForm s) s :=
    txTurn_write hl ha hp hwrite
  cases h with
  | te1 hp => exact (at_label hp nofun rfl).trans (exec_enableTx_te1 ha hp)
  | dt1Off hp hoff => exact (at_label hp nofun rfl).trans ((exec_disableTx_dt1 ha hp).trans (txDT1_disabled hoff))
  | dt1 hp hon => exact (at_label hp nofun rfl).trans ((exec_disableTx_dt1 ha hp).trans (txDT1_enabled hon))
  | dt2Hold hp hm => exact (at_label hp nofun rfl).trans ((exec_disableTx_dt2 ha hp).trans (txDT2_hold hm))
  | dt2 hp hm => exact (at_label hp nofun rfl).trans ((exec_disableTx_dt2 ha hp).trans (txDT2_leave hm))
  | dt3 hp => exact (at_label hp nofun rfl).trans (exec_disableTx_dt3 ha hp)
  | w1s hp => exact (write hp rfl).trans ((txWriteStep_w1s _ hp).trans (txW1S_eq s))
  | w1pMore hp hroom hmore => exact (write hp rfl).trans ((txWriteStep_w1p _ hp).trans (txW1P_more _ hroom hmore))
  | w1pLast hp hroom hlast => exact (write hp rfl).trans ((txWriteStep_w1p _ hp).trans (txW1P_last _ hroom hlast))
  | w3 hp => exact (write hp rfl).trans (txWriteStep_w3 _ hp)
  | w4 hp n hn =>
    rw [write hp rfl, txWriteStep_w4 _ hp, txW4_eq _ hok, hn]
    rfl
  | w5 hp => exact (write hp rfl).trans (txWriteStep_w5 _ hp)
  | w6 hp => exact (write hp rfl).trans (txWriteStep_w6 _ hp)
  | w7 hp => exact (write hp rfl).trans (txWriteStep_w7 _ hp)
  | w7lWoken hp hd => exact (write hp rfl).trans ((txWriteStep_w7l _ hp).trans (txW7L_woken hd))
  | w7lExpired hp hd ht => exact (write hp rfl).trans ((txWriteStep_w7l _ hp).trans (txW7L_expired hd ht))
  | w7lHold hp hd ht => exact (write hp rfl).trans ((txWriteStep_w7l _ hp).trans (txW7L_hold hd ht))
  | w8 hp => exact (write hp rfl).trans (txWriteStep_w8 _ hp)
  | w9Hold hp hm => exact (write hp rfl).trans ((txWriteStep_w9 _ hp).trans (txW9_hold hm))
  | w9 hp hm => exact (write hp rfl).trans ((txWriteStep_w9 _ hp).trans (txW9_leave hm))
  | w10 hp => exact (write hp rfl).trans ((txWriteStep_w10 _ hp).trans (txW10_eq s))
  | fl1 hp => exact (at_label hp nofun rfl).trans (exec_flush_fl1 ha hp)
  | fl2Hold hp hfifo ht => exact (at_label hp nofun rfl).trans ((exec_flush_fl2 ha hp).trans (txFL2_hold hfifo ht))
  | fl2 hp h => exact (at_label hp nofun rfl).trans ((exec_flush_fl2 ha hp).trans (txFL2_leave h))

/-! ### In a good state some rule applies -/

/-- A ring that holds bytes, or is read from, has its indices inside the RAM. -/
theorem RingGood.inside (hr : RingGood s) (hp : rxNeedsRing s.rx.phase = true) :
    2 ≤ s.drv.cap.toNat ∧ s.drv.cap.toNat ≤ s.cfg.capMax ∧ s.drv.nextRead.toNat < s.drv.cap.toNat ∧
      s.drv.nextWrite.toNat < s.drv.cap.toNat := hr.on (hr.phaseOn hp)

theorem rxMove_exists (hg : s.Good) (hbusy : s.rx.phase ≠ .idle) : ∃ t, RxMove s t := by
  have hl := hg.ports.rxLatch
  cases hp : s.rx.phase with
  | idle => exact absurd hp hbusy
  | en1 =>
    cases hon : s.drv.rxEnabled with
    | true => exact ⟨_, .en1Enabled hp hon⟩
    | false =>
      rcases Nat.lt_or_ge s.rx.a0.toNat 2 with hlow | hlow
      · exact ⟨_, .en1Small hp hon hlow⟩
      · rcases Nat.lt_or_ge s.cfg.capMax s.rx.a0.toNat with hhigh | hhigh
        · exact ⟨_, .en1Large hp hon hlow hhigh⟩
        · exact ⟨_, .en1 hp hon hlow hhigh⟩
  | en2 => exact ⟨_, .en2 hp⟩
  | dr1 =>
    cases hon : s.drv.rxEnabled with
    | true => exact ⟨_, .dr1 hp hon⟩
    | false => exact ⟨_, .dr1Off hp hon⟩
  | dr2 =>
    by_cases hm : s.drv.isrState = .inRx
    · exact ⟨_, .dr2Hold hp hm⟩
    · exact ⟨_, .dr2 hp hm⟩
  | dr3 => exact ⟨_, .dr3 hp⟩
  | p1 =>
    by_cases he : s.drv.nextWrite = s.drv.nextRead
    · exact ⟨_, .p1Empty hp he⟩
    · exact ⟨_, .p1Data hp he⟩
  | p2a => exact ⟨_, .p2a hp⟩
  | p2b => exact ⟨_, .p2b hp⟩
  | p3 =>
    by_cases he : s.drv.nextWrite = s.drv.nextRead
    · exact ⟨_, .p3Empty hp he⟩
    · exact ⟨_, .p3Data hp he⟩
  | p3c => exact ⟨_, .p3c hp⟩
  | p4 => exact ⟨_, .p4 hp⟩
  | p4l =>
    cases hw : s.drv.rxWake with
    | true => exact ⟨_, .p4lWoken hp hw⟩
    | false =>
      cases ht : s.rx.timer.expired with
      | true => exact ⟨_, .p4lExpired hp hw ht⟩
      | false => exact ⟨_, .p4lHold hp hw ht⟩
  | p5 =>
    cases hr : s.drv.rxWakeRequested with
    | true => exact ⟨_, .p5Timeout hp hr⟩
    | false => exact ⟨_, .p5Late hp hr⟩
  | p5s => exact ⟨_, .p5s hp⟩
  | p5l =>
    cases hw : s.drv.rxWake with
    | true => exact ⟨_, .p5lWoken hp hw⟩
    | false => exact ⟨_, .p5lHold hp hw⟩
  | p6 =>
    by_cases he : s.drv.nextWrite = s.drv.nextRead
    · exact ⟨_, .p6Empty hp he⟩
    · exact ⟨_, .p6Data hp he⟩
  | copy =>
    obtain ⟨h2, hcap, hr, -⟩ := hg.ring.inside (by rw [hp]; rfl)
    obtain ⟨i, hi, rfl | rfl⟩ := latchedRx_reading hl (by rw [hp]; rfl)
    · obtain ⟨m, hm, -⟩ := rxCopy_eq h2 hcap
      exact ⟨_, .copy hp hi m hm⟩
    · exact ⟨_, .copyByte hp hi (hr.trans_le hcap)⟩
  | adv => exact ⟨_, .adv hp⟩
  | fin1 => exact ⟨_, .fin1 hp⟩
  | fin2 =>
    obtain ⟨i, hi, hkind⟩ := latchedRx_reading hl (by rw [hp]; rfl)
    obtain ⟨b, hb⟩ := exists_respondsWith s hkind
    exact ⟨_, .fin2 hp b ⟨i, hi, hb⟩⟩

theorem txMove_exists (hg : s.Good) (hbusy : s.tx.phase ≠ .idle) : ∃ t, TxMove s t := by
  cases hp : s.tx.phase with
  | idle => exact absurd hp hbusy
  | te1 => exact ⟨_, .te1 hp⟩
  | dt1 =>
    cases hon : s.drv.txEnabled with
    | true => exact ⟨_, .dt1 hp hon⟩
    | false => exact ⟨_, .dt1Off hp hon⟩
  | dt2 =>
    by_cases hm : s.drv.isrState = .inTx
    · exact ⟨_, .dt2Hold hp hm⟩
    · exact ⟨_, .dt2 hp hm⟩
  | dt3 => exact ⟨_, .dt3 hp⟩
  | w1s => exact ⟨_, .w1s hp⟩
  | w1p =>
    have hroom := hg.transmit.roomFast hp
    by_cases hlast : s.tx.i + 1#32 = payloadLen s (latchedForm s)
    · exact ⟨_, .w1pLast hp hroom hlast⟩
    · exact ⟨_, .w1pMore hp hroom hlast⟩
  | w3 => exact ⟨_, .w3 hp⟩
  | w4 => exact ⟨_, .w4 hp _ rfl⟩
  | w5 => exact ⟨_, .w5 hp⟩
  | w6 => exact ⟨_, .w6 hp⟩
  | w7 => exact ⟨_, .w7 hp⟩
  | w7l =>
    cases hd : s.drv.txDone with
    | true => exact ⟨_, .w7lWoken hp hd⟩
    | false =>
      cases ht : s.tx.timer.expired with
      | true => exact ⟨_, .w7lExpired hp hd ht⟩
      | false => exact ⟨_, .w7lHold hp hd ht⟩
  | w8 => exact ⟨_, .w8 hp⟩
  | w9 =>
    by_cases hm : s.drv.isrState = .inTx
    · exact ⟨_, .w9Hold hp hm⟩
    · exact ⟨_, .w9 hp hm⟩
  | w10 => exact ⟨_, .w10 hp⟩
  | fl1 => exact ⟨_, .fl1 hp⟩
  | fl2 =>
    by_cases h : s.per.txFifo = [] ∨ s.tx.timer.expired = true
    · exact ⟨_, .fl2 hp h⟩
    · rw [not_or, Bool.not_eq_true] at h
      exact ⟨_, .fl2Hold hp h.1 h.2⟩

theorem isrMove_exists (hg : s.Good) (hbusy : s.isr.phase ≠ .idle) : ∃ t, IsrMove s t := by
  cases hp : s.isr.phase with
  | idle => exact absurd hp hbusy
  | s0 => exact ⟨_, .s0 hp⟩
  | i1 =>
    cases hf : s.per.rxFifo with
    | nil => exact absurd hf (hg.engine.loadable hp)
    | cons b rest => exact ⟨_, .i1 hp b rest hf⟩
  | i2 =>
    by_cases hfull : idxNext s.drv.cap s.drv.nextWrite = s.drv.nextRead
    · exact ⟨_, .i2Full hp hfull⟩
    · exact ⟨_, .i2Room hp hfull⟩
  | i3 =>
    have hmark := hg.engine.mark
    rw [hp] at hmark
    obtain ⟨-, hcap, -, hw⟩ := hg.ring.on (hg.ring.sectionOn hmark)
    exact ⟨_, .i3 hp (hw.trans_le hcap)⟩
  | i3f => exact ⟨_, .i3f hp⟩
  | i4 => exact ⟨_, .i4 hp⟩
  | i5 => exact ⟨_, .i5 hp⟩
  | i6 => exact ⟨_, .i6 hp⟩
  | i7 =>
    cases hm : s.isr.more with
    | true => exact ⟨_, .i7More hp hm⟩
    | false => exact ⟨_, .i7Last hp hm⟩
  | s1 => exact ⟨_, .s1 hp⟩
  | t1 =>
    rcases Nat.lt_or_ge s.drv.txCursor.toNat s.drv.txPending.len.toNat with hc | hc
    · exact ⟨_, .t1More hp hc⟩
    · exact ⟨_, .t1Done hp hc⟩
  | t1a => exact ⟨_, .t1a hp⟩
  | t1w => exact ⟨_, .t1w hp⟩
  | t2s => exact ⟨_, .t2s hp⟩
  | t3 => exact ⟨_, .t3 hp (hg.transmit.roomIsr hp)⟩
  | t4 => exact ⟨_, .t4 hp _ rfl⟩
  | t5 => exact ⟨_, .t5 hp⟩
  | s2 =>
    cases hst : hasSt (pendingCause s) with
    | true => exact ⟨_, .s2Status hp hst⟩
    | false => exact ⟨_, .s2Return hp hst⟩
  | st1 => exact ⟨_, .st1 hp⟩

end

end Sys2Proof.Machine
end

