-- ==== Sys2Proof/Proofs/Events.lean ====
section
/-!
PROOF. What one scheduled event can do in a good state, said once: the effects of a host write (R113, R114), and with the rules of
the three sequencers one relation over all events; the refusals that are left are the host's breaches of contract.
-/

namespace Sys2Proof.Machine

/-! ### The host's writes -/

/-- The RX commands that go to a first label at issue, and that label (R170, R171, R180, R181). -/
inductive RxIssue (s : State) : Instr → RxPhase → Prop
  | enable : RxIssue s .enableRx .en1
  | disable : RxIssue s .disableRx .dr1
  | read (hon : s.drv.rxEnabled = true) (hlen : s.regs.rxA1 ≠ 0#32) : RxIssue s .read .p1
  | readByte (hon : s.drv.rxEnabled = true) : RxIssue s .readByte .p1

/-- The TX commands but for the writes, with their first label (R210, R211, R224). -/
inductive TxIssue : Instr → TxPhase → Prop
  | enable : TxIssue .enableTx .te1
  | disable : TxIssue .disableTx .dt1
  | flush : TxIssue .flush .fl1

/-- What a host write to the register window can do, where it has a result. -/
inductive HostMove (s : State) : State → Prop
  | ignored : HostMove s s
  | operand (k : Nat) (v : Word) : HostMove s (writeOperand s k v)
  | waits (e : Event) : HostMove s (putOff s e)
  | illegalCfg : HostMove s { s with regs := { s.regs with cfRsp := 15#32, cfN := 0#32 } }
  | illegalRx (hp : s.rx.phase = .idle) : HostMove s { s with regs := { s.regs with rxRsp := 15#32, rxN := 0#32 } }
  | illegalTx (hp : s.tx.phase = .idle) : HostMove s { s with regs := { s.regs with txRsp := 15#32, txN := 0#32 } }
  | illegalIsr (hp : s.isr.phase = .idle) : HostMove s { s with regs := { s.regs with svRsp := 15#32 } }
  | configure (f : BitVec 5) :
    HostMove s { s with
      regs := { s.regs with cfRsp := 0#32, cfN := 0#32 }
      per := { s.per with lcr := f, div := Config.baudDiv s.regs.cfA0 }
      pri := { s.pri with req := 0x7#4 ++ Config.baudDiv s.regs.cfA0, rsp := 0#32 } }
  | readTimeout : HostMove s { s with
      regs := { s.regs with cfRsp := 0#32, cfN := 0#32 }, drv := { s.drv with readTimeout := s.regs.cfA0 } }
  | writeTimeout : HostMove s { s with
      regs := { s.regs with cfRsp := 0#32, cfN := 0#32 }, drv := { s.drv with writeTimeout := s.regs.cfA0 } }
  | status : HostMove s { s with
      regs := { s.regs with cfRsp := rspWord 0#4 s.drv.errMask 0#8, cfN := s.drv.errMask.setWidth 32 }
      drv := { s.drv with errMask := 0#4 } }
  | len (n : Word) : HostMove s { s with regs := { s.regs with cfRsp := 0#32, cfN := n } }
  | issueRx (hp : s.rx.phase = .idle) (i : Instr) (first : RxPhase) (hi : RxIssue s i first) :
    HostMove s { s with
      regs := { s.regs with rxRsp := busyWord, rxN := 0#32 }
      rx := { s.rx with op := opcField (encode i), a0 := s.regs.rxA0, a1 := s.regs.rxA1, phase := first } }
  | readNothing (hp : s.rx.phase = .idle) :
    HostMove s { s with
      regs := { s.regs with rxRsp := 0#32, rxN := 0#32 }
      rx := { s.rx with op := opcField (encode .read), a0 := s.regs.rxA0, a1 := s.regs.rxA1, phase := .idle } }
  | issueTx (hp : s.tx.phase = .idle) (i : Instr) (first : TxPhase) (hi : TxIssue i first) :
    HostMove s { s with
      regs := { s.regs with txRsp := busyWord, txN := 0#32 }
      tx := { s.tx with
        op := opcField (encode i), imm := immField (encode i), a0 := s.regs.txA0, a1 := s.regs.txA1, phase := first } }
  | write (hp : s.tx.phase = .idle) (i : Instr) (len : Word) (hi : IssuesWrite i len s) (hlen : len ≠ 0#32) :
    HostMove s { s with
      regs := { s.regs with txRsp := busyWord, txN := 0#32 }
      tx := { s.tx with
        op := opcField (encode i), imm := immField (encode i), a0 := s.regs.txA0, a1 := s.regs.txA1, i := 0#32
        phase := .w1s } }
  | writeNothing (hp : s.tx.phase = .idle) (i : Instr) :
    HostMove s { s with
      regs := { s.regs with txRsp := 0#32, txN := 0#32 }
      tx := { s.tx with
        op := opcField (encode i), imm := immField (encode i), a0 := s.regs.txA0, a1 := s.regs.txA1, i := 0#32
        phase := .idle } }
  | service (hp : s.isr.phase = .idle) :
    HostMove s { s with regs := { s.regs with svRsp := busyWord }, isr := { s.isr with phase := .s0 } }

/-- What a host write answers: an effect, or one of the four refusals of a breach of contract (U1, U3, U4, U9). -/
inductive HostAnswer (s : State) : Result → Prop
  | next {t : State} (h : HostMove s t) : HostAnswer s (.next t)
  | busy : HostAnswer s (.refused .portBusy)
  | rxOff : HostAnswer s (.refused .rxDisabled)
  | txOff : HostAnswer s (.refused .txDisabled)
  | part : HostAnswer s (.refused .hrfAccess)

section
variable {s : State}

/-- The CFG commands run whole at issue. -/
theorem cfgCommand_answer {i : Instr} (hi : i.port = some .cfg) (ha : s.appReady = true) : HostAnswer s (exec i s) := by
  cases i <;> cases hi
  case configure f =>
    rw [configureResult f s ha]
    exact .next (.configure f)
  case setReadTimeout =>
    rw [exec_setReadTimeout ha]
    exact .next .readTimeout
  case setWriteTimeout =>
    rw [exec_setWriteTimeout ha]
    exact .next .writeTimeout
  case status =>
    rw [exec_status ha]
    exact .next .status
  case len =>
    cases hon : s.drv.rxEnabled with
    | true =>
      rw [exec_len_enabled ha hon]
      exact .next (.len _)
    | false =>
      rw [exec_len_disabled ha hon]
      exact .next (.len _)

theorem rxCommand_answer {i : Instr} (hi : i.port = some .rx) (hf : s.drv.fatal = false) (hp : s.rx.phase = .idle) :
    HostAnswer s (exec i s) := by
  cases i <;> cases hi
  case enableRx =>
    rw [exec_enableRx_idle hf hp]
    exact .next (.issueRx hp _ _ .enable)
  case disableRx =>
    rw [exec_disableRx_idle hf hp]
    exact .next (.issueRx hp _ _ .disable)
  case read =>
    rw [exec_read_idle hf hp]
    cases hon : s.drv.rxEnabled with
    | false =>
      rw [rxRD0_disabled hon]
      exact .rxOff
    | true =>
      by_cases hlen : s.regs.rxA1 = 0#32
      · rw [rxRD0_empty hon hlen]
        exact .next (.readNothing hp)
      · rw [rxRD0_bytes hon hlen]
        exact .next (.issueRx hp _ _ (.read hon hlen))
  case readByte =>
    rw [exec_readByte_idle hf hp]
    cases hon : s.drv.rxEnabled with
    | false =>
      rw [rxRB0_disabled hon]
      exact .rxOff
    | true =>
      rw [rxRB0_enabled hon]
      exact .next (.issueRx hp _ _ (.readByte hon))

theorem writeCommand_answer {i : Instr} {len : Word} (hi : IssuesWrite i len s) (hf : s.drv.fatal = false)
    (hp : s.tx.phase = .idle) : HostAnswer s (exec i s) := by
  rw [exec_write_idle hi hf hp]
  cases hon : s.drv.txEnabled with
  | false =>
    rw [txW0_disabled _ hon]
    exact .txOff
  | true =>
    by_cases hlen : len = 0#32
    · rw [txW0_empty _ hon hlen]
      exact .next (.writeNothing hp i)
    · rw [txW0_payload _ hon hlen]
      exact .next (.write hp i len hi hlen)

theorem txCommand_answer {i : Instr} (hi : i.port = some .tx) (hf : s.drv.fatal = false) (hp : s.tx.phase = .idle) :
    HostAnswer s (exec i s) := by
  cases i <;> cases hi
  case enableTx =>
    rw [exec_enableTx_idle hf hp]
    exact .next (.issueTx hp _ _ .enable)
  case disableTx =>
    rw [exec_disableTx_idle hf hp]
    exact .next (.issueTx hp _ _ .disable)
  case write => exact writeCommand_answer (.inl ⟨rfl, rfl⟩) hf hp
  case writeString => exact writeCommand_answer (.inr (.inl ⟨rfl, rfl⟩)) hf hp
  case writeByte b => exact writeCommand_answer (.inr (.inr ⟨b, rfl, rfl⟩)) hf hp
  case flush =>
    rw [exec_flush_idle hf hp]
    exact .next (.issueTx hp _ _ .flush)

theorem isrCommand_answer {i : Instr} (hi : i.port = some .isr) (hf : s.drv.fatal = false) (hp : s.isr.phase = .idle) :
    HostAnswer s (exec i s) := by
  cases i <;> cases hi
  rw [exec_service_eq_serviceStep hf hp]
  exact .next (.service hp)

theorem appReady_of {s : State} (hf : s.drv.fatal = false) (hh : isrHolds s = false) : s.appReady = true := by
  simp [State.appReady, hf, hh]

theorem illegalCmd_move (p : Port) (hb : portBusy s p = false) : HostMove s (illegalCmd s p) := by
  cases p with
  | cfg => exact .illegalCfg
  | rx =>
    have hp : s.rx.phase = .idle := not_not.mp (of_decide_eq_false hb)
    rw [illegalCmd, respondRx_eq, ← hp]
    exact .illegalRx hp
  | tx =>
    have hp : s.tx.phase = .idle := not_not.mp (of_decide_eq_false hb)
    rw [illegalCmd, respondTx_eq, ← hp]
    exact .illegalTx hp
  | isr => exact .illegalIsr (not_not.mp (of_decide_eq_false hb))

/-- A `CMD` write: ignored, refused on a busy port, answered as illegal, put off or issued (R113, R114). -/
theorem cmdWrite_answer (p : Port) (w : Word) : HostAnswer s (cmdWrite p w s) := by
  cases hf : s.drv.fatal with
  | true =>
    rw [cmdWrite_fatal p w hf]
    exact .next .ignored
  | false =>
    cases hb : portBusy s p with
    | true =>
      rw [cmdWrite_busy w hf hb]
      split
      · exact .next .ignored
      · exact .busy
    | false =>
      cases hw : decodeCmd p w with
      | none =>
        rw [cmdWrite_illegal hf hb hw]
        exact .next (illegalCmd_move p hb)
      | some i =>
        have hport := (decodeCmd_eq_some.mp hw).2
        rw [cmdWrite_legal hf hb hw]
        split
        · exact .next (.waits _)
        · next hfree =>
          cases p with
          | cfg => exact cfgCommand_answer hport (appReady_of hf (by simpa [cfgHeld] using hfree))
          | rx => exact rxCommand_answer hport hf (not_not.mp (of_decide_eq_false hb))
          | tx => exact txCommand_answer hport hf (not_not.mp (of_decide_eq_false hb))
          | isr => exact isrCommand_answer hport hf (not_not.mp (of_decide_eq_false hb))

theorem hostWrite_answer (off : BitVec 8) (bytes : Nat) (v : Word) : HostAnswer s (hostWrite off bytes v s) := by
  unfold hostWrite
  split
  · split
    · exact cmdWrite_answer _ v
    · exact .next (.operand _ v)
  · exact .part

end

/-! ### The line's events -/

/-- The events of agent LINE (R313 to R316). -/
def isLine : Event → Bool
  | .lineRx _ | .lineTx | .lineErr _ | .rxIdle => true
  | .hostWrite _ _ _ | .hostRead _ _ | .memWrite _ _ | .memRead _ | .reset | .rxSeq | .txSeq | .isrSeq | .tick => false

/-- What the line does to the peripheral: it takes no received byte, takes from the transmit FIFO what the wire gains, and gathers error
flags only where the variant has a line status. -/
structure LineEffect (s : State) (p : Peripheral) : Prop where
  received : s.per.rxFifo ≠ [] → p.rxFifo ≠ []
  rxFits : s.per.rxFifo.length ≤ s.cfg.rxDepth → p.rxFifo.length ≤ s.cfg.rxDepth
  sent : p.wire ++ p.txFifo = s.per.wire ++ s.per.txFifo
  txShrinks : p.txFifo.length ≤ s.per.txFifo.length
  flags : s.cfg.hasLineStatus = false → p.hwerr = s.per.hwerr
  settings : p.rxTrig = s.per.rxTrig ∧ p.txTrig = s.per.txTrig ∧ p.pmask = s.per.pmask

section
variable {s : State}

theorem LineEffect.none (s : State) : LineEffect s s.per := ⟨id, id, rfl, le_rfl, fun _ => rfl, rfl, rfl, rfl⟩

theorem LineEffect.gather (hline : s.cfg.hasLineStatus = true) (f : BitVec 4) :
    LineEffect s { s.per with hwerr := s.per.hwerr ||| f } :=
  { LineEffect.none s with flags := fun hno => absurd (hno.symm.trans hline) Bool.false_ne_true }

/-- An event of the line acts on the peripheral alone. -/
theorem runEvent_line (s : State) {e : Event} (he : isLine e = true) :
    ∃ p, runEvent e s = .next (s.setPer p) ∧ LineEffect s p := by
  cases e <;> cases he
  case lineRx b =>
    rcases Nat.lt_or_ge s.per.rxFifo.length s.cfg.rxDepth with hroom | hfull
    · exact ⟨_, congrArg Host.Outcome.next (lineRx_room b hroom),
        { LineEffect.none s with received := fun _ => by simp, rxFits := fun _ => by simpa using hroom }⟩
    · cases hline : s.cfg.hasLineStatus with
      | true => exact ⟨_, congrArg Host.Outcome.next (lineRx_overrun b hfull hline), .gather hline _⟩
      | false => exact ⟨s.per, congrArg Host.Outcome.next (lineRx_lost b hfull hline), .none s⟩
  case lineTx =>
    cases hf : s.per.txFifo with
    | nil => exact ⟨s.per, congrArg Host.Outcome.next (lineTx_nil hf), .none s⟩
    | cons b rest =>
      exact ⟨_, congrArg Host.Outcome.next (lineTx_cons hf),
        { LineEffect.none s with sent := by simp [hf], txShrinks := by simp [hf] }⟩
  case lineErr f =>
    by_cases h : s.cfg.hasLineStatus = true ∧ f ≠ 0#4
    · exact ⟨_, congrArg Host.Outcome.next (lineErr_taken h.1 h.2), .gather h.1 f⟩
    · refine ⟨s.per, congrArg Host.Outcome.next (lineErr_idle ?_), .none s⟩
      rwa [not_and_or, Bool.not_eq_true, not_not] at h
  case rxIdle =>
    by_cases h : s.per.rxFifo = []
    · exact ⟨s.per, congrArg Host.Outcome.next (rxIdle_empty h), .none s⟩
    · exact ⟨_, congrArg Host.Outcome.next (rxIdle_marked (List.length_pos_iff.mpr h)), { LineEffect.none s with }⟩

end

/-! ### All events -/

/-- What the event `e` can do in the state `s`, where it has a result. -/
inductive Move (s : State) : Event → State → Prop
  | hostWrite (off : BitVec 8) (bytes : Nat) (v : Word) {t : State} (h : HostMove s t) : Move s (.hostWrite off bytes v) t
  | hostRead (off : BitVec 8) (bytes : Nat) (v : Word) : Move s (.hostRead off bytes) (latchHostData s v)
  | memRead (a v : Word) : Move s (.memRead a) (latchHostData s v)
  | memWrite (a : Word) (b : Byte) : Move s (.memWrite a b) (memWrite s a b)
  | reset : Move s .reset (applyReset s)
  | rxSeq {t : State} (ha : s.appReady = true) (h : RxMove s t) : Move s .rxSeq t
  | txSeq {t : State} (ha : s.appReady = true) (h : TxMove s t) : Move s .txSeq t
  | isrSeq {t : State} (hf : s.drv.fatal = false) (h : IsrMove s t) : Move s .isrSeq t
  | still (e : Event) (he : e = .rxSeq ∨ e = .txSeq ∨ e = .isrSeq) : Move s e s
  | tick : Move s .tick (tick s)
  | line (e : Event) (p : Peripheral) (h : LineEffect s p) : Move s e (s.setPer p)

section
variable {s t : State}

/-! ### Turns that are not taken (R9, R145) -/

theorem rxRuns_none {p : RxPhase} (h : rxRuns p none = true) : p = .idle := by
  cases p
  case idle => rfl
  all_goals cases h

theorem latchedRx_some (hl : rxRuns s.rx.phase (latchedRx s) = true) (hp : s.rx.phase ≠ .idle) :
    ∃ i, latchedRx s = some i ∧ i.port = some .rx := by
  cases hi : latchedRx s with
  | some i => exact ⟨i, rfl, (decodeCmd_eq_some.mp hi).2⟩
  | none =>
    rw [hi] at hl
    exact absurd (rxRuns_none hl) hp

theorem txRuns_none {p : TxPhase} (h : txRuns p none = true) : p = .idle := by
  cases p
  case idle => rfl
  all_goals cases h

theorem latchedTx_some (hl : txRuns s.tx.phase (latchedTx s) = true) (hp : s.tx.phase ≠ .idle) :
    ∃ i, latchedTx s = some i ∧ i.port = some .tx := by
  cases hi : latchedTx s with
  | some i => exact ⟨i, rfl, (decodeCmd_eq_some.mp hi).2⟩
  | none =>
    rw [hi] at hl
    exact absurd (txRuns_none hl) hp

theorem exec_rx_held {i : Instr} (hi : i.port = some .rx) (hp : s.rx.phase ≠ .idle) (ha : s.appReady = false) :
    exec i s = .next s := by
  cases i <;> cases hi
  all_goals exact (rxStep_busy _ _ hp).trans (appStep_held _ ha)

theorem exec_tx_held {i : Instr} (hi : i.port = some .tx) (hp : s.tx.phase ≠ .idle) (ha : s.appReady = false) :
    exec i s = .next s := by
  cases i <;> cases hi
  all_goals exact (txStep_busy _ _ hp).trans (appStep_held _ ha)

theorem rxTurn_held (hl : rxRuns s.rx.phase (latchedRx s) = true) (ha : s.appReady = false) : rxTurn s = .next s := by
  by_cases hp : s.rx.phase = .idle
  · exact if_pos hp
  · obtain ⟨i, hi, hport⟩ := latchedRx_some hl hp
    rw [rxTurn_latched hp hi, exec_rx_held hport hp ha]

theorem txTurn_held (hl : txRuns s.tx.phase (latchedTx s) = true) (ha : s.appReady = false) : txTurn s = .next s := by
  by_cases hp : s.tx.phase = .idle
  · exact if_pos hp
  · obtain ⟨i, hi, hport⟩ := latchedTx_some hl hp
    rw [txTurn_latched hp hi, exec_tx_held hport hp ha]

theorem isrTurn_held (hf : s.drv.fatal = true) : isrTurn s = .next s := by
  by_cases hp : s.isr.phase = .idle
  · exact if_pos hp
  · rw [isrTurn_busy hp]
    exact liveStep_held _ hf

/-! ### One event in a good state -/

theorem rxTurn_move (hg : s.Good) : ∃ t, rxTurn s = .next t ∧ Move s .rxSeq t := by
  have hl := hg.ports.rxLatch
  cases ha : s.appReady with
  | false => exact ⟨s, rxTurn_held hl ha, .still _ (.inl rfl)⟩
  | true =>
    by_cases hp : s.rx.phase = .idle
    · exact ⟨s, if_pos hp, .still _ (.inl rfl)⟩
    · obtain ⟨t, ht⟩ := rxMove_exists hg hp
      exact ⟨t, ht.turn_eq hg.cfgOk hl ha, .rxSeq ha ht⟩

theorem txTurn_move (hg : s.Good) : ∃ t, txTurn s = .next t ∧ Move s .txSeq t := by
  have hl := hg.ports.txLatch
  cases ha : s.appReady with
  | false => exact ⟨s, txTurn_held hl ha, .still _ (.inr (.inl rfl))⟩
  | true =>
    by_cases hp : s.tx.phase = .idle
    · exact ⟨s, if_pos hp, .still _ (.inr (.inl rfl))⟩
    · obtain ⟨t, ht⟩ := txMove_exists hg hp
      exact ⟨t, ht.turn_eq hg.cfgOk hl ha, .txSeq ha ht⟩

theorem isrTurn_move (hg : s.Good) : ∃ t, isrTurn s = .next t ∧ Move s .isrSeq t := by
  cases hf : s.drv.fatal with
  | true => exact ⟨s, isrTurn_held hf, .still _ (.inr (.inr rfl))⟩
  | false =>
    by_cases hp : s.isr.phase = .idle
    · exact ⟨s, if_pos hp, .still _ (.inr (.inr rfl))⟩
    · obtain ⟨t, ht⟩ := isrMove_exists hg hp
      exact ⟨t, (isrTurn_busy hp).trans (ht.exec_eq hg.cfgOk hf), .isrSeq hf ht⟩

/-- What an event answers in a good state: its effect, or the refusal of a breach of contract by the host. -/
inductive EventAnswer (s : State) (e : Event) : Result → Prop
  | next {t : State} (h : Move s e t) : EventAnswer s e (.next t)
  | badWrite (off : BitVec 8) (bytes : Nat) (v : Word) (he : e = .hostWrite off bytes v) (r : Refusal)
      (hr : r = .hrfAccess ∨ r = .portBusy ∨ r = .rxDisabled ∨ r = .txDisabled) : EventAnswer s e (.refused r)
  | badRead (off : BitVec 8) (bytes : Nat) (he : e = .hostRead off bytes) : EventAnswer s e (.refused .hrfAccess)

theorem runEvent_line_answer {e : Event} (he : isLine e = true) : EventAnswer s e (runEvent e s) := by
  obtain ⟨p, hp, h⟩ := runEvent_line s he
  rw [hp]
  exact .next (.line e p h)

theorem runEvent_answer (hg : s.Good) (e : Event) : EventAnswer s e (runEvent e s) := by
  cases e with
  | hostWrite off bytes v =>
    have h := hostWrite_answer (s := s) off bytes v
    rw [runEvent]
    generalize hostWrite off bytes v s = r at h
    cases h with
    | next h => exact .next (.hostWrite off bytes v h)
    | part => exact .badWrite off bytes v rfl _ (.inl rfl)
    | busy => exact .badWrite off bytes v rfl _ (.inr (.inl rfl))
    | rxOff => exact .badWrite off bytes v rfl _ (.inr (.inr (.inl rfl)))
    | txOff => exact .badWrite off bytes v rfl _ (.inr (.inr (.inr rfl)))
  | hostRead off bytes =>
    rw [runEvent, hostRead]
    split
    · exact .next (.hostRead off bytes _)
    · exact .badRead off bytes rfl
  | memWrite a b => exact .next (.memWrite a b)
  | memRead a => exact .next (.memRead a _)
  | reset => exact .next .reset
  | rxSeq =>
    obtain ⟨t, ht, hmove⟩ := rxTurn_move hg
    rw [runEvent, ht]
    exact .next hmove
  | txSeq =>
    obtain ⟨t, ht, hmove⟩ := txTurn_move hg
    rw [runEvent, ht]
    exact .next hmove
  | isrSeq =>
    obtain ⟨t, ht, hmove⟩ := isrTurn_move hg
    rw [runEvent, ht]
    exact .next hmove
  | tick => exact .next .tick
  | lineRx b => exact runEvent_line_answer rfl
  | lineTx => exact runEvent_line_answer rfl
  | lineErr f => exact runEvent_line_answer rfl
  | rxIdle => exact runEvent_line_answer rfl

/-- No clause of the invariant speaks of the schedule, of what the host holds or of the count of resets. -/
theorem State.Good.setEnv (hg : s.Good) (x : Bench) : (s.setEnv x).Good where
  cfgOk := hg.cfgOk
  peripheral := { hg.peripheral with }
  memory := { hg.memory with }
  ports := { hg.ports with }
  ring := { hg.ring with }
  reading := { hg.reading with }
  wake := { hg.wake with }
  engine := { hg.engine with }
  transmit := { hg.transmit with }

theorem State.Good.takeEvent (hg : s.Good) : (takeEvent s).Good := by
  obtain ⟨_, _, h⟩ := takeEvent_cases s
  rw [h]
  exact hg.setEnv _

theorem step_answer (hg : s.Good) : EventAnswer (takeEvent s) (nextEvent s) (step s) := by
  rw [step_event hg.peripheral.noPending]
  exact runEvent_answer hg.takeEvent _

/-- A step of a good state is one of the moves, from the state with its next event taken off. -/
theorem step_move (hg : s.Good) (h : step s = .next t) : Move (takeEvent s) (nextEvent s) t := by
  have hans := step_answer hg
  rw [h] at hans
  cases hans with
  | next hmove => exact hmove

end

/-- Settles O52. -/
theorem goodStatesOnlyRefuseContractBreaks : Obligations.GoodStatesOnlyRefuseContractBreaks := by
  intro s hg
  have hans := step_answer hg
  generalize step s = r at hans ⊢
  cases hans with
  | next _ => exact .inl ⟨_, rfl⟩
  | badWrite off bytes v he r hr =>
    refine .inr (.inl ⟨off, bytes, v, he, ?_⟩)
    rcases hr with rfl | rfl | rfl | rfl
    · exact .inl rfl
    · exact .inr (.inl rfl)
    · exact .inr (.inr (.inl rfl))
    · exact .inr (.inr (.inr rfl))
  | badRead off bytes he => exact .inr (.inr ⟨off, bytes, he, rfl⟩)

end Sys2Proof.Machine
end

