-- ==== Sys2Proof/Proofs/ReaderKeepsGood.lean ====
section
/-!
PROOF. Every step of RXSEQ keeps the invariant, one lemma per part of `State.Good`. A part's clauses that a rule does not touch hold
of the next state as they stand; the cases written out are the rules that touch them.
-/

namespace Sys2Proof.Machine

section
variable {s t : State}

theorem RxMove.keeps_peripheral (hg : s.Good) (h : RxMove s t) : PeripheralGood t := by
  have hper := hg.peripheral
  cases h
  case en1 => exact { hper with rxTrig := rxTrig_legal hg.cfgOk }
  case en2 =>
    refine { hper with maskIsIe := rfl, noStatus := fun hno => ?_ }
    obtain ⟨hhw, herr, hst⟩ := hper.noStatus hno
    exact ⟨hhw, herr, by simp [hst, show s.cfg.hasLineStatus = false from hno]⟩
  case dr1 =>
    refine { hper with maskIsIe := rfl, noStatus := fun hno => ?_ }
    obtain ⟨hhw, herr, hst⟩ := hper.noStatus hno
    exact ⟨hhw, herr, by simp [hst]⟩
  case fin2 =>
    refine { hper with noStatus := fun hno => ?_ }
    obtain ⟨hhw, -, hst⟩ := hper.noStatus hno
    exact ⟨hhw, rfl, hst⟩
  all_goals exact { hper with }

theorem RxMove.keeps_memory (hg : s.Good) (h : RxMove s t) : MemoryGood t := by
  have hmem := hg.memory
  cases h
  case copy _ _ m hm =>
    obtain ⟨m', heq, hwf⟩ := copyBytes_frame _ _ _ _ hm
    cases congrArg State.hostMem heq
    exact { hmem with host := hwf hmem.host }
  all_goals exact { hmem with }

/-- A response ends the command: the port is idle and the word has no `BUSY` (R37, R146). -/
theorem PortsGood.respondRx (hports : PortsGood s) {w : Word} (hbusy : busyBit w = false)
    (htop : w.extractLsb' 17 15 = 0#15) (n : Word) (d : Driver) (p : Peripheral) (q : PriBus) :
    PortsGood { s with
      regs := { s.regs with rxRsp := w, rxN := n }, drv := d, per := p, pri := q, rx := { s.rx with phase := .idle } } :=
  { hports with
    rxBusy := ⟨fun h => absurd (hbusy.symm.trans h) Bool.false_ne_true, fun h => absurd rfl h⟩
    rxRest := fun h => absurd rfl h
    rxTop := htop
    rxLatch := rfl }

/-- A step within the command keeps the port busy with what it has latched (R37, R101). -/
theorem PortsGood.relabelRx (hports : PortsGood s) {x : RxSeq} (hbusy : s.rx.phase ≠ .idle) (hnew : x.phase ≠ .idle)
    (hop : x.op = s.rx.op) (hruns : rxRuns x.phase = rxRuns s.rx.phase) (d : Driver) (m : Memory) (p : Peripheral)
    (q : PriBus) : PortsGood { s with drv := d, hostMem := m, per := p, pri := q, rx := x } :=
  { hports with
    rxBusy := ⟨fun _ => hnew, fun _ => hports.rxBusy.mpr hbusy⟩
    rxRest := fun _ => hports.rxRest hbusy
    rxLatch := by
      have hlatch := hports.rxLatch
      rw [latchedRx, ← hop, ← hruns] at hlatch
      exact hlatch }

theorem RxMove.keeps_ports (hg : s.Good) (h : RxMove s t) : PortsGood t := by
  have hports := hg.ports
  cases h
  case en2 => exact hports.respondRx rfl rfl _ _ _ _
  case dr1Off => exact hports.respondRx rfl rfl _ _ _ _
  case dr3 => exact hports.respondRx rfl rfl _ _ _ _
  case p5Timeout => exact hports.respondRx rfl rfl _ _ _ _
  case fin2 => exact hports.respondRx (busyBit_rspWord _ _ _) (topBits_rspWord _ _ _) _ _ _ _
  case en1Enabled => exact { hports with }
  case en1Small => exact { hports with }
  case en1Large => exact { hports with }
  case p6Empty => exact { hports with }
  case dr2Hold => exact hports
  case p4lHold => exact hports
  case p5lHold => exact hports
  all_goals
    have hp := ‹s.rx.phase = _›
    refine hports.relabelRx ?_ ?_ ?_ ?_ _ _ _ _
    · rw [hp]
      nofun
    · nofun
    · rfl
    · rw [hp]
      rfl

theorem RxMove.keeps_reading (hg : s.Good) (h : RxMove s t) : ReadGood t := by
  have hread := hg.reading
  cases h
  case en1Enabled => exact { hread with }
  case en1Small => exact { hread with }
  case en1Large => exact { hread with }
  case p6Empty => exact { hread with }
  case dr2Hold => exact hread
  case p4lHold => exact hread
  case p5lHold => exact hread
  case en1 => exact ⟨nofun⟩
  case en2 => exact ⟨nofun⟩
  case dr1Off => exact ⟨nofun⟩
  case dr1 => exact ⟨nofun⟩
  case dr2 => exact ⟨nofun⟩
  case dr3 => exact ⟨nofun⟩
  case p5Timeout => exact ⟨nofun⟩
  case fin2 => exact ⟨nofun⟩
  all_goals
    have hp := ‹s.rx.phase = _›
    exact ⟨fun _ hi => hread.nonEmpty (by rw [hp]; rfl) hi⟩

theorem RxMove.keeps_engine (hg : s.Good) (h : RxMove s t) : EngineGood t := by
  cases h
  all_goals exact { hg.engine with }

theorem RxMove.keeps_transmit (hg : s.Good) (h : RxMove s t) : TransmitGood t := by
  have htx := hg.transmit
  cases h
  case en2 =>
    have hie : hasTx (s.drv.ie ||| rxSources s.cfg) = hasTx s.drv.ie := by simp
    exact { htx with
      armed := fun h => htx.armed (hie ▸ h)
      doneOff := fun hp hd => hie.trans (htx.doneOff hp hd)
      wakeOff := fun hp => hie.trans (htx.wakeOff hp) }
  case dr1 =>
    have hie : hasTx (s.drv.ie &&& ~~~(srcRx ||| srcSt)) = hasTx s.drv.ie := by simp
    exact { htx with
      armed := fun h => htx.armed (hie ▸ h)
      doneOff := fun hp hd => hie.trans (htx.doneOff hp hd)
      wakeOff := fun hp => hie.trans (htx.wakeOff hp) }
  all_goals exact { htx with }

/-! ### The ring -/

/-- A step that changes no index and ends at a label where the consumer holds no snapshot and no count. -/
theorem RingGood.relabelRx (hring : RingGood s) {x : RxSeq} (hon : rxNeedsRing s.rx.phase = true)
    (hdr2 : x.phase ≠ .dr2) (hdr3 : x.phase ≠ .dr3) (hp3c : x.phase ≠ .p3c) (hcopy : x.phase ≠ .copy)
    (hadv : x.phase ≠ .adv)
    (d : Driver) (hd : d = { s.drv with
      overflow := d.overflow, rxWake := d.rxWake, rxWakeRequested := d.rxWakeRequested, errMask := d.errMask })
    (r : HostRegs) : RingGood { s with regs := r, drv := d, rx := x } := by
  rw [hd]
  exact { hring with
    phaseOn := fun _ => hring.phaseOn hon
    release := fun h => by simp_all
    released := fun h => absurd h hdr3
    snapshot := fun h => by simp_all
    taken := fun h => absurd h hadv }

/-- P1, P3 and P6 take a snapshot of a ring that holds data: all of it is there to be read (R133). -/
theorem RingGood.takeSnapshot (hring : RingGood s) (hon : rxNeedsRing s.rx.phase = true)
    (hd : s.drv.nextWrite ≠ s.drv.nextRead) {p : RxPhase} (hp : p = .p3c ∨ p = .copy) :
    RingGood { s with rx := { s.rx with nwSnap := s.drv.nextWrite, phase := p } } := by
  obtain ⟨-, -, -, hw⟩ := hring.inside hon
  rcases hp with rfl | rfl
  · exact { hring with
      phaseOn := fun _ => hring.phaseOn hon, release := nofun, released := nofun, taken := nofun
      snapshot := fun _ => ⟨hw, hd, le_rfl⟩ }
  · exact { hring with
      phaseOn := fun _ => hring.phaseOn hon, release := nofun, released := nofun, taken := nofun
      snapshot := fun _ => ⟨hw, hd, le_rfl⟩ }

/-- What COPY takes is some of the unread bytes, at least one (R133, R180). -/
theorem copyCount_taken (hg : s.Good) (hp : s.rx.phase = .copy) (hi : latchedRx s = some .read) :
    (BitVec.ofNat 32 (copyCount s)).toNat = copyCount s ∧ 1 ≤ copyCount s ∧ copyCount s ≤ unread s := by
  obtain ⟨h2, -, hr, -⟩ := hg.ring.inside (by rw [hp]; rfl)
  obtain ⟨hsnap, hne, hle⟩ := hg.ring.snapshot (.inr hp)
  obtain ⟨hone, hlt⟩ := copyCount_range h2 hr hsnap hne (hg.reading.nonEmpty (by rw [hp]; rfl) hi)
  have hword := s.drv.cap.isLt
  refine ⟨?_, hone, (Nat.min_le_right _ _).trans hle⟩
  rw [BitVec.toNat_ofNat, Nat.mod_eq_of_lt (by omega)]

/-- Distances round the ring: the candidate index stays away from a consumer that moves on within the unread bytes (R132). -/
theorem idxNext_ne_idxAdd {cap nr nw : Word} {n : Nat} (h2 : 2 ≤ cap.toNat) (hr : nr.toNat < cap.toNat)
    (hw : nw.toNat < cap.toNat) (hne : idxNext cap nw ≠ nr) (hn : n ≤ ringLen cap nr nw) :
    idxNext cap nw ≠ idxAdd cap nr n := by
  intro h
  have hlen := ringLen_lt h2 hr hw
  have hfull := ringLen_idxAdd h2 hr hw hn
  rw [← h, ringLen_from_idxNext hw] at hfull
  have hroom := (ringLen_eq_pred_iff h2 hr hw).not.mpr hne
  omega

theorem idxAdd_lt {cap nr : Word} {n : Nat} (hr : nr.toNat < cap.toNat) (hn : n < cap.toNat) :
    (idxAdd cap nr n).toNat < cap.toNat := by
  rw [idxAdd_toNat hr hn]
  split
  · assumption
  · omega

theorem RxMove.keeps_ring (hg : s.Good) (h : RxMove s t) : RingGood t := by
  have hring := hg.ring
  have hmark := hg.engine.mark
  cases h
  case en1 hp hoff hlow hhigh =>
    have hnotRx : s.isr.phase ≠ .i3 ∧ s.isr.phase ≠ .i4 := by
      have hout : s.drv.isrState ≠ .inRx := fun h => by simp [hring.sectionOn h] at hoff
      constructor <;> intro h <;> rw [h] at hmark <;> exact hout hmark
    have hempty : ringLen s.rx.a0 0#32 0#32 = 0 := ringLen_self _ _
    exact {
      on := fun _ => ⟨hlow, hhigh, by simp; omega, by simp; omega⟩
      off := nofun
      sourceOn := fun _ => rfl
      sectionOn := fun _ => rfl
      phaseOn := fun _ => rfl
      release := nofun
      released := nofun
      candidate := fun h => absurd h (by simp [hnotRx])
      stored := fun h => absurd h hnotRx.2
      snapshot := nofun
      taken := nofun
      written := fun k hk => absurd (hk.trans_eq hempty) (Nat.not_lt_zero k) }
  case en2 hp =>
    exact { hring with
      sourceOn := fun _ => hring.phaseOn (by rw [hp]; rfl)
      phaseOn := nofun, release := nofun, released := nofun, snapshot := nofun, taken := nofun }
  case dr1Off =>
    exact { hring with phaseOn := nofun, release := nofun, released := nofun, snapshot := nofun, taken := nofun }
  case dr1 hp hon =>
    exact { hring with
      sourceOn := fun _ => hon, phaseOn := fun _ => hon, release := fun _ => by simp, released := nofun, snapshot := nofun
      taken := nofun }
  case dr2Hold => exact hring
  case dr2 hp hm =>
    exact { hring with
      phaseOn := fun _ => hring.phaseOn (by rw [hp]; rfl), release := fun _ => hring.release (.inl hp), released := fun _ => hm
      snapshot := nofun, taken := nofun }
  case dr3 hp =>
    have hoff := hring.release (.inr hp)
    have hout := hring.released hp
    have hnotRx : s.isr.phase ≠ .i3 ∧ s.isr.phase ≠ .i4 := by
      constructor <;> intro h <;> rw [h] at hmark <;> exact hout hmark
    exact {
      on := nofun
      off := fun _ => ⟨rfl, rfl, rfl⟩
      sourceOn := fun h => absurd (hoff.symm.trans h) Bool.false_ne_true
      sectionOn := fun h => absurd h hout
      phaseOn := nofun
      release := nofun
      released := nofun
      candidate := fun h => absurd h (by simp [hnotRx])
      stored := fun h => absurd h hnotRx.2
      snapshot := nofun
      taken := nofun
      written := fun k hk => absurd hk (Nat.not_lt_zero k) }
  case p1Data hp hd => exact hring.takeSnapshot (by rw [hp]; rfl) hd (.inr rfl)
  case p3Data hp hd => exact hring.takeSnapshot (by rw [hp]; rfl) hd (.inl rfl)
  case p6Data hp hd => exact hring.takeSnapshot (by rw [hp]; rfl) hd (.inr rfl)
  case p3c hp =>
    exact { hring with
      phaseOn := fun _ => hring.phaseOn (by rw [hp]; rfl), release := nofun, released := nofun
      snapshot := fun _ => hring.snapshot (.inl hp), taken := nofun }
  case copy hp hi m hm =>
    obtain ⟨hcount, hone, hle⟩ := copyCount_taken hg hp hi
    exact { hring with
      phaseOn := fun _ => hring.phaseOn (by rw [hp]; rfl), release := nofun, released := nofun, snapshot := nofun
      taken := fun _ => ⟨hone.trans_eq hcount.symm, hcount.trans_le hle⟩ }
  case copyByte hp hi hr =>
    obtain ⟨h2, -, hr, -⟩ := hring.inside (by rw [hp]; rfl)
    obtain ⟨-, hne, hle⟩ := hring.snapshot (.inr hp)
    have hpos := ringLen_pos h2 hr hne
    exact { hring with
      phaseOn := fun _ => hring.phaseOn (by rw [hp]; rfl), release := nofun, released := nofun, snapshot := nofun
      taken := fun _ => ⟨le_rfl, hpos.trans hle⟩ }
  case adv hp =>
    have hon := hring.phaseOn (by rw [hp]; rfl)
    obtain ⟨h2, hcap, hr, hw⟩ := hring.on hon
    obtain ⟨hone, hle⟩ := hring.taken hp
    have hlt : s.rx.rdN.toNat < s.drv.cap.toNat := hle.trans_lt (ringLen_lt h2 hr hw)
    have hlen := ringLen_idxAdd h2 hr hw hle
    exact { hring with
      on := fun _ => ⟨h2, hcap, idxAdd_lt hr hlt, hw⟩
      off := fun hoff => absurd (hoff.symm.trans hon) Bool.false_ne_true
      phaseOn := fun _ => hon, release := nofun, released := nofun, snapshot := nofun, taken := nofun
      candidate := fun hi => by
        obtain ⟨hnext, hne⟩ := hring.candidate hi
        exact ⟨hnext, hnext ▸ idxNext_ne_idxAdd h2 hr hw (hnext ▸ hne) hle⟩
      written := fun k hk => by
        have hslot := hring.written (s.rx.rdN.toNat + k) (by rw [unread]; exact Nat.add_lt_of_lt_sub' (hlen ▸ hk))
        rw [← slotAt_idxAdd hr hlt] at hslot
        exact hslot }
  case en1Enabled => exact { hring with }
  case en1Small => exact { hring with }
  case en1Large => exact { hring with }
  case p6Empty => exact { hring with }
  case p4lHold => exact hring
  case p5lHold => exact hring
  all_goals
    have hp := ‹s.rx.phase = _›
    refine hring.relabelRx ?_ ?_ ?_ ?_ ?_ ?_ _ rfl _
    · rw [hp]
      rfl
    all_goals nofun

/-! ### The wait protocol -/

/-- A step of the reader is taken under `run_to_completion` only while the engine is idle (R9). -/
theorem wakeWindow_closed (ha : s.appReady = true) (hrun : s.cfg.isrPreempt = .runToCompletion) :
    ¬ (s.isr.phase = .i5 ∨ s.isr.phase = .i6) := by
  have hidle : s.isr.phase = .idle := by
    simp only [State.appReady, isrHolds, hrun, decide_true, Bool.true_and, Bool.and_eq_true, Bool.not_eq_true',
      decide_eq_false_iff_not, not_not] at ha
    exact ha.2
  rw [hidle]
  nofun

theorem rxWaiting_of_requesting {p : RxPhase} : rxRequesting p = true → rxWaiting p = true := by
  cases p <;> decide

theorem rxWaiting_of_asleep {p : RxPhase} : rxAsleep p = true → rxWaiting p = true := by
  cases p <;> decide

theorem rxWaiting_of_secondSleep {p : RxPhase} : rxSecondSleep p = true → rxWaiting p = true := by
  cases p <;> decide

/-- Outside the labels from P2B to P6 the wait protocol claims nothing of the reader. -/
theorem WakeGood.awake (hp : rxWaiting s.rx.phase = false)
    (hwindow : s.cfg.isrPreempt = .runToCompletion → s.isr.phase = .i5 ∨ s.isr.phase = .i6 →
      s.drv.nextWrite ≠ s.drv.nextRead) : WakeGood s where
  requested := fun h => absurd (hp.symm.trans (rxWaiting_of_requesting h)) Bool.false_ne_true
  asleep := fun h => absurd (hp.symm.trans (rxWaiting_of_asleep h)) Bool.false_ne_true
  secondSleep := fun h => absurd (hp.symm.trans (rxWaiting_of_secondSleep h)) Bool.false_ne_true
  sound := fun _ h => absurd (hp.symm.trans h) Bool.false_ne_true
  soundWindow := hwindow
  wokenData := fun _ h => by
    rw [h] at hp
    cases hp

theorem RxMove.keeps_wake (hg : s.Good) (ha : s.appReady = true) (h : RxMove s t) : WakeGood t := by
  have hwake := hg.wake
  cases h
  case p2a => exact { hwake with
    requested := nofun, asleep := nofun, secondSleep := nofun, sound := nofun, wokenData := nofun }
  case p2b hp => exact { hwake with
    requested := fun _ => .inr (.inl rfl), asleep := nofun, secondSleep := nofun
    sound := fun hrun _ => hwake.sound hrun (by rw [hp]; rfl), wokenData := nofun }
  case p3Empty hp he => exact { hwake with
    requested := fun _ => hwake.requested (by rw [hp]; rfl), asleep := fun _ hd => absurd he hd, secondSleep := nofun
    sound := fun hrun _ => hwake.sound hrun (by rw [hp]; rfl), wokenData := nofun }
  case p4 hp => exact { hwake with
    requested := fun _ => hwake.requested (by rw [hp]; rfl), asleep := fun _ => hwake.asleep (by rw [hp]; rfl)
    secondSleep := nofun, sound := fun hrun _ => hwake.sound hrun (by rw [hp]; rfl), wokenData := nofun }
  case p4lWoken hp hw => exact { hwake with
    requested := nofun, asleep := nofun, secondSleep := nofun
    sound := fun hrun _ => hwake.sound hrun (by rw [hp]; rfl)
    wokenData := fun hrun _ => hwake.sound hrun (by rw [hp]; rfl) hw }
  case p4lExpired hp hw ht => exact { hwake with
    requested := fun _ => hwake.requested (by rw [hp]; rfl), asleep := nofun, secondSleep := nofun
    sound := fun hrun _ => hwake.sound hrun (by rw [hp]; rfl), wokenData := nofun }
  case p5Late hp hr =>
    have hgone := hwake.requested (by rw [hp]; rfl)
    exact { hwake with
      requested := nofun, asleep := nofun, secondSleep := fun _ => by simpa [hr] using hgone
      sound := fun hrun _ => hwake.sound hrun (by rw [hp]; rfl), wokenData := nofun }
  case p5s hp => exact { hwake with
    requested := nofun, asleep := nofun, secondSleep := fun _ => hwake.secondSleep (by rw [hp]; rfl)
    sound := fun hrun _ => hwake.sound hrun (by rw [hp]; rfl), wokenData := nofun }
  case p5lWoken hp hw => exact { hwake with
    requested := nofun, asleep := nofun, secondSleep := nofun
    sound := fun hrun _ => hwake.sound hrun (by rw [hp]; rfl)
    wokenData := fun hrun _ => hwake.sound hrun (by rw [hp]; rfl) hw }
  case en1Enabled => exact { hwake with }
  case en1Small => exact { hwake with }
  case en1Large => exact { hwake with }
  case p6Empty => exact { hwake with }
  case dr2Hold => exact hwake
  case p4lHold => exact hwake
  case p5lHold => exact hwake
  all_goals exact .awake rfl fun hrun hi => absurd hi (wakeWindow_closed ha hrun)

/-- RXSEQ keeps the invariant. -/
theorem RxMove.keeps_good (hg : s.Good) (ha : s.appReady = true) (h : RxMove s t) : t.Good where
  cfgOk := by
    have hok := hg.cfgOk
    cases h <;> exact hok
  peripheral := h.keeps_peripheral hg
  memory := h.keeps_memory hg
  ports := h.keeps_ports hg
  ring := h.keeps_ring hg
  reading := h.keeps_reading hg
  wake := h.keeps_wake hg ha
  engine := h.keeps_engine hg
  transmit := h.keeps_transmit hg

end

end Sys2Proof.Machine
end

