-- ==== Sys2Proof/Proofs/WriterKeepsGood.lean ====
section
/-!
PROOF. Every step of TXSEQ keeps the invariant, one lemma per part of `State.Good`.
-/

namespace Sys2Proof.Machine

section
variable {s t : State}

/-! ### The parts TXSEQ touches at a few labels -/

/-- A status read clears the error latch and keeps its flags in `err_mask` (R142); without line status both stay 0. -/
theorem PeripheralGood.statusRead (hper : PeripheralGood s) (r : HostRegs) (x : RxSeq) (y : TxSeq) (z : IsrSeq) (w : Word) :
    PeripheralGood { s with
      drv := { s.drv with errMask := s.drv.errMask ||| (if s.cfg.hasLineStatus then s.per.hwerr else 0#4) }
      per := { s.per with hwerr := 0#4 }, pri := { s.pri with req := 0x20000000#32, rsp := w }
      regs := r, rx := x, tx := y, isr := z } :=
  { hper with
    noStatus := fun hno => by
      obtain ⟨-, herr, hst⟩ := hper.noStatus hno
      exact ⟨rfl, by simp [herr, show s.cfg.hasLineStatus = false from hno], hst⟩ }

/-- A change of the enable mask that brings in no status source keeps the two masks equal (R139). -/
theorem PeripheralGood.setIe (hper : PeripheralGood s) {m : BitVec 3} (hst : hasSt m = hasSt s.drv.ie) (x : TxSeq) (z : IsrSeq)
    (q : Word) : PeripheralGood { s with
      drv := { s.drv with ie := m }, per := { s.per with pmask := m }, pri := { s.pri with req := q, rsp := 0#32 }
      tx := x, isr := z } :=
  { hper with
    maskIsIe := rfl
    noStatus := fun hno => by
      obtain ⟨hhw, herr, hoff⟩ := hper.noStatus hno
      exact ⟨hhw, herr, hst.trans hoff⟩ }

theorem PeripheralGood.pushTx (hper : PeripheralGood s) (hroom : s.per.txFifo.length < s.cfg.txDepth) (b : Byte) (d : Driver)
    (hd : d = { s.drv with txCursor := d.txCursor }) (r : HostRegs) (x : TxSeq) (z : IsrSeq) (q : Word) :
    PeripheralGood { s with
      per := { s.per with txFifo := s.per.txFifo ++ [b] }, pri := { s.pri with req := q, rsp := 0#32 }
      drv := d, regs := r, tx := x, isr := z } := by
  rw [hd]
  exact { hper with txFits := by simpa using hroom }

theorem TxMove.keeps_peripheral (hg : s.Good) (h : TxMove s t) : PeripheralGood t := by
  have hper := hg.peripheral
  cases h
  case dt1 => exact hper.setIe (by simp) _ _ _
  case w6 => exact hper.setIe (by simp) _ _ _
  case w8 => exact hper.setIe (by simp) _ _ _
  case w1s => exact hper.statusRead _ _ _ _ _
  case fl2 => exact hper.statusRead _ _ _ _ _
  case w1pMore hp hroom hmore => exact hper.pushTx hroom _ _ rfl _ _ _ _
  case w1pLast hp hroom hlast => exact hper.pushTx hroom _ _ rfl _ _ _ _
  case w4 hp n hn => exact { hper with txTrig := hn ▸ txLevel_legal _ hg.cfgOk }
  all_goals exact { hper with }

theorem TxMove.keeps_memory (hg : s.Good) (h : TxMove s t) : MemoryGood t := by
  cases h
  all_goals exact { hg.memory with }

theorem PortsGood.respondTx (hports : PortsGood s) {w : Word} (hbusy : busyBit w = false)
    (htop : w.extractLsb' 17 15 = 0#15) (n : Word) (d : Driver) (p : Peripheral) (q : PriBus) (x : TxSeq)
    (hx : x.phase = .idle) :
    PortsGood { s with regs := { s.regs with txRsp := w, txN := n }, drv := d, per := p, pri := q, tx := x } :=
  { hports with
    txBusy := ⟨fun h => absurd (hbusy.symm.trans h) Bool.false_ne_true, fun h => absurd hx h⟩
    txRest := fun h => absurd hx h
    txTop := htop
    txLatch := by
      show txRuns x.phase _ = true
      rw [hx]
      rfl }

theorem PortsGood.relabelTx (hports : PortsGood s) {x : TxSeq} (hbusy : s.tx.phase ≠ .idle) (hnew : x.phase ≠ .idle)
    (hop : x.op = s.tx.op) (himm : x.imm = s.tx.imm) (hruns : txRuns x.phase = txRuns s.tx.phase) (d : Driver)
    (p : Peripheral) (q : PriBus) : PortsGood { s with drv := d, per := p, pri := q, tx := x } :=
  { hports with
    txBusy := ⟨fun _ => hnew, fun _ => hports.txBusy.mpr hbusy⟩
    txRest := fun _ => hports.txRest hbusy
    txLatch := by
      have hlatch := hports.txLatch
      rw [latchedTx, ← hop, ← himm, ← hruns] at hlatch
      exact hlatch }

theorem TxMove.keeps_ports (hg : s.Good) (h : TxMove s t) : PortsGood t := by
  have hports := hg.ports
  cases h
  case te1 => exact hports.respondTx rfl rfl _ _ _ _ _ rfl
  case dt1Off => exact hports.respondTx rfl rfl _ _ _ _ _ rfl
  case dt3 => exact hports.respondTx rfl rfl _ _ _ _ _ rfl
  case w1pLast => exact hports.respondTx rfl rfl _ _ _ _ _ rfl
  case w10 => exact hports.respondTx (by split <;> rfl) (by split <;> rfl) _ _ _ _ _ rfl
  case fl2 => exact hports.respondTx (by split <;> rfl) (by split <;> rfl) _ _ _ _ _ rfl
  case dt2Hold => exact hports
  case w7lHold => exact hports
  case w9Hold => exact hports
  case fl2Hold => exact hports
  case w1s hp =>
    refine hports.relabelTx ?_ ?_ ?_ ?_ ?_ _ _ _
    · rw [hp]
      nofun
    · dsimp only
      split <;> nofun
    · rfl
    · rfl
    · rw [hp]
      dsimp only
      split <;> rfl
  all_goals
    have hp := ‹s.tx.phase = _›
    refine hports.relabelTx ?_ ?_ ?_ ?_ ?_ _ _ _
    · rw [hp]
      nofun
    · nofun
    · rfl
    · rfl
    · rw [hp]
      rfl

/-- Of the enables the ring's invariant reads the receive bit alone. -/
theorem RingGood.setIe (hring : RingGood s) {m : BitVec 3} (hrx : hasRx m = hasRx s.drv.ie) (p : Peripheral) (q : PriBus)
    (x : TxSeq) : RingGood { s with drv := { s.drv with ie := m }, per := p, pri := q, tx := x } :=
  { hring with
    sourceOn := fun h => hring.sourceOn (hrx ▸ h)
    release := fun h => hrx.trans (hring.release h) }

theorem TxMove.keeps_ring (hg : s.Good) (h : TxMove s t) : RingGood t := by
  have hring := hg.ring
  cases h
  case dt1 => exact hring.setIe (by simp) _ _ _
  case w6 => exact hring.setIe (by simp) _ _ _
  case w8 => exact hring.setIe (by simp) _ _ _
  all_goals exact { hring with }

theorem TxMove.keeps_reading (hg : s.Good) (h : TxMove s t) : ReadGood t := by
  cases h
  all_goals exact { hg.reading with }

theorem TxMove.keeps_wake (hg : s.Good) (h : TxMove s t) : WakeGood t := by
  cases h
  all_goals exact { hg.wake with }

theorem TxMove.keeps_engine (hg : s.Good) (h : TxMove s t) : EngineGood t := by
  cases h
  all_goals exact { hg.engine with }

/-! ### The transmit path -/

/-- Outside the window from W7 to W9 the enable is 0 and no transmit section is in flight (R217, R219, R220, R225). -/
structure WindowClosed (s : State) : Prop where
  enable : hasTx s.drv.ie = false
  mark : s.drv.isrState ≠ .inTx
  label : isrMarkOf s.isr.phase ≠ .inTx

theorem txShared_of_armed {p : TxPhase} : txArmed p = true → txShared p = true := by
  cases p <;> decide

theorem State.Good.windowClosed (hg : s.Good) (hp : txShared s.tx.phase = false) : WindowClosed s where
  enable := Bool.eq_false_iff.mpr fun h => by simp [txShared_of_armed (hg.transmit.armed h)] at hp
  mark := fun h => by simp [hg.transmit.section_ h] at hp
  label := fun h => by simp [hg.transmit.section_ (hg.engine.mark.trans h)] at hp

/-- With the window closed the clauses about the engine's transmit section and the writer's sleep claim nothing. -/
theorem TransmitGood.closed (hw : WindowClosed s) (hp : txShared s.tx.phase = false)
    (cleared : s.tx.phase = .w6 → s.drv.txDone = false)
    (roomFast : s.tx.phase = .w1p → s.per.txFifo.length < s.cfg.txDepth)
    (cursor : s.drv.txCursor.toNat ≤ s.drv.txPending.len.toNat)
    (filling : txFilling s.tx.phase = true → s.tx.i.toNat < (payloadLen s (latchedForm s)).toNat)
    (staged : txStaged s.tx.phase = true →
      s.tx.i.toNat + s.drv.txPending.len.toNat = (payloadLen s (latchedForm s)).toNat)
    (woken : s.tx.phase = .w10 → s.tx.waitOk = true → s.drv.txCursor = s.drv.txPending.len)
    (described : txStaged s.tx.phase = true → s.drv.txPending = stagedDesc s (latchedForm s))
    (kept : txStaged s.tx.phase = true → latchedForm s = .immediate → s.drv.txByte = s.tx.imm.extractLsb' 0 8) :
    TransmitGood s where
  armed := fun h => absurd (hw.enable.symm.trans h) Bool.false_ne_true
  section_ := fun h => absurd h hw.mark
  cleared := cleared
  doneOff := fun _ _ => hw.enable
  wakeOff := fun _ => hw.enable
  roomFast := roomFast
  roomIsr := fun h => absurd (by rw [h]; rfl) hw.label
  cursor := cursor
  more := fun h => absurd (by rcases h with h | h <;> rw [h] <;> rfl) hw.label
  finished := fun h => absurd (by rcases h with h | h <;> rw [h] <;> rfl) hw.label
  filling := filling
  staged := staged
  done := fun h => by rcases h with h | h <;> rw [h] at hp <;> cases hp
  abandoned := fun h => by
    rw [h] at hp
    cases hp
  woken := fun h => by
    rcases h with h | h
    · rw [h] at hp
      cases hp
    · exact woken h
  described := described
  kept := kept

theorem not_shared_of_not_writing {p : TxPhase} : txWriting p = false → txShared p = false := by
  cases p <;> decide

theorem not_filling_of_not_writing {p : TxPhase} : txWriting p = false → ¬ txFilling p = true := by
  cases p <;> decide

theorem not_staged_of_not_writing {p : TxPhase} : txWriting p = false → ¬ txStaged p = true := by
  cases p <;> decide

/-- Outside the write commands nothing is left but that the descriptor's cursor is in range. -/
theorem TransmitGood.outside (hw : WindowClosed s) (hp : txWriting s.tx.phase = false)
    (cursor : s.drv.txCursor.toNat ≤ s.drv.txPending.len.toNat) : TransmitGood s := by
  have not_at {p : TxPhase} (hwrite : txWriting p = true) : s.tx.phase ≠ p := fun h => by
    rw [h, hwrite] at hp
    cases hp
  exact .closed hw (not_shared_of_not_writing hp) (fun h => absurd h (not_at rfl)) (fun h => absurd h (not_at rfl)) cursor
    (fun h => absurd h (not_filling_of_not_writing hp)) (fun h => absurd h (not_staged_of_not_writing hp))
    (fun h => absurd h (not_at rfl)) (fun h => absurd h (not_staged_of_not_writing hp))
    fun h => absurd h (not_staged_of_not_writing hp)

/-- One more byte of a payload that has one left. -/
theorem succ_lt_of_ne {i len : Word} (hi : i.toNat < len.toNat) (hne : i + 1#32 ≠ len) : (i + 1#32).toNat < len.toNat := by
  bv_omega

/-- What W3 stages ends the payload (R214, R223). -/
theorem staged_total {form : PayloadForm} (hi : s.tx.i.toNat < (payloadLen s form).toNat) :
    s.tx.i.toNat + (stagedDesc s form).len.toNat = (payloadLen s form).toNat := by
  cases form with
  | memory =>
    have hi : s.tx.i.toNat < s.tx.a1.toNat := hi
    show s.tx.i.toNat + (s.tx.a1 - s.tx.i).toNat = s.tx.a1.toNat
    bv_omega
  | immediate =>
    have hi : s.tx.i.toNat < 1 := hi
    show s.tx.i.toNat + 1 = 1
    omega

theorem TxMove.keeps_transmit (hg : s.Good) (h : TxMove s t) : TransmitGood t := by
  have htx := hg.transmit
  have hclosed := hg.windowClosed
  cases h
  case dt2Hold => exact htx
  case w7lHold => exact htx
  case w9Hold => exact htx
  case fl2Hold => exact htx
  case w1s hp =>
    have hw := hclosed (by rw [hp]; rfl)
    have hfill := htx.filling (by rw [hp]; rfl)
    have hfits := hg.peripheral.txFits
    by_cases hfull : s.per.txFifo.length = s.cfg.txDepth
    · rw [if_pos hfull]
      exact .closed { hw with } rfl nofun nofun htx.cursor (fun _ => hfill) nofun nofun nofun nofun
    · rw [if_neg hfull]
      exact .closed { hw with } rfl nofun (fun _ => lt_of_le_of_ne hfits hfull) htx.cursor (fun _ => hfill) nofun nofun
        nofun nofun
  case w1pMore hp hroom hmore =>
    exact .closed { hclosed (by rw [hp]; rfl) with } rfl nofun nofun htx.cursor
      (fun _ => succ_lt_of_ne (htx.filling (by rw [hp]; rfl)) hmore) nofun nofun nofun nofun
  case w3 hp =>
    exact .closed { hclosed (by rw [hp]; rfl) with } rfl nofun nofun (Nat.zero_le _) nofun
      (fun _ => staged_total (htx.filling (by rw [hp]; rfl))) nofun (fun _ => rfl)
      fun _ hform => congrArg (stagedByte s) hform
  case w4 hp n hn =>
    exact .closed { hclosed (by rw [hp]; rfl) with } rfl nofun nofun htx.cursor nofun
      (fun _ => htx.staged (by rw [hp]; rfl)) nofun (fun _ => htx.described (by rw [hp]; rfl))
      fun _ => htx.kept (by rw [hp]; rfl)
  case w5 hp =>
    exact .closed { hclosed (by rw [hp]; rfl) with } rfl (fun _ => rfl) nofun htx.cursor nofun
      (fun _ => htx.staged (by rw [hp]; rfl)) nofun (fun _ => htx.described (by rw [hp]; rfl))
      fun _ => htx.kept (by rw [hp]; rfl)
  case w6 hp =>
    obtain ⟨-, hmark, hlabel⟩ := hclosed (by rw [hp]; rfl)
    have hnotDone := htx.cleared hp
    exact { htx with
      armed := fun _ => rfl, section_ := fun _ => rfl, cleared := nofun
      doneOff := fun _ h => absurd (hnotDone.symm.trans h) Bool.false_ne_true
      wakeOff := fun h => absurd (by rw [show s.isr.phase = .t1w from h]; rfl) hlabel
      roomFast := nofun, filling := nofun
      staged := fun _ => htx.staged (by rw [hp]; rfl)
      done := fun _ h => absurd (hnotDone.symm.trans h) Bool.false_ne_true
      abandoned := nofun, woken := nofun
      described := fun _ => htx.described (by rw [hp]; rfl)
      kept := fun _ => htx.kept (by rw [hp]; rfl) }
  case w7 hp =>
    exact { htx with
      armed := fun _ => rfl, section_ := fun _ => rfl, cleared := nofun
      doneOff := fun _ => htx.doneOff (.inl hp)
      roomFast := nofun, filling := nofun
      staged := fun _ => htx.staged (by rw [hp]; rfl)
      done := fun _ => htx.done (.inl hp)
      abandoned := nofun, woken := nofun
      described := fun _ => htx.described (by rw [hp]; rfl)
      kept := fun _ => htx.kept (by rw [hp]; rfl) }
  case w7lWoken hp hd =>
    have hoff := htx.doneOff (.inr hp) hd
    exact { htx with
      armed := fun h => absurd (hoff.symm.trans h) Bool.false_ne_true
      section_ := fun _ => rfl, cleared := nofun, doneOff := nofun, roomFast := nofun, filling := nofun
      staged := fun _ => htx.staged (by rw [hp]; rfl)
      done := nofun, abandoned := nofun
      woken := fun _ _ => htx.done (.inr hp) hd
      described := fun _ => htx.described (by rw [hp]; rfl)
      kept := fun _ => htx.kept (by rw [hp]; rfl) }
  case w7lExpired hp hd ht =>
    exact { htx with
      armed := fun _ => rfl, section_ := fun _ => rfl, cleared := nofun, doneOff := nofun, roomFast := nofun
      filling := nofun
      staged := fun _ => htx.staged (by rw [hp]; rfl)
      done := nofun
      abandoned := fun _ => rfl
      woken := nofun
      described := fun _ => htx.described (by rw [hp]; rfl)
      kept := fun _ => htx.kept (by rw [hp]; rfl) }
  case w8 hp =>
    have hfailed := htx.abandoned hp
    exact { htx with
      armed := fun h => by simp at h
      section_ := fun _ => rfl, cleared := nofun, doneOff := nofun
      wakeOff := fun _ => by simp
      roomFast := nofun, filling := nofun
      staged := fun _ => htx.staged (by rw [hp]; rfl)
      done := nofun, abandoned := nofun
      woken := fun _ h => absurd (hfailed.symm.trans h) Bool.false_ne_true
      described := fun _ => htx.described (by rw [hp]; rfl)
      kept := fun _ => htx.kept (by rw [hp]; rfl) }
  case w9 hp hm =>
    have hoff : hasTx s.drv.ie = false := Bool.eq_false_iff.mpr fun h => by simpa [hp, txArmed] using htx.armed h
    exact .closed ⟨hoff, hm, hg.engine.mark ▸ hm⟩ rfl nofun nofun htx.cursor nofun
      (fun _ => htx.staged (by rw [hp]; rfl)) (fun _ => htx.woken (.inl hp)) (fun _ => htx.described (by rw [hp]; rfl))
      fun _ => htx.kept (by rw [hp]; rfl)
  case w10 hp => exact .outside { hclosed (by rw [hp]; rfl) with } rfl (Nat.zero_le _)
  case dt1 hp hon =>
    obtain ⟨-, hmark, hlabel⟩ := hclosed (by rw [hp]; rfl)
    exact .outside ⟨by simp, hmark, hlabel⟩ rfl htx.cursor
  all_goals
    have hp := ‹s.tx.phase = _›
    exact .outside { hclosed (by rw [hp]; rfl) with } rfl htx.cursor

/-- TXSEQ keeps the invariant. -/
theorem TxMove.keeps_good (hg : s.Good) (h : TxMove s t) : t.Good where
  cfgOk := by
    have hok := hg.cfgOk
    cases h <;> exact hok
  peripheral := h.keeps_peripheral hg
  memory := h.keeps_memory hg
  ports := h.keeps_ports hg
  ring := h.keeps_ring hg
  reading := h.keeps_reading hg
  wake := h.keeps_wake hg
  engine := h.keeps_engine hg
  transmit := h.keeps_transmit hg

end

end Sys2Proof.Machine
end

