-- ==== Sys2Proof/Proofs/EngineKeepsGood.lean ====
section
/-!
PROOF. Every step of ISRSEQ keeps the invariant, one lemma per part of `State.Good`.
-/

namespace Sys2Proof.Machine

section
variable {s t : State}

/-! ### The cause the engine samples -/

/-- A source in the sampled cause is enabled (R140, R304). -/
theorem enabled_of_pendingCause (hper : PeripheralGood s) :
    (hasRx (pendingCause s) = true → hasRx s.drv.ie = true) ∧
      (hasTx (pendingCause s) = true → hasTx s.drv.ie = true) := by
  rw [pendingCause, hper.maskIsIe, hasRx_and, hasTx_and]
  simp only [Bool.and_eq_true]
  exact ⟨And.right, And.right⟩

/-- A receive cause means a byte in the receive FIFO (R305, R311). -/
theorem rxFifo_of_pendingCause (hper : PeripheralGood s) (h : hasRx (pendingCause s) = true) : s.per.rxFifo ≠ [] := by
  rw [pendingCause, hasRx_and, Bool.and_eq_true] at h
  obtain ⟨hlevel, -⟩ := rxLevelOk_iff.mp hper.rxTrig
  rcases hasRx_rawCond.mp h.1 with hraw | ⟨hraw, -⟩ <;> intro hnil <;> rw [hnil, List.length_nil] at hraw <;> omega

/-! ### Peripheral, memory, ports -/

theorem IsrMove.keeps_peripheral (hg : s.Good) (h : IsrMove s t) : PeripheralGood t := by
  have hper := hg.peripheral
  cases h
  case i1 hp b rest hf =>
    have hfits := hper.rxFits
    rw [hf, List.length_cons] at hfits
    exact { hper with rxFits := Nat.le_of_succ_le hfits }
  case t1a => exact hper.setIe (by simp) _ _ _
  case t2s => exact hper.statusRead _ _ _ _ _
  case st1 => exact hper.statusRead _ _ _ _ _
  case t3 hp hroom => exact hper.pushTx hroom _ _ rfl _ _ _ _
  case t4 hp n hn => exact { hper with txTrig := hn ▸ txLevel_legal _ hg.cfgOk }
  all_goals exact { hper with }

theorem IsrMove.keeps_memory (hg : s.Good) (h : IsrMove s t) : MemoryGood t := by
  have hmem := hg.memory
  cases h
  case i3 hp hcap => exact { hmem with buf := bufPut_wf hcap hmem.buf }
  all_goals exact { hmem with }

/-- The return clears the one bit that `SVRSP` has while the port is busy (R146). -/
theorem PortsGood.respondIsr (hports : PortsGood s) (hbusy : s.isr.phase ≠ .idle) (d : Driver) (p : Peripheral) (q : PriBus)
    (c : BitVec 3) : PortsGood { s with
      regs := { s.regs with svRsp := s.regs.svRsp &&& 0xFFFEFFFF#32 }, drv := d, per := p, pri := q
      isr := { s.isr with cause := c, phase := .idle } } :=
  { hports with
    svBusy := fun h => absurd rfl h
    svIdle := fun _ => .inl (by rw [hports.svBusy hbusy]; rfl) }

theorem PortsGood.relabelIsr (hports : PortsGood s) (hbusy : s.isr.phase ≠ .idle) {x : IsrSeq} (hnew : x.phase ≠ .idle)
    (d : Driver) (m : Memory) (p : Peripheral) (q : PriBus) :
    PortsGood { s with drv := d, buf := m, per := p, pri := q, isr := x } :=
  { hports with
    svBusy := fun _ => hports.svBusy hbusy
    svIdle := fun h => absurd h hnew }

theorem IsrMove.keeps_ports (hg : s.Good) (h : IsrMove s t) : PortsGood t := by
  have hports := hg.ports
  cases h
  case s2Return hp hst => exact hports.respondIsr (by rw [hp]; nofun) _ _ _ _
  case st1 hp => exact hports.respondIsr (by rw [hp]; nofun) _ _ _ _
  all_goals
    have hp := ‹s.isr.phase = _›
    refine hports.relabelIsr ?_ ?_ _ _ _ _
    · rw [hp]
      nofun
    · dsimp only
      try split
      all_goals nofun

/-! ### The ring -/

/-- The labels of the receive section are reached with receive enabled (R251). -/
theorem enabled_in_section (hg : s.Good) (hp : isrMarkOf s.isr.phase = .inRx) : s.drv.rxEnabled = true :=
  hg.ring.sectionOn (hg.engine.mark.trans hp)

/-- I4 publishes the byte I3 stored: the ring is one byte longer, and every unread slot is still written (R132, R255). -/
theorem RingGood.publish (hring : RingGood s) (hon : s.drv.rxEnabled = true) (hp : s.isr.phase = .i4) :
    RingGood { s with drv := { s.drv with nextWrite := s.isr.nw1 }, isr := { s.isr with phase := .i5 } } := by
  obtain ⟨h2, hcap, hr, hw⟩ := hring.on hon
  obtain ⟨hnext, hne⟩ := hring.candidate (.inr hp)
  have hlen : ringLen s.drv.cap s.drv.nextRead s.isr.nw1 = unread s + 1 := by
    rw [hnext]
    exact ringLen_idxNext h2 hr hw (hnext ▸ hne)
  have hlt : s.isr.nw1.toNat < s.drv.cap.toNat := by
    rw [hnext]
    exact idxNext_lt hw
  exact { hring with
    on := fun _ => ⟨h2, hcap, hr, hlt⟩
    off := fun hoff => absurd (hoff.symm.trans hon) Bool.false_ne_true
    candidate := nofun
    stored := nofun
    snapshot := fun h => by
      obtain ⟨hsnap, hfar, hle⟩ := hring.snapshot h
      exact ⟨hsnap, hfar, (Nat.le_succ_of_le hle).trans_eq hlen.symm⟩
    taken := fun h => by
      obtain ⟨hone, hle⟩ := hring.taken h
      exact ⟨hone, (Nat.le_succ_of_le hle).trans_eq hlen.symm⟩
    written := fun k hk => by
      rcases Nat.lt_succ_iff_lt_or_eq.mp (hk.trans_eq hlen) with hold | rfl
      · exact hring.written k hold
      · show (Memory.get s.buf (slotAt s.drv.cap s.drv.nextRead (unread s))).isSome = true
        rw [unread, slotAt_ringLen h2 hr hw, hring.stored hp]
        rfl }

theorem IsrMove.keeps_ring (hg : s.Good) (h : IsrMove s t) : RingGood t := by
  have hring := hg.ring
  have hmark := hg.engine.mark
  cases h
  case s0 hp =>
    rw [hp] at hmark
    cases hc : hasRx (pendingCause s) with
    | false => exact { hring with candidate := nofun, stored := nofun }
    | true =>
      have hie := (enabled_of_pendingCause hg.peripheral).1 hc
      exact { hring with
        sectionOn := fun _ => hring.sourceOn hie
        released := fun h => absurd ((hring.release (.inr h)).symm.trans hie) Bool.false_ne_true
        candidate := nofun, stored := nofun }
  case s1 hp =>
    rw [hp] at hmark
    cases hc : hasTx (pendingCause s) with
    | false => exact { hring with candidate := nofun, stored := nofun }
    | true => exact { hring with sectionOn := nofun, released := fun _ => nofun, candidate := nofun, stored := nofun }
  case i2Room hp hroom => exact { hring with candidate := fun _ => ⟨rfl, hroom⟩, stored := nofun }
  case i3 hp hcap =>
    exact { hring with
      candidate := fun _ => hring.candidate (.inl hp)
      stored := fun _ => by simp
      written := fun k hk => by
        have hold := hring.written k hk
        show (Memory.get (Memory.put s.buf _ _) _).isSome = true
        rw [Memory.get_put]
        split
        · rfl
        · exact hold }
  case i4 hp => exact hring.publish (enabled_in_section hg (by rw [hp]; rfl)) hp
  case i7Last =>
    exact { hring with sectionOn := nofun, released := fun _ => nofun, candidate := nofun, stored := nofun }
  case t5 => exact { hring with sectionOn := nofun, released := fun _ => nofun, candidate := nofun, stored := nofun }
  case i5 => exact { hring with candidate := by simp; split <;> simp, stored := by simp; split <;> simp }
  case t1a =>
    have hrx : hasRx (s.drv.ie &&& ~~~srcTx) = hasRx s.drv.ie := by simp
    exact { hring with
      sourceOn := fun h => hring.sourceOn (hrx ▸ h), release := fun h => hrx.trans (hring.release h)
      candidate := nofun, stored := nofun }
  case t2s => exact { hring with candidate := by simp; split <;> simp, stored := by simp; split <;> simp }
  case t3 => exact { hring with candidate := by simp; split <;> simp, stored := by simp; split <;> simp }
  all_goals exact { hring with candidate := nofun, stored := nofun }

theorem IsrMove.keeps_reading (hg : s.Good) (h : IsrMove s t) : ReadGood t := by
  cases h
  all_goals exact { hg.reading with }

/-! ### The wait protocol -/

/-- A step between labels other than I5 and I6 that leaves both Notes and the indices alone. -/
theorem WakeGood.relabelIsr (hwake : WakeGood s) (hold : s.isr.phase ≠ .i5 ∧ s.isr.phase ≠ .i6) {x : IsrSeq}
    (hnew : x.phase ≠ .i5 ∧ x.phase ≠ .i6) (d : Driver)
    (hd : d.rxWake = s.drv.rxWake ∧ d.rxWakeRequested = s.drv.rxWakeRequested ∧ d.nextWrite = s.drv.nextWrite ∧
      d.nextRead = s.drv.nextRead) (r : HostRegs) (m : Memory) (p : Peripheral) (q : PriBus) :
    WakeGood { s with regs := r, drv := d, buf := m, per := p, pri := q, isr := x } := by
  obtain ⟨hrequested, hasleep, hsecond, hsound, -, hwoken⟩ := hwake
  obtain ⟨hw, hr, hnw, hnr⟩ := hd
  constructor <;> simp_all

theorem rxRequesting_of_asleep {p : RxPhase} (h : rxAsleep p = true) : rxRequesting p = true := by
  cases p
  case p4 | p4l => rfl
  all_goals cases h

theorem IsrMove.keeps_wake (hg : s.Good) (h : IsrMove s t) : WakeGood t := by
  have hwake := hg.wake
  obtain ⟨hrequested, hasleep, hsecond, hsound, hwindow, hwoken⟩ := hg.wake
  cases h
  case i4 hp =>
    -- the published index is the candidate, which is not the consumer's
    obtain ⟨-, hne⟩ := hg.ring.candidate (.inr hp)
    exact {
      requested := fun h => by simpa [hp] using hrequested h
      asleep := fun _ _ => .inr (.inl rfl)
      secondSleep := fun h => by simpa [hp] using hsecond h
      sound := fun _ _ _ => hne
      soundWindow := fun _ _ => hne
      wokenData := fun _ _ => hne }
  case i5 hp =>
    -- a request found is passed on to I6; none found means the reader has been signalled already
    cases hr : s.drv.rxWakeRequested with
    | true => exact {
        requested := fun _ => .inr (.inr rfl), asleep := fun _ _ => .inr (.inr rfl), secondSleep := fun _ => .inr rfl
        sound := hsound, soundWindow := fun hrun _ => hwindow hrun (.inl hp), wokenData := hwoken }
    | false =>
      have hsignalled : rxRequesting s.rx.phase = true → s.drv.rxWake = true := fun h => by
        simpa [hr, hp] using hrequested h
      exact {
        requested := fun h => .inl (hsignalled h)
        asleep := fun h _ => .inl (hsignalled (rxRequesting_of_asleep h))
        secondSleep := fun h => .inl (by simpa [hp] using hsecond h)
        sound := hsound, soundWindow := fun _ => nofun, wokenData := hwoken }
  case i6 hp => exact {
      requested := fun _ => .inl rfl, asleep := fun _ _ => .inl rfl, secondSleep := fun _ => .inl rfl
      sound := fun hrun _ _ => hwindow hrun (.inr hp), soundWindow := fun _ => nofun, wokenData := hwoken }
  all_goals
    have hp := ‹s.isr.phase = _›
    refine hwake.relabelIsr ?_ ?_ _ ?_ _ _ _ _
    · rw [hp]
      decide
    · dsimp only
      try split
      all_goals decide
    · exact ⟨rfl, rfl, rfl, rfl⟩

/-! ### The engine's own clauses -/

theorem IsrMove.keeps_engine (hg : s.Good) (h : IsrMove s t) : EngineGood t := by
  obtain ⟨hmark, hloadable, hmore⟩ := hg.engine
  cases h
  case s0 hp =>
    have hfifo := rxFifo_of_pendingCause hg.peripheral
    cases hc : hasRx (pendingCause s) with
    | true => exact { mark := rfl, loadable := fun _ => hfifo hc, more := nofun }
    | false => exact { mark := hmark.trans (by rw [hp]; rfl), loadable := nofun, more := nofun }
  case s1 hp =>
    cases hc : hasTx (pendingCause s) with
    | true => exact { mark := rfl, loadable := nofun, more := nofun }
    | false => exact { mark := hmark.trans (by rw [hp]; rfl), loadable := nofun, more := nofun }
  case i1 hp b rest hf =>
    exact { mark := hmark.trans (by rw [hp]; rfl), loadable := nofun, more := fun _ h => of_decide_eq_true h }
  case i7More hp hm =>
    exact { mark := hmark.trans (by rw [hp]; rfl), loadable := fun _ => hmore (by rw [hp]; rfl) hm, more := nofun }
  case i7Last => exact { mark := rfl, loadable := nofun, more := nofun }
  case t5 => exact { mark := rfl, loadable := nofun, more := nofun }
  case i5 hp =>
    cases hr : s.drv.rxWakeRequested with
    | true => exact { mark := hmark.trans (by rw [hp]; rfl), loadable := nofun, more := fun _ => hmore (by rw [hp]; rfl) }
    | false => exact { mark := hmark.trans (by rw [hp]; rfl), loadable := nofun, more := fun _ => hmore (by rw [hp]; rfl) }
  case t2s hp =>
    by_cases hfull : s.per.txFifo.length = s.cfg.txDepth
    · rw [if_pos hfull]
      exact { mark := hmark.trans (by rw [hp]; rfl), loadable := nofun, more := nofun }
    · rw [if_neg hfull]
      exact { mark := hmark.trans (by rw [hp]; rfl), loadable := nofun, more := nofun }
  case t3 hp hroom =>
    by_cases hlast : s.drv.txCursor + 1#32 = s.drv.txPending.len
    · rw [if_pos hlast]
      exact { mark := hmark.trans (by rw [hp]; rfl), loadable := nofun, more := nofun }
    · rw [if_neg hlast]
      exact { mark := hmark.trans (by rw [hp]; rfl), loadable := nofun, more := nofun }
  case i2Full hp hfull =>
    exact { mark := hmark.trans (by rw [hp]; rfl), loadable := nofun, more := fun _ => hmore (by rw [hp]; rfl) }
  case i2Room hp hroom =>
    exact { mark := hmark.trans (by rw [hp]; rfl), loadable := nofun, more := fun _ => hmore (by rw [hp]; rfl) }
  case i3 hp hcap =>
    exact { mark := hmark.trans (by rw [hp]; rfl), loadable := nofun, more := fun _ => hmore (by rw [hp]; rfl) }
  case i3f hp =>
    exact { mark := hmark.trans (by rw [hp]; rfl), loadable := nofun, more := fun _ => hmore (by rw [hp]; rfl) }
  case i4 hp =>
    exact { mark := hmark.trans (by rw [hp]; rfl), loadable := nofun, more := fun _ => hmore (by rw [hp]; rfl) }
  case i6 hp =>
    exact { mark := hmark.trans (by rw [hp]; rfl), loadable := nofun, more := fun _ => hmore (by rw [hp]; rfl) }
  all_goals
    have hp := ‹s.isr.phase = _›
    exact { mark := hmark.trans (by rw [hp]; rfl), loadable := nofun, more := nofun }

/-! ### The transmit path -/

/-- A step that leaves the transmit path alone and ends at a label that claims nothing of it. -/
theorem TransmitGood.relabelIsr (htx : TransmitGood s) {x : IsrSeq}
    (hnew : x.phase ≠ .t1a ∧ x.phase ≠ .t1w ∧ x.phase ≠ .t2s ∧ x.phase ≠ .t3) (r : HostRegs) (d : Driver)
    (hd : d = { s.drv with
      nextWrite := d.nextWrite, overflow := d.overflow, rxWake := d.rxWake, rxWakeRequested := d.rxWakeRequested
      errMask := d.errMask, isrState := d.isrState })
    (hsection : d.isrState = .inTx → txShared s.tx.phase = true) (m : Memory) (p : Peripheral)
    (hp : p.txFifo = s.per.txFifo) (q : PriBus) :
    TransmitGood { s with regs := r, drv := d, buf := m, per := p, pri := q, isr := x } := by
  obtain ⟨ht1a, ht1w, ht2s, ht3⟩ := hnew
  rw [hd]
  exact { htx with
    section_ := hsection
    wakeOff := fun h => absurd h ht1w
    roomFast := fun h => hp ▸ htx.roomFast h
    roomIsr := fun h => absurd h ht3
    more := fun h => h.elim (absurd · ht2s) (absurd · ht3)
    finished := fun h => h.elim (absurd · ht1a) (absurd · ht1w) }

/-- A transmit section is in flight only while a write sleeps, is woken or spins. -/
theorem shared_of_label (hg : s.Good) (hp : isrMarkOf s.isr.phase = .inTx) : txShared s.tx.phase = true :=
  hg.transmit.section_ (hg.engine.mark.trans hp)

theorem IsrMove.keeps_transmit (hg : s.Good) (h : IsrMove s t) : TransmitGood t := by
  have htx := hg.transmit
  cases h
  case s1 hp =>
    refine htx.relabelIsr ?_ _ _ ?_ ?_ _ _ ?_ _
    · dsimp only
      split <;> decide
    · rfl
    · intro hmark
      cases hc : hasTx (pendingCause s) with
      | true => exact txShared_of_armed (htx.armed ((enabled_of_pendingCause hg.peripheral).2 hc))
      | false => exact htx.section_ (by simpa [hc] using hmark)
    · rfl
  case t1Done hp hc =>
    exact { htx with wakeOff := nofun, roomIsr := nofun, more := nofun
                     finished := fun _ => BitVec.eq_of_toNat_eq (le_antisymm htx.cursor hc) }
  case t1More hp hc => exact { htx with wakeOff := nofun, roomIsr := nofun, more := fun _ => hc, finished := nofun }
  case t1a hp =>
    exact { htx with
      armed := fun h => by simp at h
      doneOff := fun _ _ => by simp
      wakeOff := fun _ => by simp
      roomIsr := nofun, more := nofun, finished := fun _ => htx.finished (.inl hp) }
  case t1w hp =>
    have hshared := shared_of_label hg (by rw [hp]; rfl)
    exact { htx with
      cleared := fun h => by simp [show s.tx.phase = .w6 from h, txShared] at hshared
      doneOff := fun _ _ => htx.wakeOff hp
      wakeOff := nofun, roomIsr := nofun, more := nofun, finished := nofun
      done := fun _ _ => htx.finished (.inr hp) }
  case t2s hp =>
    have hmore := htx.more (.inl hp)
    have hfits := hg.peripheral.txFits
    by_cases hfull : s.per.txFifo.length = s.cfg.txDepth
    · rw [if_pos hfull]
      exact { htx with wakeOff := nofun, roomIsr := nofun, more := nofun, finished := nofun }
    · rw [if_neg hfull]
      exact { htx with
        wakeOff := nofun, roomIsr := fun _ => lt_of_le_of_ne hfits hfull, more := fun _ => hmore, finished := nofun }
  case t3 hp hroom =>
    have hshared := shared_of_label hg (by rw [hp]; rfl)
    have hmore := htx.more (.inr hp)
    have hunfinished : s.drv.txCursor ≠ s.drv.txPending.len := fun h => by simp [h] at hmore
    have hnext : (s.drv.txCursor + 1#32).toNat = s.drv.txCursor.toNat + 1 := by bv_omega
    exact { htx with
      wakeOff := by dsimp only; split <;> nofun
      roomFast := fun h => by simp [show s.tx.phase = .w1p from h, txShared] at hshared
      roomIsr := by dsimp only; split <;> nofun
      cursor := by dsimp only; omega
      more := by
        dsimp only
        split
        · nofun
        · next hlast => exact fun _ => succ_lt_of_ne hmore hlast
      finished := by dsimp only; split <;> nofun
      done := fun h hd => absurd (htx.done h hd) hunfinished
      woken := fun h hw => absurd (htx.woken h hw) hunfinished }
  case s0 hp =>
    refine htx.relabelIsr ?_ _ _ ?_ ?_ _ _ ?_ _
    · dsimp only
      split <;> decide
    · rfl
    · intro hmark
      cases hc : hasRx (pendingCause s) with
      | true => simp [hc] at hmark
      | false => exact htx.section_ (by simpa [hc] using hmark)
    · rfl
  case i7Last | t5 =>
    refine htx.relabelIsr ?_ _ _ ?_ ?_ _ _ ?_ _
    · dsimp only
      decide
    · rfl
    · nofun
    · rfl
  all_goals
    refine htx.relabelIsr ?_ _ _ ?_ ?_ _ _ ?_ _
    · dsimp only
      try split
      all_goals decide
    · rfl
    · exact htx.section_
    · rfl

theorem IsrMove.keeps_good (hg : s.Good) (h : IsrMove s t) : t.Good where
  cfgOk := by
    have hok := hg.cfgOk
    cases h
    all_goals exact hok
  peripheral := h.keeps_peripheral hg
  memory := h.keeps_memory hg
  ports := h.keeps_ports hg
  ring := h.keeps_ring hg
  reading := h.keeps_reading hg
  wake := h.keeps_wake hg
  engine := h.keeps_engine hg
  transmit := h.keeps_transmit hg

end
end Sys2Proof.Machine
end

