-- ==== Sys2Proof/Proofs/EveryStepKeepsGood.lean ====
section
/-!
PROOF. The host's accesses, the environment and reset keep the invariant; with the three sequencers, so does every step.
-/

namespace Sys2Proof.Machine

section
variable {s t : State}

/-! ### Registers of the host interface -/

/-- Only the clauses about the ports speak of the register window. -/
theorem State.Good.setRegs (hg : s.Good) {r : HostRegs} (hports : PortsGood (s.setRegs r)) : (s.setRegs r).Good where
  cfgOk := hg.cfgOk
  peripheral := { hg.peripheral with }
  memory := { hg.memory with }
  ports := hports
  ring := { hg.ring with }
  reading := { hg.reading with }
  wake := { hg.wake with }
  engine := { hg.engine with }
  transmit := { hg.transmit with }

/-- An operand register is not part of any port's handshake (R35). -/
theorem State.Good.writeOperand (hg : s.Good) (k : Nat) (v : Word) : (writeOperand s k v).Good := by
  rw [Machine.writeOperand.eq_def]
  split
  case h_7 => exact hg
  all_goals exact hg.setRegs { hg.ports with }

theorem State.Good.respondCfg (hg : s.Good) {w : Word} (hbusy : busyBit w = false) (htop : w.extractLsb' 17 15 = 0#15)
    (n : Word) : (s.setRegs { s.regs with cfRsp := w, cfN := n }).Good :=
  hg.setRegs { hg.ports with cfBusy := hbusy, cfTop := htop }

/-- A response on the idle RX port, which leaves it idle. -/
theorem PortsGood.answerRx (hports : PortsGood s) {w : Word} (hbusy : busyBit w = false) (htop : w.extractLsb' 17 15 = 0#15)
    (n : Word) {x : RxSeq} (hx : x.phase = .idle) :
    PortsGood { s with regs := { s.regs with rxRsp := w, rxN := n }, rx := x } :=
  { hports with
    rxBusy := ⟨fun h => absurd (hbusy.symm.trans h) Bool.false_ne_true, fun h => absurd hx h⟩
    rxRest := fun h => absurd hx h
    rxTop := htop
    rxLatch := by
      show rxRuns x.phase _ = true
      rw [hx]
      rfl }

theorem PortsGood.issueRx (hports : PortsGood s) {i : Instr} {first : RxPhase} (hi : RxIssue s i first) :
    PortsGood { s with
      regs := { s.regs with rxRsp := busyWord, rxN := 0#32 }
      rx := { s.rx with op := opcField (encode i), a0 := s.regs.rxA0, a1 := s.regs.rxA1, phase := first } } := by
  cases hi
  all_goals exact { hports with
    rxBusy := ⟨fun _ => nofun, fun _ => busyBit_busyWord⟩
    rxRest := fun _ => ⟨rfl, rfl⟩
    rxTop := topBits_busyWord
    rxLatch := by simp [latchedRx, rxRuns] }

theorem State.Good.answerRx (hg : s.Good) {w : Word} (hbusy : busyBit w = false)
    (htop : w.extractLsb' 17 15 = 0#15) (n : Word) {x : RxSeq} (hx : x.phase = .idle) :
    State.Good { s with regs := { s.regs with rxRsp := w, rxN := n }, rx := x } where
  cfgOk := hg.cfgOk
  peripheral := { hg.peripheral with }
  memory := { hg.memory with }
  ports := hg.ports.answerRx hbusy htop n hx
  ring := { hg.ring with
    phaseOn := by simp [hx, rxNeedsRing]
    release := by simp [hx]
    released := by simp [hx]
    snapshot := by simp [hx]
    taken := by simp [hx] }
  reading := { nonEmpty := by simp [hx, rxReading] }
  wake := .awake (by simp [hx, rxWaiting]) hg.wake.soundWindow
  engine := { hg.engine with }
  transmit := { hg.transmit with }

theorem State.Good.issueRx (hg : s.Good) {i : Instr} {first : RxPhase} (hi : RxIssue s i first) :
    State.Good { s with
      regs := { s.regs with rxRsp := busyWord, rxN := 0#32 }
      rx := { s.rx with op := opcField (encode i), a0 := s.regs.rxA0, a1 := s.regs.rxA1, phase := first } } where
  cfgOk := hg.cfgOk
  peripheral := { hg.peripheral with }
  memory := { hg.memory with }
  ports := hg.ports.issueRx hi
  ring := by
    have hring := hg.ring
    cases hi with
    | enable =>
      exact { hring with phaseOn := nofun, release := nofun, released := nofun, snapshot := nofun, taken := nofun }
    | disable =>
      exact { hring with phaseOn := nofun, release := nofun, released := nofun, snapshot := nofun, taken := nofun }
    | read hon _ =>
      exact { hring with phaseOn := fun _ => hon, release := nofun, released := nofun, snapshot := nofun, taken := nofun }
    | readByte hon =>
      exact { hring with phaseOn := fun _ => hon, release := nofun, released := nofun, snapshot := nofun, taken := nofun }
  reading := ⟨by
    cases hi with
    | enable => nofun
    | disable => nofun
    | read _ hlen => exact fun _ _ => hlen
    | readByte _ => simp [latchedRx]⟩
  wake := by
    cases hi
    all_goals exact .awake rfl hg.wake.soundWindow
  engine := { hg.engine with }
  transmit := { hg.transmit with }

theorem PortsGood.issueTx (hports : PortsGood s) {x : TxSeq} (hx : x.phase ≠ .idle)
    (hlatch : txRuns x.phase (decodeCmd .tx (formatH x.op x.imm)) = true) :
    PortsGood { s with regs := { s.regs with txRsp := busyWord, txN := 0#32 }, tx := x } :=
  { hports with
    txBusy := ⟨fun _ => hx, fun _ => busyBit_busyWord⟩
    txRest := fun _ => ⟨rfl, rfl⟩
    txTop := topBits_busyWord
    txLatch := hlatch }

/-- A change of the idle TX port alone. -/
theorem State.Good.setTxPort (hg : s.Good) {r : HostRegs} {x : TxSeq} (hports : PortsGood { s with regs := r, tx := x })
    (htx : TransmitGood { s with regs := r, tx := x }) : State.Good { s with regs := r, tx := x } where
  cfgOk := hg.cfgOk
  peripheral := { hg.peripheral with }
  memory := { hg.memory with }
  ports := hports
  ring := { hg.ring with }
  reading := { hg.reading with }
  wake := { hg.wake with }
  engine := { hg.engine with }
  transmit := htx

/-- With the TX port idle, no write command's clause is left to keep at a label outside the write commands. -/
theorem State.Good.transmit_outside (hg : s.Good) (hp : s.tx.phase = .idle) (r : HostRegs) {x : TxSeq}
    (hx : txWriting x.phase = false) : TransmitGood { s with regs := r, tx := x } :=
  have hw := hg.windowClosed (by simp [hp, txShared])
  .outside ⟨hw.enable, hw.mark, hw.label⟩ hx hg.transmit.cursor

theorem State.Good.answerTx (hg : s.Good) (hp : s.tx.phase = .idle) {w : Word} (hbusy : busyBit w = false)
    (htop : w.extractLsb' 17 15 = 0#15) (n : Word) {x : TxSeq} (hx : x.phase = .idle) :
    State.Good { s with regs := { s.regs with txRsp := w, txN := n }, tx := x } :=
  hg.setTxPort (hg.ports.respondTx hbusy htop n s.drv s.per s.pri x hx) (hg.transmit_outside hp _ (by rw [hx]; rfl))

theorem State.Good.issueTx (hg : s.Good) (hp : s.tx.phase = .idle) {i : Instr} {first : TxPhase} (hi : TxIssue i first) :
    State.Good { s with
      regs := { s.regs with txRsp := busyWord, txN := 0#32 }
      tx := { s.tx with
        op := opcField (encode i), imm := immField (encode i), a0 := s.regs.txA0, a1 := s.regs.txA1, phase := first } } := by
  cases hi
  all_goals exact hg.setTxPort (hg.ports.issueTx nofun (by simp [txRuns])) (hg.transmit_outside hp _ rfl)

/-- The length of the payload latched at issue is that of the command issued. -/
theorem IssuesWrite.latched {i : Instr} {len : Word} (hi : IssuesWrite i len s) {x : TxSeq} (hop : x.op = opcField (encode i))
    (himm : x.imm = immField (encode i)) (ha : x.a1 = s.regs.txA1) (r : HostRegs) :
    payloadLen { s with regs := r, tx := x } (latchedForm { s with regs := r, tx := x }) = len := by
  rcases hi with ⟨rfl, rfl⟩ | ⟨rfl, rfl⟩ | ⟨b, rfl, rfl⟩ <;>
    simp [latchedForm, latchedTx, hop, himm, formOf, payloadLen, ha]

theorem State.Good.issueWrite (hg : s.Good) (hp : s.tx.phase = .idle) {i : Instr} {len : Word} (hi : IssuesWrite i len s)
    (hlen : len ≠ 0#32) :
    State.Good { s with
      regs := { s.regs with txRsp := busyWord, txN := 0#32 }
      tx := { s.tx with
        op := opcField (encode i), imm := immField (encode i), a0 := s.regs.txA0, a1 := s.regs.txA1, i := 0#32
        phase := .w1s } } := by
  refine hg.setTxPort (hg.ports.issueTx nofun ?_) ?_
  · rcases hi with ⟨rfl, -⟩ | ⟨rfl, -⟩ | ⟨b, rfl, -⟩ <;> simp [txRuns, isWrite]
  · have hw := hg.windowClosed (by simp [hp, txShared])
    refine .closed ⟨hw.enable, hw.mark, hw.label⟩ rfl nofun nofun hg.transmit.cursor (fun _ => ?_) nofun nofun nofun nofun
    rw [hi.latched rfl rfl rfl]
    show 0 < len.toNat
    bv_omega

/-! ### The host's writes -/

theorem State.Good.setTimeouts (hg : s.Good) (a b : Word) :
    (s.setDrv { s.drv with readTimeout := a, writeTimeout := b }).Good where
  cfgOk := hg.cfgOk
  peripheral := { hg.peripheral with }
  memory := { hg.memory with }
  ports := { hg.ports with }
  ring := { hg.ring with }
  reading := { hg.reading with }
  wake := { hg.wake with }
  engine := { hg.engine with }
  transmit := { hg.transmit with }

theorem State.Good.takeStatus (hg : s.Good) : (s.setDrv { s.drv with errMask := 0#4 }).Good where
  cfgOk := hg.cfgOk
  peripheral := { hg.peripheral with
    noStatus := fun hno => ⟨(hg.peripheral.noStatus hno).1, rfl, (hg.peripheral.noStatus hno).2.2⟩ }
  memory := { hg.memory with }
  ports := { hg.ports with }
  ring := { hg.ring with }
  reading := { hg.reading with }
  wake := { hg.wake with }
  engine := { hg.engine with }
  transmit := { hg.transmit with }

theorem State.Good.setFormat (hg : s.Good) (f : BitVec 5) (n : BitVec 28) (req rsp : Word) :
    State.Good { s with per := { s.per with lcr := f, div := n }, pri := { s.pri with req := req, rsp := rsp } } where
  cfgOk := hg.cfgOk
  peripheral := { hg.peripheral with }
  memory := { hg.memory with }
  ports := { hg.ports with }
  ring := { hg.ring with }
  reading := { hg.reading with }
  wake := { hg.wake with }
  engine := { hg.engine with }
  transmit := { hg.transmit with }

theorem State.Good.service (hg : s.Good) (hp : s.isr.phase = .idle) :
    State.Good { s with regs := { s.regs with svRsp := busyWord }, isr := { s.isr with phase := .s0 } } where
  cfgOk := hg.cfgOk
  peripheral := { hg.peripheral with }
  memory := { hg.memory with }
  ports := { hg.ports with svBusy := fun _ => rfl, svIdle := nofun }
  ring := { hg.ring with candidate := nofun, stored := nofun }
  reading := { hg.reading with }
  wake := by
    refine hg.wake.relabelIsr ?_ ?_ s.drv ?_ _ _ _ _
    · rw [hp]
      decide
    · dsimp only
      decide
    · exact ⟨rfl, rfl, rfl, rfl⟩
  engine := { mark := hg.engine.mark.trans (by rw [hp]; rfl), loadable := nofun, more := nofun }
  transmit := by
    refine hg.transmit.relabelIsr ?_ _ s.drv ?_ ?_ _ s.per ?_ _
    · dsimp only
      decide
    · rfl
    · exact hg.transmit.section_
    · rfl

theorem HostMove.keeps_good (hg : s.Good) (h : HostMove s t) : t.Good := by
  cases h with
  | ignored => exact hg
  | operand k v => exact hg.writeOperand k v
  | waits e => exact hg.setEnv _
  | illegalCfg => exact hg.respondCfg rfl rfl _
  | illegalRx hp => exact hg.answerRx rfl rfl _ hp
  | illegalTx hp => exact hg.answerTx hp rfl rfl _ hp
  | illegalIsr hp =>
    exact hg.setRegs { hg.ports with svBusy := fun h => absurd hp h, svIdle := fun _ => .inr rfl }
  | configure f =>
    exact (hg.setFormat f (Config.baudDiv s.regs.cfA0) (0x7#4 ++ Config.baudDiv s.regs.cfA0) 0#32).respondCfg
      (w := 0#32) rfl rfl _
  | readTimeout => exact (hg.setTimeouts s.regs.cfA0 s.drv.writeTimeout).respondCfg (w := 0#32) rfl rfl _
  | writeTimeout => exact (hg.setTimeouts s.drv.readTimeout s.regs.cfA0).respondCfg (w := 0#32) rfl rfl _
  | status => exact hg.takeStatus.respondCfg (by simp) (by simp) _
  | len n => exact hg.respondCfg rfl rfl n
  | issueRx hp i first hi => exact hg.issueRx hi
  | readNothing hp => exact hg.answerRx rfl rfl _ rfl
  | issueTx hp i first hi => exact hg.issueTx hp hi
  | write hp i len hi hlen => exact hg.issueWrite hp hi hlen
  | writeNothing hp i => exact hg.answerTx hp rfl rfl _ rfl
  | service hp => exact hg.service hp

/-! ### The environment -/

theorem State.Good.memWrite (hg : s.Good) (a : Word) (b : Byte) : (memWrite s a b).Good where
  cfgOk := hg.cfgOk
  peripheral := { hg.peripheral with }
  memory := { hg.memory with host := memWrite_wf a b hg.memory.host }
  ports := { hg.ports with }
  ring := { hg.ring with }
  reading := { hg.reading with }
  wake := { hg.wake with }
  engine := { hg.engine with }
  transmit := { hg.transmit with }

theorem State.Good.tick (hg : s.Good) : (tick s).Good where
  cfgOk := hg.cfgOk
  peripheral := { hg.peripheral with }
  memory := { hg.memory with }
  ports := { hg.ports with }
  ring := { hg.ring with }
  reading := { hg.reading with }
  wake := { hg.wake with }
  engine := { hg.engine with }
  transmit := { hg.transmit with }

theorem State.Good.line (hg : s.Good) {p : Peripheral} (h : LineEffect s p) : (s.setPer p).Good := by
  obtain ⟨hreceived, hrxFits, -, htxShrinks, hflags, hrxTrig, htxTrig, hmask⟩ := h
  have hper := hg.peripheral
  exact {
    cfgOk := hg.cfgOk
    peripheral := { hper with
      maskIsIe := hmask.trans hper.maskIsIe
      rxTrig := (congrArg (rxLevelOk s.cfg) hrxTrig).trans hper.rxTrig
      txTrig := (congrArg (txLevelOk s.cfg) htxTrig).trans hper.txTrig
      rxFits := hrxFits hper.rxFits
      txFits := htxShrinks.trans hper.txFits
      noStatus := fun hno => ⟨(hflags hno).trans (hper.noStatus hno).1, (hper.noStatus hno).2⟩ }
    memory := { hg.memory with }
    ports := { hg.ports with }
    ring := { hg.ring with }
    reading := { hg.reading with }
    wake := { hg.wake with }
    engine := { hg.engine with
      loadable := fun h => hreceived (hg.engine.loadable h), more := fun h hm => hreceived (hg.engine.more h hm) }
    transmit := { hg.transmit with
      roomFast := fun h => htxShrinks.trans_lt (hg.transmit.roomFast h)
      roomIsr := fun h => htxShrinks.trans_lt (hg.transmit.roomIsr h) } }

/-! ### Reset -/

/-- Reset leaves the block as at power-up, whatever the peripheral holds (R380). -/
theorem State.Good.applyReset (hg : s.Good) : (applyReset s).Good where
  cfgOk := hg.cfgOk
  peripheral := { hg.peripheral with
    maskIsIe := rfl
    noStatus := fun hno => ⟨(hg.peripheral.noStatus hno).1, rfl, (by decide : hasSt 0#3 = false)⟩ }
  memory := { hg.memory with buf := rfl }
  ports := { resetIsGood.ports with }
  ring := { resetIsGood.ring with on := nofun }
  reading := { resetIsGood.reading with }
  wake := .awake rfl fun _ => nofun
  engine := { mark := rfl, loadable := nofun, more := fun h => absurd h Bool.false_ne_true }
  transmit := .outside ⟨(by decide : hasTx 0#3 = false), nofun, nofun⟩ rfl le_rfl

/-! ### Every step -/

theorem Move.keeps_good {e : Event} (hg : s.Good) (h : Move s e t) : t.Good := by
  cases h with
  | hostWrite off bytes v h => exact h.keeps_good hg
  | hostRead off bytes v => exact hg.setEnv _
  | memRead a v => exact hg.setEnv _
  | memWrite a b => exact hg.memWrite a b
  | reset => exact hg.applyReset
  | rxSeq ha h => exact h.keeps_good hg ha
  | txSeq ha h => exact h.keeps_good hg
  | isrSeq hf h => exact h.keeps_good hg
  | still e he => exact hg
  | tick => exact hg.tick
  | line e p h => exact hg.line h

end

/-- Settles O51. -/
theorem stepKeepsGood : Obligations.StepKeepsGood := fun _ _ hg h => (step_move hg h).keeps_good hg.takeEvent

end Sys2Proof.Machine
end

