-- ==== Sys2Proof/Proofs/WhoWrites.lean ====
section
/-!
PROOF. Over the rules of every step: which of them change the hand-off fields (R22 to R29, R348), the unread bytes (R132, R133),
the bytes sent (R225), and which raise `fatal` (R145, R341).
-/

namespace Sys2Proof.Machine

section
variable {s t : State} {e : Event}

/-! ### Steps that are not the block's -/

/-- An operand write leaves every response register as it is. -/
theorem writeOperand_eq_setRegs (s : State) (k : Nat) (v : Word) :
    ∃ r, writeOperand s k v = s.setRegs r ∧
      r.rxRsp = s.regs.rxRsp ∧ r.txRsp = s.regs.txRsp ∧ r.svRsp = s.regs.svRsp ∧ r.cfRsp = s.regs.cfRsp := by
  unfold writeOperand
  split
  case h_7 => exact ⟨s.regs, rfl, rfl, rfl, rfl, rfl⟩
  all_goals exact ⟨_, rfl, rfl, rfl, rfl, rfl⟩

/-- A step of a good state is a move of it with another schedule left (R43). -/
theorem step_move_setEnv (hg : s.Good) (h : step s = .next t) :
    ∃ x : Bench, x.resetNo = s.env.resetNo ∧ (s.setEnv x).Good ∧ Move (s.setEnv x) (nextEvent s) t := by
  have hmove := step_move hg h
  obtain ⟨inputs, eventNo, htake⟩ := takeEvent_cases s
  rw [htake] at hmove
  exact ⟨{ s.env with inputs := inputs, eventNo := eventNo }, rfl, hg.setEnv _, hmove⟩

/-! ### Fatal (R145, R341) -/

/-- The four steps that raise `fatal`, with what each of them writes. -/
theorem RxMove.fatal_cases (h : RxMove s t) (hf : s.drv.fatal = false) (ht : t.drv.fatal = true) :
    (s.rx.phase = .en1 ∧ s.drv.rxEnabled = true ∧ t.drv.fatalCause = 1#4) ∨
      (s.rx.phase = .en1 ∧ s.drv.rxEnabled = false ∧ s.rx.a0.toNat < 2 ∧ t.drv.fatalCause = 2#4) ∨
      (s.rx.phase = .en1 ∧ s.drv.rxEnabled = false ∧ s.cfg.capMax < s.rx.a0.toNat ∧ t.drv.fatalCause = 4#4) ∨
      (s.rx.phase = .p6 ∧ s.drv.nextWrite = s.drv.nextRead ∧ t.drv.fatalCause = 3#4) := by
  cases h
  case en1Enabled hp hon => exact .inl ⟨hp, hon, rfl⟩
  case en1Small hp hoff hlow => exact .inr (.inl ⟨hp, hoff, hlow, rfl⟩)
  case en1Large hp hoff hlow hhigh => exact .inr (.inr (.inl ⟨hp, hoff, hhigh, rfl⟩))
  case p6Empty hp he => exact .inr (.inr (.inr ⟨hp, he, rfl⟩))
  all_goals exact absurd (hf.symm.trans ht) Bool.false_ne_true

theorem TxMove.fatal_eq (h : TxMove s t) : t.drv.fatal = s.drv.fatal := by cases h <;> rfl

theorem IsrMove.fatal_eq (h : IsrMove s t) : t.drv.fatal = s.drv.fatal := by cases h <;> rfl

theorem HostMove.fatal_eq (h : HostMove s t) : t.drv.fatal = s.drv.fatal := by
  cases h
  case operand k v =>
    obtain ⟨r, hr, -⟩ := writeOperand_eq_setRegs s k v
    rw [hr]
    rfl
  all_goals rfl

/-- Only a step of the reader makes a run fatal. -/
theorem Move.fatal_cases (h : Move s e t) (hf : s.drv.fatal = false) (ht : t.drv.fatal = true) :
    e = .rxSeq ∧ RxMove s t := by
  cases h
  case hostWrite h => exact absurd (hf.symm.trans (h.fatal_eq.symm.trans ht)) Bool.false_ne_true
  case rxSeq h => exact ⟨rfl, h⟩
  case txSeq h => exact absurd (hf.symm.trans (h.fatal_eq.symm.trans ht)) Bool.false_ne_true
  case isrSeq h => exact absurd (hf.symm.trans (h.fatal_eq.symm.trans ht)) Bool.false_ne_true
  case reset => exact absurd ht Bool.false_ne_true
  all_goals exact absurd (hf.symm.trans ht) Bool.false_ne_true

/-- Settles O56: at P6 on an empty buffer the run is interleaved, for a reader that is woken finds data otherwise (R183). -/
theorem fatalHasItsCause : Obligations.FatalHasItsCause := by
  intro s t hg hf hstep ht
  obtain ⟨x, -, -, hmove⟩ := step_move_setEnv hg hstep
  obtain ⟨he, hrx⟩ := hmove.fatal_cases hf ht
  refine ⟨he, ?_⟩
  rcases hrx.fatal_cases hf ht with h | h | h | ⟨hp, hempty, hc⟩
  · exact .inl h
  · exact .inr (.inl h)
  · exact .inr (.inr (.inl h))
  · refine .inr (.inr (.inr ⟨hp, hempty, ?_, hc⟩))
    cases hi : s.cfg.isrPreempt with
    | interleaved => rfl
    | runToCompletion => exact absurd hempty (hg.wake.wokenData hi hp)

/-! ### The writers of the hand-off fields -/

/-- Each hand-off field stands but in the steps named (R22 to R29, R138, R267 (3), R348). -/
structure Writers (s : State) (e : Event) (t : State) : Prop where
  nextWrite : t.drv.nextWrite ≠ s.drv.nextWrite →
    (e = .isrSeq ∧ s.isr.phase = .i4) ∨ (e = .rxSeq ∧ (s.rx.phase = .en1 ∨ s.rx.phase = .dr3))
  nextRead : t.drv.nextRead ≠ s.drv.nextRead →
    e = .rxSeq ∧ (s.rx.phase = .adv ∨ s.rx.phase = .en1 ∨ s.rx.phase = .dr3)
  buf : t.buf ≠ s.buf → e = .isrSeq ∧ s.isr.phase = .i3
  isrState : t.drv.isrState ≠ s.drv.isrState → e = .isrSeq
  overflowSet : s.drv.overflow = false → t.drv.overflow = true → e = .isrSeq ∧ s.isr.phase = .i3f
  overflowClear : s.drv.overflow = true → t.drv.overflow = false →
    e = .rxSeq ∧ (s.rx.phase = .fin1 ∨ s.rx.phase = .en1 ∨ s.rx.phase = .dr3)
  rxWakeSet : s.drv.rxWake = false → t.drv.rxWake = true → e = .isrSeq ∧ s.isr.phase = .i6
  rxWakeClear : s.drv.rxWake = true → t.drv.rxWake = false → e = .rxSeq ∧ (s.rx.phase = .p2a ∨ s.rx.phase = .en1)
  txDoneSet : s.drv.txDone = false → t.drv.txDone = true → e = .isrSeq ∧ s.isr.phase = .t1w
  txDoneClear : s.drv.txDone = true → t.drv.txDone = false → e = .txSeq ∧ s.tx.phase = .w5
  requestSet : s.drv.rxWakeRequested = false → t.drv.rxWakeRequested = true → e = .rxSeq ∧ s.rx.phase = .p2b
  requestClear : s.drv.rxWakeRequested = true → t.drv.rxWakeRequested = false →
    (e = .isrSeq ∧ s.isr.phase = .i5) ∨
    (e = .rxSeq ∧ (s.rx.phase = .p3c ∨ s.rx.phase = .p5 ∨ s.rx.phase = .en1 ∨ s.rx.phase = .dr3))
  txPending : t.drv.txPending ≠ s.drv.txPending → e = .txSeq ∧ (s.tx.phase = .w3 ∨ s.tx.phase = .w10)
  txCursor : t.drv.txCursor ≠ s.drv.txCursor →
    (e = .isrSeq ∧ s.isr.phase = .t3) ∨
    (e = .txSeq ∧ (s.tx.phase = .w3 ∨ s.tx.phase = .w10) ∧ hasTx s.drv.ie = false ∧ s.drv.isrState ≠ .inTx)

theorem Writers.none (s : State) (e : Event) : Writers s e s where
  nextWrite := (absurd rfl ·)
  nextRead := (absurd rfl ·)
  buf := (absurd rfl ·)
  isrState := (absurd rfl ·)
  overflowSet h h' := absurd (h.symm.trans h') Bool.false_ne_true
  overflowClear h h' := absurd (h'.symm.trans h) Bool.false_ne_true
  rxWakeSet h h' := absurd (h.symm.trans h') Bool.false_ne_true
  rxWakeClear h h' := absurd (h'.symm.trans h) Bool.false_ne_true
  txDoneSet h h' := absurd (h.symm.trans h') Bool.false_ne_true
  txDoneClear h h' := absurd (h'.symm.trans h) Bool.false_ne_true
  requestSet h h' := absurd (h.symm.trans h') Bool.false_ne_true
  requestClear h h' := absurd (h'.symm.trans h) Bool.false_ne_true
  txPending := (absurd rfl ·)
  txCursor := (absurd rfl ·)

theorem RxMove.writers (h : RxMove s t) : Writers s .rxSeq t := by
  have none := Writers.none s .rxSeq
  cases h
  case en1 hp _ _ _ =>
    exact { none with
      nextWrite := fun _ => .inr ⟨rfl, .inl hp⟩, nextRead := fun _ => ⟨rfl, .inr (.inl hp)⟩, overflowSet := nofun
      overflowClear := fun _ _ => ⟨rfl, .inr (.inl hp)⟩, rxWakeSet := nofun, rxWakeClear := fun _ _ => ⟨rfl, .inr hp⟩
      requestSet := nofun, requestClear := fun _ _ => .inr ⟨rfl, .inr (.inr (.inl hp))⟩ }
  case dr3 hp =>
    exact { none with
      nextWrite := fun _ => .inr ⟨rfl, .inr hp⟩, nextRead := fun _ => ⟨rfl, .inr (.inr hp)⟩, overflowSet := nofun
      overflowClear := fun _ _ => ⟨rfl, .inr (.inr hp)⟩
      requestSet := nofun, requestClear := fun _ _ => .inr ⟨rfl, .inr (.inr (.inr hp))⟩ }
  case p2a hp => exact { none with rxWakeSet := nofun, rxWakeClear := fun _ _ => ⟨rfl, .inl hp⟩ }
  case p2b hp => exact { none with requestSet := fun _ _ => ⟨rfl, hp⟩, requestClear := nofun }
  case p3c hp => exact { none with requestSet := nofun, requestClear := fun _ _ => .inr ⟨rfl, .inl hp⟩ }
  case p5Timeout hp _ => exact { none with requestSet := nofun, requestClear := fun _ _ => .inr ⟨rfl, .inr (.inl hp)⟩ }
  case adv hp => exact { none with nextRead := fun _ => ⟨rfl, .inl hp⟩ }
  case fin1 hp => exact { none with overflowSet := nofun, overflowClear := fun _ _ => ⟨rfl, .inl hp⟩ }
  all_goals exact { none with }

theorem TxMove.writers (hg : s.Good) (h : TxMove s t) : Writers s .txSeq t := by
  have none := Writers.none s .txSeq
  cases h
  case w3 hp =>
    have hw := hg.windowClosed (by rw [hp]; rfl)
    exact { none with
      txPending := fun _ => ⟨rfl, .inl hp⟩, txCursor := fun _ => .inr ⟨rfl, .inl hp, hw.enable, hw.mark⟩ }
  case w10 hp =>
    have hw := hg.windowClosed (by rw [hp]; rfl)
    exact { none with
      txPending := fun _ => ⟨rfl, .inr hp⟩, txCursor := fun _ => .inr ⟨rfl, .inr hp, hw.enable, hw.mark⟩ }
  case w5 hp => exact { none with txDoneSet := nofun, txDoneClear := fun _ _ => ⟨rfl, hp⟩ }
  all_goals exact { none with }

theorem IsrMove.writers (h : IsrMove s t) : Writers s .isrSeq t := by
  have none := Writers.none s .isrSeq
  cases h
  case s0 => exact { none with isrState := fun _ => rfl }
  case s1 => exact { none with isrState := fun _ => rfl }
  case i7Last => exact { none with isrState := fun _ => rfl }
  case t5 => exact { none with isrState := fun _ => rfl }
  case i3 hp _ => exact { none with buf := fun _ => ⟨rfl, hp⟩ }
  case i3f hp => exact { none with overflowSet := fun _ _ => ⟨rfl, hp⟩, overflowClear := nofun }
  case i4 hp => exact { none with nextWrite := fun _ => .inl ⟨rfl, hp⟩ }
  case i5 hp => exact { none with requestSet := nofun, requestClear := fun _ _ => .inl ⟨rfl, hp⟩ }
  case i6 hp => exact { none with rxWakeSet := fun _ _ => ⟨rfl, hp⟩, rxWakeClear := nofun }
  case t1w hp => exact { none with txDoneSet := fun _ _ => ⟨rfl, hp⟩, txDoneClear := nofun }
  case t3 hp _ => exact { none with txCursor := fun _ => .inl ⟨rfl, hp⟩ }
  all_goals exact { none with }

theorem HostMove.writers (h : HostMove s t) : Writers s e t := by
  have none := Writers.none s e
  cases h
  case operand k v =>
    obtain ⟨r, hr, -⟩ := writeOperand_eq_setRegs s k v
    rw [hr]
    exact { none with }
  all_goals exact { none with }

theorem Move.writers (hg : s.Good) (h : Move s e t) (he : e ≠ .reset) : Writers s e t := by
  have none := Writers.none s e
  cases h
  case hostWrite h => exact h.writers
  case reset => exact absurd rfl he
  case rxSeq h => exact h.writers
  case txSeq h => exact h.writers hg
  case isrSeq h => exact h.writers
  all_goals exact { none with }

/-- Settles O58. -/
theorem sharedStateHasItsWriters : Obligations.SharedStateHasItsWriters := by
  intro s t hg hstep he
  obtain ⟨x, -, hgood, hmove⟩ := step_move_setEnv hg hstep
  have h := hmove.writers hgood he
  exact ⟨h.nextWrite, h.nextRead, h.buf, h.isrState, h.overflowSet, h.overflowClear, h.rxWakeSet, h.rxWakeClear, h.txDoneSet,
    h.txDoneClear, h.requestSet, h.requestClear, h.txPending, h.txCursor⟩

end
end Sys2Proof.Machine
end

