-- ==== Sys2Proof/Proofs/BytesInOrder.lean ====
section
/-!
PROOF. The bytes in both directions over every step: the unread bytes are a queue (R132, R133, R184), and what is sent grows by
the payload, byte by byte (R144, R225).
-/

namespace Sys2Proof.Machine

section
variable {s t : State} {e : Event}

/-! ### The unread bytes -/

theorem ringContents_empty (h : s.drv.nextWrite = s.drv.nextRead) : ringContents s = [] := by
  rw [ringContents, unread, h, ringLen_self]
  rfl

@[simp] theorem ringContents_length (s : State) : (ringContents s).length = unread s := by simp [ringContents]

@[simp] theorem ringContents_getElem (s : State) (k : Nat) (h : k < (ringContents s).length) :
    (ringContents s)[k] = bufSlot s (slotAt s.drv.cap s.drv.nextRead k) := by simp [ringContents]

/-- The unread bytes are those of the indices, `Buf` and its free contents. -/
theorem ringContents_congr (hcap : t.drv.cap = s.drv.cap) (hread : t.drv.nextRead = s.drv.nextRead)
    (hwrite : t.drv.nextWrite = s.drv.nextWrite) (hbuf : ∀ k, k < unread s →
      bufSlot t (slotAt s.drv.cap s.drv.nextRead k) = bufSlot s (slotAt s.drv.cap s.drv.nextRead k)) :
    ringContents t = ringContents s := by
  have hlen : unread t = unread s := by rw [unread, hcap, hread, hwrite, unread]
  rw [ringContents, ringContents, hlen, hcap, hread]
  exact List.map_congr_left fun k hk => hbuf k (List.mem_range.mp hk)

/-- A dequeue of `n` unread bytes drops the oldest `n` (R133). -/
theorem ringContents_dequeue {n : Nat} (h2 : 2 ≤ s.drv.cap.toNat) (hr : s.drv.nextRead.toNat < s.drv.cap.toNat)
    (hw : s.drv.nextWrite.toNat < s.drv.cap.toNat) (hn : n ≤ unread s)
    (hdrv : t.drv = { s.drv with nextRead := idxAdd s.drv.cap s.drv.nextRead n }) (hbuf : ∀ j, bufSlot t j = bufSlot s j) :
    ringContents t = (ringContents s).drop n := by
  have hlen : unread t = unread s - n := by
    rw [unread, hdrv]
    exact ringLen_idxAdd h2 hr hw hn
  have hcap : n < s.drv.cap.toNat := hn.trans_lt (ringLen_lt h2 hr hw)
  refine List.ext_getElem (by simp [hlen]) fun k hk hk' => ?_
  rw [List.getElem_drop, ringContents_getElem, ringContents_getElem, hbuf, hdrv]
  exact congrArg (bufSlot s) (slotAt_idxAdd hr hcap)

theorem RxMove.ringContents_cases (hg : s.Good) (h : RxMove s t) :
    ringContents t = ringContents s ∨
    (s.rx.phase = .adv ∧ 1 ≤ s.rx.rdN.toNat ∧ ringContents t = (ringContents s).drop s.rx.rdN.toNat) ∨
    ((s.rx.phase = .en1 ∨ s.rx.phase = .dr3) ∧ ringContents t = []) := by
  cases h
  case en1 hp _ _ _ => exact .inr (.inr ⟨.inl hp, ringContents_empty rfl⟩)
  case dr3 hp => exact .inr (.inr ⟨.inr hp, ringContents_empty rfl⟩)
  case adv hp =>
    obtain ⟨h2, -, hr, hw⟩ := hg.ring.inside (by rw [hp]; rfl)
    obtain ⟨hone, hle⟩ := hg.ring.taken hp
    exact .inr (.inl ⟨hp, hone, ringContents_dequeue h2 hr hw hle rfl fun _ => rfl⟩)
  all_goals exact .inl rfl

theorem TxMove.ringContents_eq (h : TxMove s t) : ringContents t = ringContents s := by
  cases h
  all_goals rfl

/-- I3 writes a slot that is not among the unread ones; I4 makes it the last of them (R132). -/
theorem IsrMove.ringContents_cases (hg : s.Good) (h : IsrMove s t) :
    ringContents t = ringContents s ∨ (s.isr.phase = .i4 ∧ ringContents t = ringContents s ++ [s.isr.byte]) := by
  cases h
  case i3 hp _ =>
    obtain ⟨h2, -, hr, hw⟩ := hg.ring.on (enabled_in_section hg (by rw [hp]; rfl))
    refine .inl (ringContents_congr rfl rfl rfl fun k hk => ?_)
    exact (bufSlot_put _ _ _ _).trans (if_neg (slotAt_ne_nextWrite h2 hr hw hk))
  case i4 hp =>
    obtain ⟨h2, -, hr, hw⟩ := hg.ring.on (enabled_in_section hg (by rw [hp]; rfl))
    obtain ⟨hnext, hne⟩ := hg.ring.candidate (.inr hp)
    refine .inr ⟨hp, ringContents_enqueue h2 hr hw (hnext ▸ hne) (by rw [hnext]) fun j => ?_⟩
    show bufSlot s j = _
    split
    · next hj => rw [hj, bufSlot, hg.ring.stored hp, Option.getD_some]
    · rfl
  all_goals exact .inl rfl

theorem HostMove.ringContents_eq (h : HostMove s t) : ringContents t = ringContents s := by
  cases h
  case operand k v =>
    obtain ⟨r, hr, -⟩ := writeOperand_eq_setRegs s k v
    rw [hr]
    rfl
  all_goals rfl

theorem Move.ringContents_cases (hg : s.Good) (h : Move s e t) :
    ringContents t = ringContents s ∨
    (e = .isrSeq ∧ s.isr.phase = .i4 ∧ ringContents t = ringContents s ++ [s.isr.byte]) ∨
    (e = .rxSeq ∧ s.rx.phase = .adv ∧ 1 ≤ s.rx.rdN.toNat ∧ ringContents t = (ringContents s).drop s.rx.rdN.toNat) ∨
    (((e = .rxSeq ∧ (s.rx.phase = .en1 ∨ s.rx.phase = .dr3)) ∨ e = .reset) ∧ ringContents t = []) := by
  cases h
  case hostWrite h => exact .inl h.ringContents_eq
  case reset => exact .inr (.inr (.inr ⟨.inr rfl, ringContents_empty rfl⟩))
  case rxSeq h =>
    rcases h.ringContents_cases hg with h | h | ⟨hp, h⟩
    · exact .inl h
    · exact .inr (.inr (.inl ⟨rfl, h⟩))
    · exact .inr (.inr (.inr ⟨.inl ⟨rfl, hp⟩, h⟩))
  case txSeq h => exact .inl h.ringContents_eq
  case isrSeq h =>
    rcases h.ringContents_cases hg with h | h
    · exact .inl h
    · exact .inr (.inl ⟨rfl, h⟩)
  all_goals exact .inl rfl

/-- The free contents of `Buf` are those of the last reset, so that another schedule leaves the ring as it is. -/
theorem ringContents_setEnv {x : Bench} (hx : x.resetNo = s.env.resetNo) : ringContents (s.setEnv x) = ringContents s :=
  ringContents_congr rfl rfl rfl fun _ _ => by simp [bufSlot, hx]

/-- Settles O53. -/
theorem ringIsAQueue : Obligations.RingIsAQueue := by
  intro s t hg hstep
  obtain ⟨x, hx, hgood, hmove⟩ := step_move_setEnv hg hstep
  have h := hmove.ringContents_cases hgood
  rw [ringContents_setEnv hx] at h
  exact h

/-! ### The bytes sent -/

/-- What a step does to the bytes sent: nothing, or it sends the next payload byte of the write in flight (R225). -/
def SendsInOrder (s t : State) : Prop :=
  (t.per.wire ++ t.per.txFifo = s.per.wire ++ s.per.txFifo ∧
    (txWriting s.tx.phase = true → txWriting t.tx.phase = true → pushed t = pushed s)) ∨
  (txWriting s.tx.phase = true ∧ pushed s < (payloadLen s (latchedForm s)).toNat ∧ pushed t = pushed s + 1 ∧
    t.per.wire ++ t.per.txFifo = s.per.wire ++ s.per.txFifo ++ [payloadAt s (latchedForm s) (pushed s)])

/-- A step that touches neither the wire nor the FIFO, nor the writer's label and its two counts. -/
theorem SendsInOrder.still (hfifo : t.per.wire ++ t.per.txFifo = s.per.wire ++ s.per.txFifo)
    (hpushed : pushed t = pushed s) : SendsInOrder s t := .inl ⟨hfifo, fun _ _ => hpushed⟩

theorem pushed_filling (h : txStaged s.tx.phase = false) : pushed s = s.tx.i.toNat := by simp [pushed, h]

theorem pushed_staged (h : txStaged s.tx.phase = true) : pushed s = s.tx.i.toNat + s.drv.txCursor.toNat := by
  simp [pushed, h]

/-- The next byte of the fast path is the next of the payload (R144, R213). -/
theorem SendsInOrder.fast (hg : s.Good) (hp : s.tx.phase = .w1p) (hfifo : t.per.wire = s.per.wire ∧
    t.per.txFifo = s.per.txFifo ++ [payloadByte s (latchedForm s)])
    (ht : txStaged t.tx.phase = false) (hi : t.tx.i = s.tx.i + 1#32) : SendsInOrder s t := by
  obtain ⟨hwire, hfifo⟩ := hfifo
  have hfill := hg.transmit.filling (by rw [hp]; rfl)
  have hs := pushed_filling (s := s) (by rw [hp]; rfl)
  refine .inr ⟨by rw [hp]; rfl, hs ▸ hfill, ?_, ?_⟩
  · rw [pushed_filling ht, hs, hi]
    have := (payloadLen s (latchedForm s)).isLt
    bv_omega
  · rw [hs, hwire, hfifo, ← payloadByte_eq_payloadAt, List.append_assoc]

/-- The remainder's bytes follow those of the fast path (R144, R214, R223). -/
theorem payload_eq_payloadAt (hg : s.Good) (hp : txStaged s.tx.phase = true) :
    payload s s.drv.txCursor = payloadAt s (latchedForm s) (pushed s) := by
  have hdesc := hg.transmit.described hp
  rw [pushed_staged hp, payload, hdesc]
  cases hform : latchedForm s with
  | memory =>
    refine congrArg (memRead s) ?_
    show s.tx.a0 + s.tx.i + s.drv.txCursor = _
    bv_omega
  | immediate => exact hg.transmit.kept hp hform

theorem TxMove.sendsInOrder (hg : s.Good) (h : TxMove s t) : SendsInOrder s t := by
  cases h
  case w1pMore hp _ _ => exact .fast hg hp ⟨rfl, rfl⟩ rfl rfl
  case w1pLast hp _ _ => exact .fast hg hp ⟨rfl, rfl⟩ rfl rfl
  case w1s hp =>
    refine .still rfl ?_
    rw [pushed_filling (s := s) (by rw [hp]; rfl), pushed_filling]
    dsimp only
    split <;> rfl
  case w3 hp => exact .still rfl (pushed_filling (s := s) (by rw [hp]; rfl)).symm
  case w7lHold => exact .still rfl rfl
  case w9Hold => exact .still rfl rfl
  case dt2Hold => exact .still rfl rfl
  case fl2Hold => exact .still rfl rfl
  all_goals
    have hp := ‹s.tx.phase = _›
    refine .inl ⟨rfl, fun hs ht => ?_⟩
    simp [pushed, hp, txWriting, txStaged] at hs ht ⊢

theorem txStaged_of_shared {p : TxPhase} : txShared p = true → txStaged p = true := by
  cases p <;> decide

theorem txWriting_of_shared {p : TxPhase} : txShared p = true → txWriting p = true := by
  cases p <;> decide

theorem IsrMove.sendsInOrder (hg : s.Good) (h : IsrMove s t) : SendsInOrder s t := by
  cases h
  case t3 hp _ =>
    have hshared := shared_of_label hg (by rw [hp]; rfl)
    have hstaged := txStaged_of_shared hshared
    have hmore := hg.transmit.more (.inr hp)
    have hlen := hg.transmit.staged hstaged
    refine .inr ⟨txWriting_of_shared hshared, ?_, ?_, ?_⟩
    · rw [pushed_staged hstaged]
      omega
    · rw [pushed_staged (s := s) hstaged, pushed_staged]
      · show s.tx.i.toNat + (s.drv.txCursor + 1#32).toNat = _
        bv_omega
      · exact hstaged
    · show s.per.wire ++ (s.per.txFifo ++ [payload s s.drv.txCursor]) = _
      rw [payload_eq_payloadAt hg hstaged, List.append_assoc]
  all_goals exact .still rfl rfl

theorem HostMove.sendsInOrder (h : HostMove s t) : SendsInOrder s t := by
  cases h
  case operand k v =>
    obtain ⟨r, hr, -⟩ := writeOperand_eq_setRegs s k v
    rw [hr]
    exact .still rfl rfl
  case issueTx hp i first hi => exact .inl ⟨rfl, fun h => by simp [hp, txWriting] at h⟩
  case write hp _ _ _ _ => exact .inl ⟨rfl, fun h => by simp [hp, txWriting] at h⟩
  case writeNothing hp _ => exact .inl ⟨rfl, fun h => by simp [hp, txWriting] at h⟩
  all_goals exact .still rfl rfl

theorem Move.sendsInOrder (hg : s.Good) (h : Move s e t) : SendsInOrder s t := by
  cases h
  case hostWrite h => exact h.sendsInOrder
  case reset => exact .inl ⟨rfl, fun _ => nofun⟩
  case rxSeq h =>
    cases h
    all_goals exact .still rfl rfl
  case txSeq h => exact h.sendsInOrder hg
  case isrSeq h => exact h.sendsInOrder hg
  case line p h => exact .still h.sent rfl
  all_goals exact .still rfl rfl

/-- Settles O54. -/
theorem transmitKeepsSubmissionOrder : Obligations.TransmitKeepsSubmissionOrder := by
  intro s t hg hstep
  obtain ⟨x, -, hgood, hmove⟩ := step_move_setEnv hg hstep
  have h := hmove.sendsInOrder hgood
  exact h

end
end Sys2Proof.Machine
end

