-- ==== Sys2Proof/Proofs/OperandsAndMemory.lean ====
section
/-!
PROOF. What a step does not read: other contents of the four operand registers of the RX and TX ports and of host memory are
carried through a step unread (R82, R101, R225, U2), but where a command is issued (R114) or a payload fetched (R144).
-/

namespace Sys2Proof.Machine

/-- A change of the operand registers of the RX and TX ports and of host memory. -/
structure Overlay where
  rxA0 : Word → Word := id
  rxA1 : Word → Word := id
  txA0 : Word → Word := id
  txA1 : Word → Word := id
  mem : Memory → Memory := id

/-- The state with the change made. -/
def Overlay.on (o : Overlay) (s : State) : State :=
  { s with
    regs := { s.regs with
      rxA0 := o.rxA0 s.regs.rxA0, rxA1 := o.rxA1 s.regs.rxA1, txA0 := o.txA0 s.regs.txA0, txA1 := o.txA1 s.regs.txA1 }
    hostMem := o.mem s.hostMem }

/-- The same change, made after a step. -/
def Overlay.after (o : Overlay) : Result → Result
  | .next t => .next (o.on t)
  | .fault r => .fault r
  | .refused r => .refused r

section
variable (o : Overlay) (s : State)

theorem Overlay.on_rx : (o.on s).rx = s.rx := rfl

theorem Overlay.on_tx : (o.on s).tx = s.tx := rfl

theorem Overlay.on_isr : (o.on s).isr = s.isr := rfl

theorem appStep_overlay (k : Result) : appStep (o.on s) (o.after k) = o.after (appStep s k) := by
  rw [appStep.eq_def s, apply_ite o.after]
  rfl

theorem liveStep_overlay (k : Result) : liveStep (o.on s) (o.after k) = o.after (liveStep s k) := by
  rw [liveStep.eq_def s, apply_ite o.after]
  rfl

/-! ### The requests of the PRI that can be refused -/

theorem priSetRxTrig_overlay (n : BitVec 8) : priSetRxTrig (o.on s) n = (priSetRxTrig s n).map o.on := by
  rw [priSetRxTrig.eq_def s, apply_ite (Option.map o.on)]
  rfl

theorem priSetTxTrig_overlay (n : BitVec 8) : priSetTxTrig (o.on s) n = (priSetTxTrig s n).map o.on := by
  rw [priSetTxTrig.eq_def s, apply_ite (Option.map o.on)]
  rfl

theorem priStore_overlay (b : Byte) : priStore (o.on s) b = (priStore s b).map o.on := by
  rw [priStore.eq_def s, apply_ite (Option.map o.on)]
  rfl

/-! ### The labels of RXSEQ -/

theorem rxEN1_overlay : rxEN1 (o.on s) = o.after (rxEN1 s) := by
  unfold rxEN1
  simp only [apply_ite o.after]
  rw [show rxEnable (o.on s) = o.on (rxEnable s) from rfl, priSetRxTrig_overlay, show (o.on s).cfg = s.cfg from rfl]
  cases priSetRxTrig (rxEnable s) (BitVec.ofNat 8 s.cfg.rxTrig) <;> rfl

theorem rxDR1_overlay : rxDR1 (o.on s) = o.after (rxDR1 s) := by
  rw [rxDR1.eq_def s, apply_ite o.after]
  rfl

theorem rxDR2_overlay : rxDR2 (o.on s) = o.after (rxDR2 s) := by
  rw [rxDR2.eq_def s, apply_ite o.after]
  rfl

theorem rxP1_overlay : rxP1 (o.on s) = o.after (rxP1 s) := by
  rw [rxP1.eq_def s, apply_ite o.after]
  rfl

theorem rxP3_overlay : rxP3 (o.on s) = o.after (rxP3 s) := by
  rw [rxP3.eq_def s, apply_ite o.after]
  rfl

theorem rxP4L_overlay : rxP4L (o.on s) = o.after (rxP4L s) := by
  rw [rxP4L.eq_def s, apply_ite o.after]
  rfl

theorem rxP5_overlay : rxP5 (o.on s) = o.after (rxP5 s) := by
  rw [rxP5.eq_def s, apply_ite o.after]
  rfl

theorem rxP5L_overlay : rxP5L (o.on s) = o.after (rxP5L s) := by
  rw [rxP5L.eq_def s, apply_ite o.after]
  rfl

theorem rxP6_overlay : rxP6 (o.on s) = o.after (rxP6 s) := by
  rw [rxP6.eq_def s, apply_ite o.after]
  rfl

theorem rxCopyByte_overlay : rxCopyByte (o.on s) = o.after (rxCopyByte s) := by
  rw [rxCopyByte.eq_def s]
  unfold rxCopyByte
  rw [show bufGet (o.on s) (o.on s).drv.nextRead.toNat = bufGet s s.drv.nextRead.toNat from rfl]
  cases bufGet s s.drv.nextRead.toNat <;> rfl

theorem rxShared_overlay (b : Byte) : rxShared b (o.on s) = o.after (rxShared b s) := by
  simp only [rxShared, Overlay.on_rx]
  split
  case h_1 => exact rxP1_overlay o s
  case h_4 => exact rxP3_overlay o s
  case h_7 => exact rxP4L_overlay o s
  case h_8 => exact rxP5_overlay o s
  case h_10 => exact rxP5L_overlay o s
  case h_11 => exact rxP6_overlay o s
  all_goals rfl

/-- COPY writes host memory, and reads only the ring (R180). -/
theorem copyBytes_overlay (hmem : o.mem = id) (n k : Nat) : copyBytes n k (o.on s) = (copyBytes n k s).map o.on := by
  induction n generalizing k s with
  | zero => rfl
  | succ n ih =>
    have hwrite : ∀ (a : Word) (b : Byte), memWrite (o.on s) a b = o.on (memWrite s a b) := fun a b => by
      simp [memWrite, Overlay.on, State.setHostMem, hmem]
    simp only [copyBytes]
    rw [show bufGet (o.on s) (slotAt (o.on s).drv.cap (o.on s).drv.nextRead k) =
      bufGet s (slotAt s.drv.cap s.drv.nextRead k) from rfl]
    cases bufGet s (slotAt s.drv.cap s.drv.nextRead k) with
    | none => rfl
    | some b =>
      show copyBytes n (k + 1) (memWrite (o.on s) (s.rx.a0 + BitVec.ofNat 32 k) b) = _
      rw [hwrite, ih]

theorem rxCopy_overlay (hmem : o.mem = id) : rxCopy (o.on s) = o.after (rxCopy s) := by
  unfold rxCopy
  rw [copyBytes_overlay o s hmem, show copyCount (o.on s) = copyCount s from rfl]
  cases copyBytes (copyCount s) 0 s <;> rfl

theorem rxStep_overlay (hbusy : s.rx.phase ≠ .idle) {a b w x : Result} (hwork : x = o.after w) :
    rxStep (o.on s) a x = o.after (rxStep s b w) := by
  rw [rxStep_busy _ _ hbusy, rxStep_busy (s := o.on s) _ _ hbusy, hwork, appStep_overlay]

/-- A step of RXSEQ does not read the operand registers, nor host memory (R101). -/
theorem exec_rx_overlay {i : Instr} (hi : i.port = some .rx) (hbusy : s.rx.phase ≠ .idle)
    (hcopy : i = .read → s.rx.phase = .copy → o.mem = id) : exec i (o.on s) = o.after (exec i s) := by
  cases i <;> cases hi
  case enableRx =>
    refine rxStep_overlay o s hbusy ?_
    simp only [Overlay.on_rx]
    split
    case h_1 => exact rxEN1_overlay o s
    all_goals rfl
  case disableRx =>
    refine rxStep_overlay o s hbusy ?_
    simp only [Overlay.on_rx]
    split
    case h_1 => exact rxDR1_overlay o s
    case h_2 => exact rxDR2_overlay o s
    all_goals rfl
  case read =>
    refine rxStep_overlay o s hbusy ?_
    simp only [Overlay.on_rx]
    split
    case h_1 hp => exact rxCopy_overlay o s (hcopy rfl hp)
    case h_2 => exact rxShared_overlay o s _
  case readByte =>
    refine rxStep_overlay o s hbusy ?_
    simp only [Overlay.on_rx]
    split
    case h_1 => exact rxCopyByte_overlay o s
    case h_2 => exact rxShared_overlay o s _

/-! ### The labels of TXSEQ -/

theorem txDT1_overlay : txDT1 (o.on s) = o.after (txDT1 s) := by
  rw [txDT1.eq_def s, apply_ite o.after]
  rfl

theorem txDT2_overlay : txDT2 (o.on s) = o.after (txDT2 s) := by
  rw [txDT2.eq_def s, apply_ite o.after]
  rfl

theorem txFL2_overlay : txFL2 (o.on s) = o.after (txFL2 s) := by
  rw [txFL2.eq_def s, apply_ite o.after]
  rfl

theorem txW7L_overlay : txW7L (o.on s) = o.after (txW7L s) := by
  rw [txW7L.eq_def s, apply_ite o.after]
  rfl

theorem txW9_overlay : txW9 (o.on s) = o.after (txW9 s) := by
  rw [txW9.eq_def s, apply_ite o.after]
  rfl

theorem txW4_overlay (form : PayloadForm) : txW4 form (o.on s) = o.after (txW4 form s) := by
  have hlen : payloadLen (o.on s) form = payloadLen s form := by cases form <;> rfl
  unfold txW4
  rw [priSetTxTrig_overlay, hlen, Overlay.on_tx, show ∀ n, txLevel (o.on s) n = txLevel s n from fun _ => rfl]
  cases priSetTxTrig s (txLevel s ((payloadLen s form).toNat - s.tx.i.toNat)) <;> rfl

/-- The fast path fetches the payload from host memory at the latched address (R144). -/
theorem txW1P_overlay (hmem : o.mem = id) (form : PayloadForm) : txW1P form (o.on s) = o.after (txW1P form s) := by
  have hlen : payloadLen (o.on s) form = payloadLen s form := by cases form <;> rfl
  have hbyte : payloadByte (o.on s) form = payloadByte s form := by
    cases form with
    | memory => simp [payloadByte, memRead, Overlay.on, hmem]
    | immediate => rfl
  unfold txW1P
  rw [priStore_overlay, hlen, hbyte, Overlay.on_tx]
  cases priStore s (payloadByte s form) with
  | none => rfl
  | some t =>
    simp only [apply_ite o.after]
    rfl

theorem txWriteStep_overlay (hmem : txWriting s.tx.phase = true → o.mem = id) (form : PayloadForm) :
    txWriteStep form (o.on s) = o.after (txWriteStep form s) := by
  simp only [txWriteStep, Overlay.on_tx]
  split
  case h_2 hp => exact txW1P_overlay o s (hmem (by rw [hp]; rfl)) form
  case h_3 => cases form <;> rfl
  case h_4 => exact txW4_overlay o s form
  case h_8 => exact txW7L_overlay o s
  case h_10 => exact txW9_overlay o s
  all_goals rfl

theorem txStep_overlay (hbusy : s.tx.phase ≠ .idle) {a b w x : Result} (hwork : x = o.after w) :
    txStep (o.on s) a x = o.after (txStep s b w) := by
  rw [txStep_busy _ _ hbusy, txStep_busy (s := o.on s) _ _ hbusy, hwork, appStep_overlay]

/-- A step of TXSEQ reads no operand register, and host memory only for a write command's payload (R101, R225). -/
theorem exec_tx_overlay {i : Instr} (hi : i.port = some .tx) (hbusy : s.tx.phase ≠ .idle)
    (hmem : txWriting s.tx.phase = true → o.mem = id) : exec i (o.on s) = o.after (exec i s) := by
  cases i <;> cases hi
  case enableTx =>
    refine txStep_overlay o s hbusy ?_
    simp only [Overlay.on_tx]
    split <;> rfl
  case disableTx =>
    refine txStep_overlay o s hbusy ?_
    simp only [Overlay.on_tx]
    split
    case h_1 => exact txDT1_overlay o s
    case h_2 => exact txDT2_overlay o s
    all_goals rfl
  case write => exact txStep_overlay o s hbusy (txWriteStep_overlay o s hmem _)
  case writeString => exact txStep_overlay o s hbusy (txWriteStep_overlay o s hmem _)
  case writeByte b => exact txStep_overlay o s hbusy (txWriteStep_overlay o s hmem _)
  case flush =>
    refine txStep_overlay o s hbusy ?_
    simp only [Overlay.on_tx]
    split
    case h_2 => exact txFL2_overlay o s
    all_goals rfl

/-! ### The labels of ISRSEQ -/

theorem isrDispatch_overlay (hit : BitVec 3 → Bool) (mark : IsrMark) (enter skip : IsrPhase) :
    isrDispatch (o.on s) hit mark enter skip = o.on (isrDispatch s hit mark enter skip) := by
  rw [isrDispatch.eq_def s, apply_ite o.on]
  rfl

theorem isrI1_overlay : isrI1 (o.on s) = o.after (isrI1 s) := by
  cases hf : s.per.rxFifo with
  | nil => simp [isrI1, priLoad, hf, show (o.on s).per = s.per from rfl, Overlay.after]
  | cons b rest =>
    rw [isrI1_cons hf, isrI1_cons (s := o.on s) hf]
    rfl

theorem isrI3_overlay : isrI3 (o.on s) = o.after (isrI3 s) := by
  have hput : ∀ i v, bufPut (o.on s) i v = (bufPut s i v).map o.on := fun i v => by
    rw [bufPut.eq_def s, apply_ite (Option.map o.on)]
    rfl
  unfold isrI3
  rw [hput, Overlay.on_isr, show (o.on s).drv = s.drv from rfl]
  cases bufPut s s.drv.nextWrite.toNat s.isr.byte <;> rfl

theorem isrI7_overlay : isrI7 (o.on s) = o.after (isrI7 s) := by
  rw [isrI7.eq_def s, apply_ite o.after]
  rfl

/-- The transmit section fetches the remainder's bytes from host memory (R144). -/
theorem isrT3_overlay (hmem : o.mem = id) : isrT3 (o.on s) = o.after (isrT3 s) := by
  have hbyte : ∀ k, payload (o.on s) k = payload s k := fun k => by simp [payload, memRead, Overlay.on, hmem]
  unfold isrT3
  rw [priStore_overlay, hbyte, show (o.on s).drv = s.drv from rfl]
  cases priStore s (payload s s.drv.txCursor) <;> rfl

theorem isrT4_overlay : isrT4 (o.on s) = o.after (isrT4 s) := by
  unfold isrT4
  rw [priSetTxTrig_overlay, show txLevel (o.on s) (remaining (o.on s)) = txLevel s (remaining s) from rfl]
  cases priSetTxTrig s (txLevel s (remaining s)) <;> rfl

theorem isrS2_overlay : isrS2 (o.on s) = o.after (isrS2 s) := by
  rw [isrS2.eq_def s, apply_ite o.after]
  rfl

/-- A step of the engine reads no operand register, and host memory only at T3 (R263). -/
theorem exec_service_overlay (hmem : s.isr.phase = .t3 → o.mem = id) :
    exec .serviceInterrupt (o.on s) = o.after (exec .serviceInterrupt s) := by
  rw [exec, exec, execServiceInterrupt.eq_def s, ← liveStep_overlay]
  refine congrArg (liveStep (o.on s)) ?_
  simp only [Overlay.on_isr]
  split
  case h_2 => exact congrArg Host.Outcome.next (isrDispatch_overlay o s _ _ _ _)
  case h_3 => exact isrI1_overlay o s
  case h_5 => exact isrI3_overlay o s
  case h_10 => exact isrI7_overlay o s
  case h_11 => exact congrArg Host.Outcome.next (isrDispatch_overlay o s _ _ _ _)
  case h_16 hp => exact isrT3_overlay o s (hmem hp)
  case h_17 => exact isrT4_overlay o s
  case h_19 => exact isrS2_overlay o s
  all_goals rfl

/-! ### Operands are latched -/

theorem rxTurn_overlay (hbusy : s.rx.phase ≠ .idle) (hcopy : latchedRx s = some .read → s.rx.phase = .copy → o.mem = id) :
    rxTurn (o.on s) = o.after (rxTurn s) := by
  cases hi : latchedRx s with
  | none => simp only [rxTurn, Overlay.on_rx, if_neg hbusy, show latchedRx (o.on s) = latchedRx s from rfl, hi, Overlay.after]
  | some i =>
    rw [rxTurn_latched hbusy hi, rxTurn_latched (s := o.on s) hbusy hi]
    exact exec_rx_overlay o s (decodeCmd_eq_some.mp hi).2 hbusy fun h => hcopy (h ▸ hi)

theorem txTurn_overlay (hbusy : s.tx.phase ≠ .idle) (hmem : txWriting s.tx.phase = true → o.mem = id) :
    txTurn (o.on s) = o.after (txTurn s) := by
  cases hi : latchedTx s with
  | none => simp only [txTurn, Overlay.on_tx, if_neg hbusy, show latchedTx (o.on s) = latchedTx s from rfl, hi, Overlay.after]
  | some i =>
    rw [txTurn_latched hbusy hi, txTurn_latched (s := o.on s) hbusy hi]
    exact exec_tx_overlay o s (decodeCmd_eq_some.mp hi).2 hbusy hmem

end

/-- Settles O60. -/
theorem operandsAreLatched : Obligations.OperandsAreLatched := by
  constructor
  · rintro s t k v (rfl | rfl) hbusy hturn
    · exact (rxTurn_overlay { rxA0 := fun _ => v } s hbusy fun _ _ => rfl).trans (by rw [hturn]; rfl)
    · exact (rxTurn_overlay { rxA1 := fun _ => v } s hbusy fun _ _ => rfl).trans (by rw [hturn]; rfl)
  · rintro s t k v (rfl | rfl) hbusy hturn
    · exact (txTurn_overlay { txA0 := fun _ => v } s hbusy fun _ => rfl).trans (by rw [hturn]; rfl)
    · exact (txTurn_overlay { txA1 := fun _ => v } s hbusy fun _ => rfl).trans (by rw [hturn]; rfl)

end Sys2Proof.Machine
end

