-- ==== Sys2Proof/Proofs/HostMemoryUnread.lean ====
section
/-!
PROOF. While no write command is in flight, every step from other contents of host memory is the same step (R82, R225).
-/

namespace Sys2Proof.Machine

/-- Other contents of host memory, and nothing else. -/
def Overlay.ofMem (m : Memory) : Overlay := { mem := fun _ => m }

section
variable {s t : State} {m : Memory}

theorem Overlay.on_ofMem (m : Memory) (s : State) : (Overlay.ofMem m).on s = s.setHostMem m := rfl

/-! ### The host's writes -/

theorem cfgStep_hostMem {u : State} (hu : u = t.setHostMem m) :
    cfgStep (s.setHostMem m) u = (Overlay.ofMem m).after (cfgStep s t) := by
  rw [hu]
  exact appStep_overlay (.ofMem m) s (.next t)

theorem exec_cfg_hostMem {i : Instr} (hi : i.port = some .cfg) :
    exec i (s.setHostMem m) = (Overlay.ofMem m).after (exec i s) := by
  cases i <;> cases hi
  case configure | setReadTimeout | setWriteTimeout | status | len => exact cfgStep_hostMem rfl

theorem rxRD0_hostMem : rxRD0 (s.setHostMem m) = (Overlay.ofMem m).after (rxRD0 s) := by
  unfold rxRD0
  simp only [apply_ite (Overlay.ofMem m).after]
  rfl

theorem rxRB0_hostMem : rxRB0 (s.setHostMem m) = (Overlay.ofMem m).after (rxRB0 s) := by
  rw [rxRB0.eq_def s, apply_ite (Overlay.ofMem m).after]
  rfl

theorem txW0_hostMem (w len : Word) : txW0 w len (s.setHostMem m) = (Overlay.ofMem m).after (txW0 w len s) := by
  unfold txW0
  simp only [apply_ite (Overlay.ofMem m).after]
  rfl

theorem rxStep_issue_hostMem (hp : s.rx.phase = .idle) {a b w x : Result} (hissue : x = (Overlay.ofMem m).after w) :
    rxStep (s.setHostMem m) x a = (Overlay.ofMem m).after (rxStep s w b) := by
  rw [rxStep_idle _ _ hp, rxStep_idle (s := s.setHostMem m) _ _ hp, hissue]
  exact liveStep_overlay (.ofMem m) s w

theorem txStep_issue_hostMem (hp : s.tx.phase = .idle) {a b w x : Result} (hissue : x = (Overlay.ofMem m).after w) :
    txStep (s.setHostMem m) x a = (Overlay.ofMem m).after (txStep s w b) := by
  rw [txStep_idle _ _ hp, txStep_idle (s := s.setHostMem m) _ _ hp, hissue]
  exact liveStep_overlay (.ofMem m) s w

theorem exec_rx_issue_hostMem {i : Instr} (hi : i.port = some .rx) (hp : s.rx.phase = .idle) :
    exec i (s.setHostMem m) = (Overlay.ofMem m).after (exec i s) := by
  cases i <;> cases hi
  case enableRx | disableRx => exact rxStep_issue_hostMem hp rfl
  case read => exact rxStep_issue_hostMem hp rxRD0_hostMem
  case readByte => exact rxStep_issue_hostMem hp rxRB0_hostMem

theorem exec_tx_issue_hostMem {i : Instr} (hi : i.port = some .tx) (hp : s.tx.phase = .idle) :
    exec i (s.setHostMem m) = (Overlay.ofMem m).after (exec i s) := by
  cases i <;> cases hi
  case enableTx | disableTx | flush => exact txStep_issue_hostMem hp rfl
  case write | writeString | writeByte => exact txStep_issue_hostMem hp (txW0_hostMem _ _)

/-- No command reads host memory at issue. -/
theorem exec_issue_hostMem {i : Instr} {p : Port} (hi : i.port = some p) (hp : portBusy s p = false) :
    exec i (s.setHostMem m) = (Overlay.ofMem m).after (exec i s) := by
  cases p with
  | cfg => exact exec_cfg_hostMem hi
  | rx => exact exec_rx_issue_hostMem hi (not_not.mp (of_decide_eq_false hp))
  | tx => exact exec_tx_issue_hostMem hi (not_not.mp (of_decide_eq_false hp))
  | isr =>
    have hp : s.isr.phase = .idle := not_not.mp (of_decide_eq_false hp)
    cases i <;> cases hi
    exact exec_service_overlay (.ofMem m) s fun h => by simp [hp] at h

theorem illegalCmd_hostMem (p : Port) : illegalCmd (s.setHostMem m) p = (illegalCmd s p).setHostMem m := by cases p <;> rfl

theorem cmdWrite_hostMem (p : Port) (w : Word) : cmdWrite p w (s.setHostMem m) = (Overlay.ofMem m).after (cmdWrite p w s) := by
  cases hf : s.drv.fatal with
  | true =>
    rw [cmdWrite_fatal p w hf, cmdWrite_fatal (s := s.setHostMem m) p w hf]
    rfl
  | false =>
    cases hb : portBusy s p with
    | true =>
      have hb' : portBusy (s.setHostMem m) p = true := by rw [← hb]; cases p <;> rfl
      rw [cmdWrite_busy w hf hb, cmdWrite_busy (s := s.setHostMem m) w hf hb', apply_ite (Overlay.ofMem m).after]
      rfl
    | false =>
      have hb' : portBusy (s.setHostMem m) p = false := by rw [← hb]; cases p <;> rfl
      cases hw : decodeCmd p w with
      | none =>
        rw [cmdWrite_illegal hf hb hw, cmdWrite_illegal (s := s.setHostMem m) hf hb' hw, illegalCmd_hostMem]
        rfl
      | some i =>
        rw [cmdWrite_legal hf hb hw, cmdWrite_legal (s := s.setHostMem m) hf hb' hw, apply_ite (Overlay.ofMem m).after,
          exec_issue_hostMem (decodeCmd_eq_some.mp hw).2 hb]
        rfl

theorem writeOperand_hostMem (k : Nat) (v : Word) :
    writeOperand (s.setHostMem m) k v = (writeOperand s k v).setHostMem m := by
  unfold writeOperand
  split <;> rfl

theorem hostWrite_hostMem (off : BitVec 8) (bytes : Nat) (v : Word) :
    hostWrite off bytes v (s.setHostMem m) = (Overlay.ofMem m).after (hostWrite off bytes v s) := by
  unfold hostWrite
  split
  · split
    · exact cmdWrite_hostMem _ v
    · rw [writeOperand_hostMem]
      rfl
  · rfl

/-! ### The turns -/

/-- Two answers that differ at most in host memory and in what the host last read there. -/
def SameButMemory (r r' : Result) : Prop := ∀ t, r = .next t → ∃ u, r' = .next u ∧ u.forgetMem = t.forgetMem

theorem SameButMemory.next {u : State} (h : u.forgetMem = t.forgetMem) : SameButMemory (.next t) (.next u) := by
  rintro _ ⟨⟩
  exact ⟨u, rfl, h⟩

/-- A step that carries host memory through unread. -/
theorem SameButMemory.carried (r : Result) : SameButMemory r ((Overlay.ofMem m).after r) := by
  rintro t rfl
  exact ⟨t.setHostMem m, rfl, rfl⟩

theorem rxTurn_sameButMemory (hg : s.Good) : SameButMemory (rxTurn s) (rxTurn (s.setHostMem m)) := by
  by_cases hp : s.rx.phase = .idle
  · rw [rxTurn, if_pos hp, rxTurn, if_pos (show (s.setHostMem m).rx.phase = .idle from hp)]
    exact .next rfl
  · by_cases hcopy : latchedRx s = some .read ∧ s.rx.phase = .copy
    · -- COPY of `READ` writes host memory, from the ring
      obtain ⟨hi, hp⟩ := hcopy
      obtain ⟨h2, hcap, -, -⟩ := hg.ring.inside (by rw [hp]; rfl)
      cases ha : s.appReady with
      | false =>
        rw [rxTurn_held hg.ports.rxLatch ha, rxTurn_held (s := s.setHostMem m) hg.ports.rxLatch ha]
        exact .next rfl
      | true =>
        obtain ⟨m₁, -, h₁⟩ := rxCopy_eq (s := s) h2 hcap
        obtain ⟨m₂, -, h₂⟩ := rxCopy_eq (s := s.setHostMem m) h2 hcap
        rw [rxTurn_latched (by rw [hp]; nofun) hi, exec_read_copy ha hp, h₁,
          rxTurn_latched (s := s.setHostMem m) (i := .read) (by rw [State.setHostMem_rx, hp]; nofun) hi,
          exec_read_copy (s := s.setHostMem m) ha hp, h₂]
        exact .next rfl
    · rw [← Overlay.on_ofMem, rxTurn_overlay (.ofMem m) s hp fun hi hp => absurd ⟨hi, hp⟩ hcopy]
      exact .carried _

theorem txTurn_sameButMemory (hquiet : txWriting s.tx.phase = false) :
    SameButMemory (txTurn s) (txTurn (s.setHostMem m)) := by
  by_cases hp : s.tx.phase = .idle
  · rw [txTurn, if_pos hp, txTurn, if_pos (show (s.setHostMem m).tx.phase = .idle from hp)]
    exact .next rfl
  · rw [← Overlay.on_ofMem, txTurn_overlay (.ofMem m) s hp fun h => absurd (hquiet.symm.trans h) Bool.false_ne_true]
    exact .carried _

theorem isrTurn_sameButMemory (hg : s.Good) (hquiet : txWriting s.tx.phase = false) :
    SameButMemory (isrTurn s) (isrTurn (s.setHostMem m)) := by
  by_cases hp : s.isr.phase = .idle
  · rw [isrTurn, if_pos hp, isrTurn, if_pos (show (s.setHostMem m).isr.phase = .idle from hp)]
    exact .next rfl
  · have hout := (hg.windowClosed (not_shared_of_not_writing hquiet)).label
    rw [isrTurn_busy hp, isrTurn_busy (s := s.setHostMem m) hp, ← Overlay.on_ofMem,
      exec_service_overlay (.ofMem m) s fun h => absurd (by rw [h]; rfl) hout]
    exact .carried _

/-! ### Every event -/

theorem forgetMem_memWrite (m : Memory) (a : Word) (b : Byte) :
    (memWrite (s.setHostMem m) a b).forgetMem = (memWrite s a b).forgetMem := by
  unfold memWrite State.forgetMem
  rfl

theorem lineRx_hostMem (b : Byte) : lineRx (s.setHostMem m) b = (lineRx s b).setHostMem m := by
  simp only [lineRx, apply_ite (State.setHostMem · m)]
  rfl

theorem lineTx_hostMem : lineTx (s.setHostMem m) = (lineTx s).setHostMem m := by
  cases hf : s.per.txFifo with
  | nil => rw [lineTx_nil hf, lineTx_nil (s := s.setHostMem m) hf]
  | cons b rest =>
    rw [lineTx_cons hf, lineTx_cons (s := s.setHostMem m) hf]
    rfl

theorem lineErr_hostMem (f : BitVec 4) : lineErr (s.setHostMem m) f = (lineErr s f).setHostMem m := by
  simp only [lineErr, apply_ite (State.setHostMem · m)]
  rfl

theorem rxIdle_hostMem : rxIdle (s.setHostMem m) = (rxIdle s).setHostMem m := by
  simp only [rxIdle, apply_ite (State.setHostMem · m)]
  rfl

theorem runEvent_sameButMemory (hg : s.Good) (hquiet : txWriting s.tx.phase = false) (e : Event) :
    SameButMemory (runEvent e s) (runEvent e (s.setHostMem m)) := by
  cases e with
  | hostWrite off bytes v =>
    rw [runEvent, runEvent, hostWrite_hostMem]
    exact .carried _
  | hostRead off bytes =>
    rw [runEvent, runEvent, hostRead, hostRead]
    split
    · exact .next rfl
    · exact fun _ h => nomatch h
  | memWrite a b => exact .next (forgetMem_memWrite m a b)
  | memRead a => exact .next rfl
  | reset => exact .next rfl
  | rxSeq => exact rxTurn_sameButMemory hg
  | txSeq => exact txTurn_sameButMemory hquiet
  | isrSeq => exact isrTurn_sameButMemory hg hquiet
  | tick => exact .next rfl
  | lineRx b => exact .next (by rw [lineRx_hostMem]; rfl)
  | lineTx => exact .next (by rw [lineTx_hostMem]; rfl)
  | lineErr f => exact .next (by rw [lineErr_hostMem]; rfl)
  | rxIdle => exact .next (by rw [rxIdle_hostMem]; rfl)

/-- The schedule does not look at host memory. -/
theorem takeEvent_hostMem : takeEvent (s.setHostMem m) = (takeEvent s).setHostMem m := by
  rw [takeEvent.eq_def s, apply_ite (State.setHostMem · m)]
  rfl

end

/-- Settles O59. -/
theorem quietTransmitterIgnoresHostMemory : Obligations.QuietTransmitterIgnoresHostMemory := by
  intro s t m hg hquiet hstep
  have hsame := runEvent_sameButMemory (m := m) hg.takeEvent (by rwa [takeEvent_tx]) (nextEvent s)
  rw [step_event (s := s.setHostMem m) hg.peripheral.noPending, takeEvent_hostMem]
  exact hsame t (step_event hg.peripheral.noPending ▸ hstep)

end Sys2Proof.Machine
end

