-- ==== Sys2Proof/Proofs/FatalFreezes.lean ====
section
/-!
PROOF. The fatal state (R145): every command and every sequencer is stopped, the PRI and the environment go on.
-/

namespace Sys2Proof.Machine

section
variable {s t : State}

theorem appReady_of_fatal (hf : s.drv.fatal = true) : s.appReady = false := by simp [State.appReady, hf]

/-- In the fatal state no command is issued and none continues (R114, R145). -/
theorem exec_fatal {i : Instr} {p : Port} (hf : s.drv.fatal = true) (hi : i.port = some p) : exec i s = .next s := by
  have ha := appReady_of_fatal hf
  have rx (issue work : Result) : rxStep s issue work = .next s := by
    by_cases hp : s.rx.phase = .idle
    · rw [rxStep_idle _ _ hp, liveStep_held _ hf]
    · rw [rxStep_busy _ _ hp, appStep_held _ ha]
  have tx (issue work : Result) : txStep s issue work = .next s := by
    by_cases hp : s.tx.phase = .idle
    · rw [txStep_idle _ _ hp, liveStep_held _ hf]
    · rw [txStep_busy _ _ hp, appStep_held _ ha]
  cases i
  case configure | setReadTimeout | setWriteTimeout | status | len => exact appStep_held _ ha
  case enableRx | disableRx | read | readByte => exact rx _ _
  case enableTx | disableTx | write | writeString | writeByte | flush => exact tx _ _
  case serviceInterrupt => exact liveStep_held _ hf
  all_goals cases hi

/-- What stands through every step of the fatal state but reset: the block's own state but for the operand registers
and the timers' counts. -/
structure Frozen (s t : State) : Prop where
  drv : t.drv = s.drv
  isr : t.isr = s.isr
  buf : t.buf = s.buf
  rxPhase : t.rx.phase = s.rx.phase
  txPhase : t.tx.phase = s.tx.phase
  rxRsp : t.regs.rxRsp = s.regs.rxRsp
  txRsp : t.regs.txRsp = s.regs.txRsp
  svRsp : t.regs.svRsp = s.regs.svRsp
  cfRsp : t.regs.cfRsp = s.regs.cfRsp

theorem Frozen.refl (s : State) : Frozen s s := ⟨rfl, rfl, rfl, rfl, rfl, rfl, rfl, rfl, rfl⟩

/-- A request of the PRI acts on the peripheral (R300 to R308). -/
theorem exec_pri_eq {i : Instr} (hi : i.port = none) (h : exec i s = .next t) : ∃ p q, t = { s with per := p, pri := q } := by
  cases i <;> cases hi
  case priLoad =>
    cases hf : s.per.rxFifo with
    | nil =>
      rw [exec_priLoad_nil hf] at h
      cases h
    | cons b rest =>
      rw [exec_priLoad_cons hf] at h
      cases h
      exact ⟨_, _, rfl⟩
  case priStore b =>
    rcases Nat.lt_or_ge s.per.txFifo.length s.cfg.txDepth with hroom | hfull
    · rw [exec_priStore_room b hroom] at h
      cases h
      exact ⟨_, _, rfl⟩
    · rw [exec_priStore_full b hfull] at h
      cases h
  case priSetRxTrig n =>
    by_cases hn : rxLevelOk s.cfg n = true
    · rw [exec_priSetRxTrig_legal hn] at h
      cases h
      exact ⟨_, _, rfl⟩
    · rw [exec_priSetRxTrig_illegal hn] at h
      cases h
  case priSetTxTrig n =>
    by_cases hn : txLevelOk s.cfg n = true
    · rw [exec_priSetTxTrig_legal hn] at h
      cases h
      exact ⟨_, _, rfl⟩
    · rw [exec_priSetTxTrig_illegal hn] at h
      cases h
  all_goals
    cases h
    exact ⟨_, _, rfl⟩

theorem answerPri_frozen {w : Word} (h : answerPri w s = .next t) : Frozen s t := by
  unfold answerPri at h
  split at h
  · next i hi =>
    obtain ⟨-, -, hport⟩ := carries_of_decodePri hi
    obtain ⟨p, q, rfl⟩ := exec_pri_eq (Option.not_isSome_iff_eq_none.mp (Bool.eq_false_iff.mp hport)) h
    exact ⟨rfl, rfl, rfl, rfl, rfl, rfl, rfl, rfl, rfl⟩
  · cases h

theorem writeOperand_frozen (k : Nat) (v : Word) : Frozen s (writeOperand s k v) := by
  obtain ⟨r, hr, hrx, htx, hsv, hcf⟩ := writeOperand_eq_setRegs s k v
  rw [hr]
  exact ⟨rfl, rfl, rfl, rfl, rfl, hrx, htx, hsv, hcf⟩

theorem hostWrite_frozen {off : BitVec 8} {bytes : Nat} {v : Word} (hf : s.drv.fatal = true)
    (h : hostWrite off bytes v s = .next t) : Frozen s t := by
  unfold hostWrite at h
  split at h
  · split at h
    · rw [cmdWrite_fatal _ _ hf] at h
      cases h
      exact .refl s
    · cases h
      exact writeOperand_frozen _ v
  · cases h

theorem hostRead_frozen {off : BitVec 8} {bytes : Nat} (h : hostRead off bytes s = .next t) : Frozen s t := by
  unfold hostRead at h
  split at h
  · cases h
    exact { Frozen.refl s with }
  · cases h

theorem rxTurn_fatal (hf : s.drv.fatal = true) (h : rxTurn s = .next t) : t = s := by
  unfold rxTurn at h
  split at h
  · cases h
    rfl
  · split at h
    · next i hi =>
      rw [exec_fatal hf (decodeCmd_eq_some.mp hi).2] at h
      cases h
      rfl
    · cases h

theorem txTurn_fatal (hf : s.drv.fatal = true) (h : txTurn s = .next t) : t = s := by
  unfold txTurn at h
  split at h
  · cases h
    rfl
  · split at h
    · next i hi =>
      rw [exec_fatal hf (decodeCmd_eq_some.mp hi).2] at h
      cases h
      rfl
    · cases h

theorem runEvent_line_frozen {e : Event} (he : isLine e = true) (h : runEvent e s = .next t) : Frozen s t := by
  obtain ⟨p, hp, -⟩ := runEvent_line s he
  cases hp.symm.trans h
  exact { Frozen.refl s with }

/-- An event of the fatal state leaves the block as it is (R145). -/
theorem runEvent_frozen {e : Event} (hf : s.drv.fatal = true) (he : e ≠ .reset) (h : runEvent e s = .next t) :
    Frozen s t := by
  cases e with
  | hostWrite off bytes v => exact hostWrite_frozen hf h
  | hostRead off bytes => exact hostRead_frozen h
  | memWrite a b =>
    cases h
    exact { Frozen.refl s with }
  | memRead a =>
    cases h
    exact { Frozen.refl s with }
  | reset => exact absurd rfl he
  | rxSeq =>
    rw [rxTurn_fatal hf h]
    exact .refl s
  | txSeq =>
    rw [txTurn_fatal hf h]
    exact .refl s
  | isrSeq =>
    cases (isrTurn_held hf).symm.trans h
    exact .refl s
  | tick =>
    cases h
    exact { Frozen.refl s with }
  | lineRx b => exact runEvent_line_frozen rfl h
  | lineTx => exact runEvent_line_frozen rfl h
  | lineErr f => exact runEvent_line_frozen rfl h
  | rxIdle => exact runEvent_line_frozen rfl h

theorem step_frozen (hf : s.drv.fatal = true) (he : nextEvent s ≠ .reset) (h : step s = .next t) : Frozen s t := by
  cases hpri : s.pri.pending with
  | some w => exact answerPri_frozen ((step_request hpri).symm.trans h)
  | none =>
    obtain ⟨inputs, eventNo, htake⟩ := takeEvent_cases s
    rw [step_event hpri, htake] at h
    have hrun := runEvent_frozen (s := s.setEnv { s.env with inputs := inputs, eventNo := eventNo }) hf he h
    exact { hrun with }

/-! ### What goes on (R145) -/

/-- The fatal state entered with nothing else changed. -/
def State.withFatal (s : State) : State := { s with drv := { s.drv with fatal := true } }

theorem lineRx_withFatal (b : Byte) : lineRx s.withFatal b = (lineRx s b).withFatal := by
  simp only [lineRx, apply_ite State.withFatal]
  rfl

theorem lineTx_withFatal : lineTx s.withFatal = (lineTx s).withFatal := by
  cases hf : s.per.txFifo with
  | nil => rw [lineTx_nil hf, lineTx_nil (s := s.withFatal) hf]
  | cons b rest =>
    rw [lineTx_cons hf, lineTx_cons (s := s.withFatal) hf]
    rfl

theorem lineErr_withFatal (f : BitVec 4) : lineErr s.withFatal f = (lineErr s f).withFatal := by
  simp only [lineErr, apply_ite State.withFatal]
  rfl

theorem rxIdle_withFatal : rxIdle s.withFatal = (rxIdle s).withFatal := by
  simp only [rxIdle, apply_ite State.withFatal]
  rfl

end

/-- Settles O55. -/
theorem fatalStopsTheBlock : Obligations.FatalStopsTheBlock := by
  refine ⟨fun s c => rfl, fun s hg hf => ?_, fun i p s hf hi => exec_fatal hf hi, fun s t hf he h => ?_, fun e s he => ?_⟩
  · have ha := appReady_of_fatal hf
    exact ⟨rxTurn_held hg.ports.rxLatch ha, txTurn_held hg.ports.txLatch ha, isrTurn_held hf⟩
  · obtain ⟨hdrv, hisr, hbuf, hrx, htx, hrxRsp, htxRsp, hsvRsp, hcfRsp⟩ := step_frozen hf he h
    exact ⟨hdrv, hisr, hbuf, hrx, htx, hrxRsp, htxRsp, hsvRsp, hcfRsp⟩
  · rcases he with rfl | ⟨b, rfl⟩ | rfl | ⟨f, rfl⟩ | rfl
    · exact ⟨_, rfl, rfl⟩
    · exact ⟨_, rfl, congrArg Host.Outcome.next (lineRx_withFatal b)⟩
    · exact ⟨_, rfl, congrArg Host.Outcome.next lineTx_withFatal⟩
    · exact ⟨_, rfl, congrArg Host.Outcome.next (lineErr_withFatal f)⟩
    · exact ⟨_, rfl, congrArg Host.Outcome.next rxIdle_withFatal⟩

end Sys2Proof.Machine
end

