-- ==== Sys2Proof/Proofs/EngineRuns.lean ====
section
/-!
PROOF. Runs of the interrupt service engine: it never holds and returns within its bound (R267), an invocation without cause
returns at once (R250), a sleeper is signalled (R184 (4)), and the receive section moves the FIFO into the ring (R251 to R258).
-/

namespace Sys2Proof.Machine

section
variable {s t : State}

/-! ### The engine never holds (R267 (1)) -/

theorem IsrMove.phase_ne (h : IsrMove s t) : t.isr.phase ≠ s.isr.phase := by
  cases h
  all_goals
    rw [‹s.isr.phase = _›]
    dsimp only
    try split
    all_goals nofun

/-- A step of the busy engine of a good state. -/
theorem exists_serviceStep (hg : s.Good) (hf : s.drv.fatal = false) (hbusy : s.isr.phase ≠ .idle) :
    ∃ t, IsrMove s t ∧ exec .serviceInterrupt s = .next t ∧ t.Good ∧ t.drv.fatal = false := by
  obtain ⟨t, h⟩ := isrMove_exists hg hbusy
  exact ⟨t, h, h.exec_eq hg.cfgOk hf, h.keeps_good hg, h.fatal_eq.trans hf⟩

/-- Settles O42. -/
theorem engineNeverHolds : Obligations.EngineNeverHolds := by
  intro s hg hf hbusy
  obtain ⟨t, h, hexec, -, hft⟩ := exists_serviceStep hg hf hbusy
  exact ⟨t, hexec, h.phase_ne, hft⟩

/-! ### An invocation with no cause pending (R250) -/

theorem issue_service (hf : s.drv.fatal = false) (hp : s.isr.phase = .idle) :
    exec .serviceInterrupt s = .next
      { s with regs := { s.regs with svRsp := busyWord }, isr := { s.isr with phase := .s0 } } :=
  exec_service_eq_serviceStep hf hp

/-- The record of a dispatch step that finds no cause (R304). -/
def noCausePri (s : State) : PriBus := { s.pri with req := 0x40000000#32, rsp := 0#32 }

theorem skip_s0 (hf : s.drv.fatal = false) (hp : s.isr.phase = .s0) (hc : pendingCause s = 0#3) :
    exec .serviceInterrupt s = .next
      { s with pri := noCausePri s, isr := { s.isr with cause := 0#3, phase := .s1 } } := by
  rw [exec_service_s0 hf hp, isrS0, isrDispatch_eq, hc]
  rfl

theorem skip_s1 (hf : s.drv.fatal = false) (hp : s.isr.phase = .s1) (hc : pendingCause s = 0#3) :
    exec .serviceInterrupt s = .next
      { s with pri := noCausePri s, isr := { s.isr with cause := 0#3, phase := .s2 } } := by
  rw [exec_service_s1 hf hp, isrS1, isrDispatch_eq, hc]
  rfl

theorem return_s2 (hok : s.cfg.ok = true) (hf : s.drv.fatal = false) (hp : s.isr.phase = .s2) (hc : pendingCause s = 0#3) :
    exec .serviceInterrupt s = .next
      { s with
        pri := noCausePri s, regs := { s.regs with svRsp := s.regs.svRsp &&& 0xFFFEFFFF#32 }
        isr := { s.isr with cause := 0#3, phase := .idle } } := by
  have h := (IsrMove.s2Return hp (by rw [hc]; rfl)).exec_eq hok hf
  rw [hc] at h
  exact h

/-- Settles O41. -/
theorem serviceWithoutCauseReturns : Obligations.ServiceWithoutCauseReturns := by
  intro s hg hf hp hcause
  have hc : pendingCause s = 0#3 := (pendingCause_eq_gatedCause hg.peripheral.maskIsIe).trans hcause
  rw [execTimes_step (issue_service hf hp) <|
    execTimes_step (skip_s0 (by exact hf) (by rfl) (by exact hc)) <|
    execTimes_step (skip_s1 (by exact hf) (by rfl) (by exact hc)) <|
    execTimes_one (return_s2 (by exact hg.cfgOk) (by exact hf) (by rfl) (by exact hc))]
  simp [noCausePri, busyWord, ← hp]

/-! ### No lost wake-up (R184 (4)) -/

/-- At I6 the engine's next step is the signal (R257). -/
theorem woken_from_i6 (hg : s.Good) (hf : s.drv.fatal = false) (hp : s.isr.phase = .i6) :
    ∃ t, execTimes .serviceInterrupt 1 s = .next t ∧ t.drv.rxWake = true ∧ t.rx = s.rx :=
  ⟨_, execTimes_one ((IsrMove.i6 hp).exec_eq hg.cfgOk hf), rfl, rfl⟩

/-- At I5 a reader who has asked for the signal gets it in two steps (R256, R257). -/
theorem woken_from_i5 (hg : s.Good) (hf : s.drv.fatal = false) (hp : s.isr.phase = .i5)
    (hr : s.drv.rxWakeRequested = true) :
    ∃ t, execTimes .serviceInterrupt 2 s = .next t ∧ t.drv.rxWake = true ∧ t.rx = s.rx := by
  have h := IsrMove.i5 hp
  obtain ⟨t, hrun, hwake, hrx⟩ := woken_from_i6 (h.keeps_good hg) hf (if_pos hr)
  exact ⟨t, execTimes_step (h.exec_eq hg.cfgOk hf) hrun, hwake, hrx⟩

/-- Settles O44: at P4L a byte published since the request is in the engine's hands at I5 or I6, at P5L the request is. -/
theorem sleeperWithDataIsWoken : Obligations.SleeperWithDataIsWoken := by
  intro s hg hf hsleep
  have signalled (h : s.drv.rxWake = true) :
      ∃ k t, k ≤ 2 ∧ execTimes .serviceInterrupt k s = .next t ∧ t.drv.rxWake = true ∧ t.rx = s.rx :=
    ⟨0, s, Nat.zero_le _, rfl, h, rfl⟩
  have at_i6 (h : s.isr.phase = .i6) :
      ∃ k t, k ≤ 2 ∧ execTimes .serviceInterrupt k s = .next t ∧ t.drv.rxWake = true ∧ t.rx = s.rx := by
    obtain ⟨t, ht⟩ := woken_from_i6 hg hf h
    exact ⟨1, t, by decide, ht⟩
  rcases hsleep with ⟨hp, hdata⟩ | hp
  · rcases hg.wake.asleep (by rw [hp]; rfl) hdata with h | h5 | h6
    · exact signalled h
    · rcases hg.wake.requested (by rw [hp]; rfl) with h | hr | h6
      · exact signalled h
      · obtain ⟨t, ht⟩ := woken_from_i5 hg hf h5 hr
        exact ⟨2, t, le_rfl, ht⟩
      · exact at_i6 h6
    · exact at_i6 h6
  · rcases hg.wake.secondSleep (by rw [hp]; rfl) with h | h6
    · exact signalled h
    · exact at_i6 h6

/-! ### The engine returns (R267 (2)) -/

/-- How many steps the engine has left at most, when no other agent steps: seven for a byte still in the receive FIFO and two for
a free slot of the transmit FIFO, beside the labels on the way out. -/
def stepsLeft (s : State) : Nat :=
  let bytes := 7 * s.per.rxFifo.length
  let slots := 2 * (s.cfg.txDepth - s.per.txFifo.length)
  match s.isr.phase with
  | .idle => 0
  | .s0 => bytes + slots + 8
  | .i1 => bytes + slots + 7
  | .i2 => bytes + slots + 13
  | .i3 => bytes + slots + 12
  | .i4 => bytes + slots + 11
  | .i5 => bytes + slots + 10
  | .i6 => bytes + slots + 9
  | .i3f => bytes + slots + 9
  | .i7 => bytes + slots + 8
  | .s1 => slots + 7
  | .t1 => slots + 6
  | .t2s => slots + 5
  | .t3 => slots + 4
  | .t1a => 5
  | .t1w => 4
  | .t4 => 4
  | .t5 => 3
  | .s2 => 2
  | .st1 => 1

theorem IsrMove.stepsLeft_lt (h : IsrMove s t) : stepsLeft t < stepsLeft s := by
  cases h
  case i1 hp b rest hf =>
    simp only [stepsLeft, hp, hf, List.length_cons]
    omega
  case t3 hp hroom =>
    by_cases hlast : s.drv.txCursor + 1#32 = s.drv.txPending.len
    · simp only [stepsLeft, hp, if_pos hlast]
      omega
    · simp only [stepsLeft, hp, if_neg hlast, List.length_append, List.length_singleton]
      omega
  case t2s hp =>
    by_cases hfull : s.per.txFifo.length = s.cfg.txDepth
    · simp only [stepsLeft, hp, if_pos hfull]
      omega
    · simp only [stepsLeft, hp, if_neg hfull]
      omega
  case s0 hp => cases hc : hasRx (pendingCause s) <;> simp [stepsLeft, hp]
  case s1 hp => cases hc : hasTx (pendingCause s) <;> simp [stepsLeft, hp]
  case i5 hp => cases hr : s.drv.rxWakeRequested <;> simp [stepsLeft, hp]
  all_goals
    have hp := ‹s.isr.phase = _›
    simp only [stepsLeft, hp]
    omega

/-- A return leaves `SVRSP` 0, for it was busy and nothing else (R146, R347). -/
theorem IsrMove.returns (hg : s.Good) (h : IsrMove s t) (ht : t.isr.phase = .idle) : t.regs.svRsp = 0#32 := by
  have hbusy : s.isr.phase ≠ .idle := fun hp => h.phase_ne (ht.trans hp.symm)
  have hsv := hg.ports.svBusy hbusy
  cases h
  case s2Return => simp [hsv, busyWord]
  case st1 => simp [hsv, busyWord]
  all_goals
    dsimp only at ht
    try split at ht
    all_goals cases ht

theorem engine_returns (n : Nat) (hg : s.Good) (hf : s.drv.fatal = false) (hbusy : s.isr.phase ≠ .idle)
    (hn : stepsLeft s ≤ n) :
    ∃ k t, k ≤ n ∧ execTimes .serviceInterrupt k s = .next t ∧ t.isr.phase = .idle ∧ t.regs.svRsp = 0#32 := by
  induction n generalizing s with
  | zero =>
    obtain ⟨t, h, -⟩ := exists_serviceStep hg hf hbusy
    exact absurd (h.stepsLeft_lt.trans_le hn) (Nat.not_lt_zero _)
  | succ n ih =>
    obtain ⟨t, h, hexec, hgt, hft⟩ := exists_serviceStep hg hf hbusy
    by_cases hp : t.isr.phase = .idle
    · exact ⟨1, t, by omega, execTimes_one hexec, hp, h.returns hg hp⟩
    · obtain ⟨k, u, hk, hrun, hu⟩ := ih hgt hft hp (Nat.le_of_lt_succ (h.stepsLeft_lt.trans_le hn))
      exact ⟨k + 1, u, by omega, execTimes_step hexec hrun, hu⟩

/-- Settles O43. -/
theorem engineReturns : Obligations.EngineReturns := by
  intro s hg hf hp
  exact engine_returns _ hg hf (by rw [hp]; nofun) (by simp only [stepsLeft, hp, le_refl])

end
end Sys2Proof.Machine
end

