-- ==== Sys2Proof/Proofs/ReceiveSection.lean ====
section
/-!
PROOF. The receive section as a whole (R251 to R258): one round a byte, by induction on the receive FIFO.
-/

namespace Sys2Proof.Machine

/-- A run of the receive section from `s` to the good state `t`: what it leaves of the block as it is. -/
structure ReceiveRun (s t : State) : Prop where
  good : t.Good
  running : t.drv.fatal = false
  cap : t.drv.cap = s.drv.cap
  nextRead : t.drv.nextRead = s.drv.nextRead
  txFifo : t.per.txFifo = s.per.txFifo
  rx : t.rx = s.rx
  tx : t.tx = s.tx
  hostMem : t.hostMem = s.hostMem

section
variable {s t u : State}

theorem ReceiveRun.trans (h : ReceiveRun s t) (h' : ReceiveRun t u) : ReceiveRun s u :=
  ⟨h'.good, h'.running, h'.cap.trans h.cap, h'.nextRead.trans h.nextRead, h'.txFifo.trans h.txFifo, h'.rx.trans h.rx,
    h'.tx.trans h.tx, h'.hostMem.trans h.hostMem⟩

/-- The labels of the receive section touch neither the consumer's side nor the transmit side. -/
theorem IsrMove.receiveRun (h : IsrMove s t) (hg : s.Good) (hf : s.drv.fatal = false)
    (hp : isrMarkOf s.isr.phase = .inRx ∨ s.isr.phase = .s0) : ReceiveRun s t := by
  have hgt := h.keeps_good hg
  have hft := h.fatal_eq.trans hf
  cases h
  case t1a | t3 =>
    rw [‹s.isr.phase = _›] at hp
    exact absurd hp (by decide)
  all_goals exact ⟨hgt, hft, rfl, rfl, rfl, rfl, rfl, rfl⟩

/-- A run of `k` engine steps inside the receive section. -/
structure Serves (k : Nat) (s t : State) : Prop where
  run : execTimes .serviceInterrupt k s = .next t
  keeps : ReceiveRun s t

theorem execTimes_add {i : Instr} {j k : Nat} {r : Result} (h : execTimes i j s = .next t) (hrest : execTimes i k t = r) :
    execTimes i (j + k) s = r := by
  induction j generalizing s with
  | zero =>
    cases h
    rw [Nat.zero_add]
    exact hrest
  | succ j ih =>
    rw [Nat.succ_add]
    cases hs : exec i s with
    | next v =>
      simp only [execTimes, hs] at h ⊢
      exact ih h
    | fault _ | refused _ => simp [execTimes, hs] at h

theorem Serves.trans {j k : Nat} (h : Serves j s t) (h' : Serves k t u) : Serves (j + k) s u :=
  ⟨execTimes_add h.run h'.run, h.keeps.trans h'.keeps⟩

theorem Serves.one (h : IsrMove s t) (hg : s.Good) (hf : s.drv.fatal = false)
    (hp : isrMarkOf s.isr.phase = .inRx ∨ s.isr.phase = .s0) : Serves 1 s t :=
  ⟨execTimes_one (h.exec_eq hg.cfgOk hf), h.receiveRun hg hf hp⟩

theorem Serves.then {k : Nat} (h : Serves k s t) (h' : IsrMove t u) (hp : isrMarkOf t.isr.phase = .inRx) :
    Serves (k + 1) s u := h.trans (.one h' h.keeps.good h.keeps.running (.inl hp))

theorem mark_inRx {p : IsrPhase} (hp : s.isr.phase = p) (hmark : isrMarkOf p = .inRx) :
    isrMarkOf s.isr.phase = .inRx ∨ s.isr.phase = .s0 := .inl (hp ▸ hmark)

/-- From I2 to I7 with no room: the byte is dropped and the loss flagged (R253, R254). -/
theorem drop_byte (hg : s.Good) (hf : s.drv.fatal = false) (hp : s.isr.phase = .i2)
    (hfull : idxNext s.drv.cap s.drv.nextWrite = s.drv.nextRead) :
    ∃ t, Serves 2 s t ∧ t.isr.phase = .i7 ∧ t.isr.more = s.isr.more ∧ t.per.rxFifo = s.per.rxFifo ∧
      ringContents t = ringContents s ∧ t.drv.overflow = true :=
  ⟨_, (Serves.one (.i2Full hp hfull) hg hf (mark_inRx hp rfl)).then (.i3f rfl) rfl, rfl, rfl, rfl, rfl, rfl⟩

/-- From I5 to I7, by way of I6 where a reader has asked for the signal (R256, R257). -/
theorem signal_reader (hg : s.Good) (hf : s.drv.fatal = false) (hp : s.isr.phase = .i5) :
    ∃ k t, k ≤ 2 ∧ Serves k s t ∧ t.isr.phase = .i7 ∧ t.isr.more = s.isr.more ∧ t.per.rxFifo = s.per.rxFifo ∧
      ringContents t = ringContents s ∧ t.drv.overflow = s.drv.overflow := by
  have h5 := Serves.one (.i5 hp) hg hf (mark_inRx hp rfl)
  cases hr : s.drv.rxWakeRequested with
  | true =>
    have h6 := h5.then (.i6 (if_pos hr)) (by simp [hr, isrMarkOf])
    exact ⟨2, _, le_rfl, h6, rfl, rfl, rfl, rfl, rfl⟩
  | false => exact ⟨1, _, by decide, h5, if_neg (by simp [hr]), rfl, rfl, rfl, rfl⟩

/-- From I2 to I7 with room: the byte joins the unread ones (R253 to R257). -/
theorem store_byte (hg : s.Good) (hf : s.drv.fatal = false) (hp : s.isr.phase = .i2)
    (hroom : idxNext s.drv.cap s.drv.nextWrite ≠ s.drv.nextRead) :
    ∃ k t, k ≤ 5 ∧ Serves k s t ∧ t.isr.phase = .i7 ∧ t.isr.more = s.isr.more ∧ t.per.rxFifo = s.per.rxFifo ∧
      ringContents t = ringContents s ++ [s.isr.byte] ∧ t.drv.overflow = s.drv.overflow := by
  obtain ⟨h2, hcap, hr, hw⟩ := hg.ring.on (enabled_in_section hg (by rw [hp]; rfl))
  have h4 := ((Serves.one (.i2Room hp hroom) hg hf (mark_inRx hp rfl)).then (.i3 rfl (hw.trans_le hcap)) rfl).then (.i4 rfl) rfl
  obtain ⟨k, t, hk, hrun, hphase, hmore, hfifo, hring, hover⟩ := signal_reader h4.keeps.good h4.keeps.running rfl
  refine ⟨_, t, ?_, h4.trans hrun, hphase, hmore, hfifo, hring.trans ?_, hover⟩
  · omega
  · exact ringContents_enqueue h2 hr hw hroom rfl fun j => bufSlot_put s s.drv.nextWrite.toNat j s.isr.byte

/-! ### One round -/

/-- Free slots of the ring (R132). -/
def ringRoom (s : State) : Nat := s.drv.cap.toNat - 1 - unread s

theorem ringRoom_eq_zero_iff (hg : s.Good) (hmark : isrMarkOf s.isr.phase = .inRx) :
    ringRoom s = 0 ↔ idxNext s.drv.cap s.drv.nextWrite = s.drv.nextRead := by
  obtain ⟨h2, -, hr, hw⟩ := hg.ring.on (enabled_in_section hg hmark)
  rw [← ringLen_eq_pred_iff h2 hr hw, ringRoom, unread]
  have := ringLen_lt h2 hr hw
  omega

/-- What a run has moved of `bytes`: those that fit are in the ring, and the rest is flagged. -/
structure Received (bytes : List Byte) (s t : State) : Prop where
  ring : ringContents t = ringContents s ++ bytes.take (ringRoom s)
  overflow : t.drv.overflow = (s.drv.overflow || decide (ringRoom s < bytes.length))

theorem Received.room {bytes : List Byte} (h : Received bytes s t) (hcap : t.drv.cap = s.drv.cap) :
    ringRoom t = ringRoom s - bytes.length := by
  have hlen := congrArg List.length h.ring
  rw [List.length_append, ringContents_length, ringContents_length, List.length_take] at hlen
  rw [ringRoom, hcap, hlen]
  unfold ringRoom
  omega

/-- What is moved in two runs is moved as by one. -/
theorem Received.append {bytes more : List Byte} (h : Received bytes s t) (h' : Received more t u)
    (hcap : t.drv.cap = s.drv.cap) : Received (bytes ++ more) s u where
  ring := by rw [h'.ring, h.ring, h.room hcap, List.take_append, List.append_assoc]
  overflow := by
    rw [h'.overflow, h.overflow, h.room hcap, Bool.or_assoc, List.length_append]
    congr 1
    rw [← Bool.decide_or, decide_eq_decide]
    omega

/-- One round, from I1 to I7 (R252 to R257). -/
theorem receive_byte (hg : s.Good) (hf : s.drv.fatal = false) (hp : s.isr.phase = .i1) {b : Byte} {rest : List Byte}
    (hfifo : s.per.rxFifo = b :: rest) :
    ∃ k t, k ≤ 6 ∧ Serves k s t ∧ t.isr.phase = .i7 ∧ t.isr.more = decide (rest ≠ []) ∧ t.per.rxFifo = rest ∧
      Received [b] s t := by
  have h1 := Serves.one (.i1 hp b rest hfifo) hg hf (mark_inRx hp rfl)
  have hroom := ringRoom_eq_zero_iff hg (by rw [hp]; rfl)
  by_cases hfull : idxNext s.drv.cap s.drv.nextWrite = s.drv.nextRead
  · obtain ⟨t, hrun, hphase, hmore, hrest, hring, hover⟩ := drop_byte h1.keeps.good h1.keeps.running rfl hfull
    refine ⟨_, t, ?_, h1.trans hrun, hphase, hmore, hrest, ⟨hring.trans ?_, hover.trans ?_⟩⟩
    · decide
    · rw [hroom.mpr hfull, List.take_zero, List.append_nil]
      rfl
    · simp [hroom.mpr hfull]
  · obtain ⟨k, t, hk, hrun, hphase, hmore, hrest, hring, hover⟩ := store_byte h1.keeps.good h1.keeps.running rfl hfull
    have hpos : 1 ≤ ringRoom s := Nat.one_le_iff_ne_zero.mpr (hroom.not.mpr hfull)
    refine ⟨_, t, ?_, h1.trans hrun, hphase, hmore, hrest, ⟨hring.trans ?_, hover.trans ?_⟩⟩
    · omega
    · rw [List.take_of_length_le hpos]
      rfl
    · simp [Nat.not_lt.mpr hpos]

/-! ### The whole section -/

/-- From I1 to S1: a round for each byte (R258). -/
theorem receive_fifo (bytes : List Byte) (hg : s.Good) (hf : s.drv.fatal = false) (hp : s.isr.phase = .i1)
    (hfifo : s.per.rxFifo = bytes) :
    ∃ k t, k ≤ 7 * bytes.length ∧ Serves k s t ∧ t.isr.phase = .s1 ∧ t.drv.isrState = .idle ∧ t.per.rxFifo = [] ∧
      Received bytes s t := by
  induction bytes generalizing s with
  | nil => exact absurd hfifo (hg.engine.loadable hp)
  | cons b rest ih =>
    obtain ⟨k, t, hk, hrun, hphase, hmore, hrest, hbyte⟩ := receive_byte hg hf hp hfifo
    by_cases hlast : rest = []
    · have h7 := hrun.then (.i7Last hphase (by simp [hmore, hlast])) (by rw [hphase]; rfl)
      subst hlast
      exact ⟨k + 1, _, by simp; omega, h7, rfl, rfl, hrest, { hbyte with }⟩
    · have h7 := hrun.then (.i7More hphase (by simp [hmore, hlast])) (by rw [hphase]; rfl)
      obtain ⟨l, u, hl, hrun', hs1, hidle, hempty, hmoved⟩ := ih h7.keeps.good h7.keeps.running rfl hrest
      have hbyte' : Received [b] s { t with isr := { t.isr with phase := .i1 } } := { hbyte with }
      refine ⟨k + 1 + l, u, ?_, h7.trans hrun', hs1, hidle, hempty, hbyte'.append hmoved h7.keeps.cap⟩
      rw [List.length_cons]
      omega

end

/-- Settles O40: the issue, S0, and a round for each byte. -/
theorem serviceMovesTheFifoIntoTheRing : Obligations.ServiceMovesTheFifoIntoTheRing := by
  intro s room hg hf hp hcause hroom
  rw [← pendingCause_eq_gatedCause hg.peripheral.maskIsIe] at hcause
  have hissue := issue_service hf hp
  have h0 := Serves.one (.s0 rfl) (hg.service hp) hf (.inr rfl)
  obtain ⟨k, t, hk, hrun, hs1, hidle, hempty, hmoved⟩ :=
    receive_fifo s.per.rxFifo h0.keeps.good h0.keeps.running (if_pos hcause) rfl
  have hall := h0.trans hrun
  have hring := hmoved.ring
  have hover := hmoved.overflow
  refine ⟨1 + k + 1, t, ?_, execTimes_step hissue hall.run, hs1, hidle, hempty, ?_, ?_, hall.keeps.nextRead, hall.keeps.txFifo,
    hall.keeps.rx, hall.keeps.tx, hall.keeps.hostMem⟩
  · omega
  · rw [hroom]
    exact hring
  · rw [hroom]
    exact hover

end Sys2Proof.Machine
end

