-- ==== Sys2Proof/Proofs/WholeReads.lean ====
section
/-!
PROOF. `READ` and `READ_BYTE` as wholes, from the issue to the response, where the ring holds data (R180 to R182).
-/

namespace Sys2Proof.Machine

section
variable {i : Instr} {b : Byte} {s : State}

theorem running_of_appReady (ha : s.appReady = true) : s.drv.fatal = false := by
  rw [State.appReady, Bool.and_eq_true, Bool.not_eq_true'] at ha
  exact ha.1

/-- The state at COPY, two steps after the issue on a ring that holds data (R174, R180, R181). -/
def atCopy (i : Instr) (s : State) : State :=
  { s with
    regs := { s.regs with rxRsp := busyWord, rxN := 0#32 }
    rx := { s.rx with
      op := opcField (encode i), a0 := s.regs.rxA0, a1 := s.regs.rxA1, nwSnap := s.drv.nextWrite, phase := .copy } }

theorem run_issue_to_copy (hi : i = .read ∨ i = .readByte) (hissue : exec i s = .next (issueRx s (encode i) .p1))
    (ha : s.appReady = true) (hd : s.drv.nextWrite ≠ s.drv.nextRead) : execTimes i 2 s = .next (atCopy i s) :=
  execTimes_step hissue <| execTimes_one <|
    (exec_of_rxShared (p := .p1) hi (by exact ha) (by rfl) (by decide) (rxShared_p1 (by rfl))).trans (rxP1_data (by exact hd))

/-- The state after the response of a read that has taken `rd_n` bytes (R180, R182). -/
def afterRead (b : Byte) (s : State) : State :=
  { s with
    regs := { s.regs with
      rxRsp := 0#16 ++ b ++ s.drv.errMask ++ (if s.drv.errMask ≠ 0#4 then 3#4 else if s.drv.overflow then 2#4 else 0#4)
      rxN := s.rx.rdN }
    drv := { s.drv with
      nextRead := idxAdd s.drv.cap s.drv.nextRead s.rx.rdN.toNat, overflow := false, errMask := 0#4 }
    rx := { s.rx with rdOvf := s.drv.overflow, phase := .idle } }

theorem exec_adv (hb : RespondsWith i b s) (ha : s.appReady = true) (hp : s.rx.phase = .adv) : exec i s = .next
    { s with
      drv := { s.drv with nextRead := idxAdd s.drv.cap s.drv.nextRead s.rx.rdN.toNat }, rx := { s.rx with phase := .fin1 } } :=
  (exec_eq_rxShared hb ha hp (by decide)).trans (rxShared_adv hp b)

theorem run_adv_to_idle (hb : RespondsWith i b s) (ha : s.appReady = true) (hp : s.rx.phase = .adv) :
    execTimes i 3 s = .next (afterRead b s) :=
  execTimes_step (exec_adv hb ha hp) <|
    execTimes_step ((readCompletion i b _ (by exact hb) (by exact ha)).1 (by rfl)) <|
    execTimes_one ((readCompletion i b _ (by exact hb) (by exact ha)).2 _ (by rfl) (by rfl))

/-- The state at ADV, once COPY has taken `n` bytes: into host memory, or the one byte `x`. -/
def atAdv (i : Instr) (m : Memory) (x : Byte) (n : Word) (s : State) : State :=
  { atCopy i s with hostMem := m, rx := { (atCopy i s).rx with rdByte := x, rdN := n, phase := .adv } }

/-- A read that took `n` of the unread bytes leaves the others in the ring. -/
theorem ringContents_afterRead {m : Memory} {x : Byte} {w : Word} {n : Nat} (h2 : 2 ≤ s.drv.cap.toNat)
    (hr : s.drv.nextRead.toNat < s.drv.cap.toNat) (hw : s.drv.nextWrite.toNat < s.drv.cap.toNat) (hn : w.toNat = n)
    (hle : n ≤ unread s) : ringContents (afterRead b (atAdv i m x w s)) = (ringContents s).drop n := by
  have hadv : ringContents { s with drv := { s.drv with nextRead := idxAdd s.drv.cap s.drv.nextRead n } } =
      (ringContents s).drop n := ringContents_dequeue h2 hr hw hle rfl fun _ => rfl
  rw [← hadv]
  exact ringContents_congr rfl (by rw [← hn]; rfl) rfl fun _ _ => rfl

theorem data_of_unread (h : 1 ≤ unread s) : s.drv.nextWrite ≠ s.drv.nextRead := by
  intro he
  rw [unread, he, ringLen_self] at h
  exact absurd h (by decide)

/-- The first `n` unread bytes, read back from where COPY stored them. -/
theorem payloadList_copied {t : State} {n : Nat} (hn : n ≤ unread s)
    (h : ∀ k, k < n → memRead t (s.regs.rxA0 + BitVec.ofNat 32 k) = bufSlot s (slotAt s.drv.cap s.drv.nextRead k)) :
    payloadList t s.regs.rxA0 n = (ringContents s).take n := by
  refine List.ext_getElem (by simp [payloadList, hn]) fun k hk hk' => ?_
  have hlt : k < n := by simpa [payloadList] using hk
  rw [List.getElem_take, ringContents_getElem, ← h k hlt]
  simp [payloadList]

end

/-- Settles O26. -/
theorem readReturnsTheOldestBytes : Obligations.ReadReturnsTheOldestBytes := by
  constructor
  · intro s n hg ha hp hon hlen hdata hn
    have hf := running_of_appReady ha
    obtain ⟨h2, hcap, hr, hw⟩ := hg.ring.on hon
    have hissue := (exec_read_idle hf hp).trans (rxRD0_bytes hon hlen)
    have hcopying := run_issue_to_copy (.inl rfl) hissue ha (data_of_unread hdata)
    obtain ⟨m, hm, hcopy⟩ := rxCopy_eq (s := atCopy .read s) h2 hcap
    have hcount : copyCount (atCopy .read s) = n := hn.symm
    have hle : n ≤ unread s := hn.trans_le (Nat.min_le_right _ _)
    have hword : (BitVec.ofNat 32 n).toNat = n := by
      have := ringLen_lt h2 hr hw
      rw [BitVec.toNat_ofNat, Nat.mod_eq_of_lt (by unfold unread at hle; omega)]
    rw [hcount] at hm hcopy
    have hend := run_adv_to_idle (i := .read) (b := 0#8) (s := atAdv .read m s.rx.rdByte (BitVec.ofNat 32 n) s)
      (.inl ⟨rfl, rfl⟩) ha rfl
    have hrun : execTimes .read (2 + (1 + 3)) s = _ := execTimes_add hcopying <| execTimes_add
      (execTimes_one ((exec_read_copy (by exact ha) (by rfl)).trans hcopy)) hend
    refine ⟨_, hrun, rfl, hword, rfl, rfl, rfl, ringContents_afterRead h2 hr hw hword hle,
      payloadList_copied hle fun k hk => ?_, fun a hout => ?_, rfl, rfl, rfl, rfl⟩
    · exact (memRead_copyBytes_inside (s := atCopy .read s) hm hg.memory.host (by omega) (Nat.zero_le k) (by omega) :)
    · exact (memRead_copyBytes_outside (s := atCopy .read s) hm hg.memory.host fun k _ hk => hout k (by omega) :)
  · intro s b rest hg ha hp hon hring
    have hf := running_of_appReady ha
    obtain ⟨h2, hcap, hr, hw⟩ := hg.ring.on hon
    have hdata : 1 ≤ unread s := by rw [← ringContents_length, hring]; simp
    have hissue := (exec_readByte_idle hf hp).trans (rxRB0_enabled hon)
    have hcopying := run_issue_to_copy (.inr rfl) hissue ha (data_of_unread hdata)
    have hslot : slotAt s.drv.cap s.drv.nextRead 0 = s.drv.nextRead.toNat := Nat.mod_eq_of_lt hr
    have hbyte : bufSlot s s.drv.nextRead.toNat = b := by
      have hhead := ringContents_getElem s 0 (by rw [hring]; simp)
      rw [hslot] at hhead
      rw [← hhead]
      simp [hring]
    have hdrop : (ringContents s).drop 1 = rest := by rw [hring]; rfl
    subst hbyte
    have hcopy := rxCopyByte_eq (s := atCopy .readByte s) (hr.trans_le hcap)
    have hend := run_adv_to_idle (i := .readByte) (b := bufSlot s s.drv.nextRead.toNat)
      (s := atAdv .readByte s.hostMem (bufSlot s s.drv.nextRead.toNat) 1#32 s) (.inr ⟨rfl, rfl⟩) ha rfl
    have hrun : execTimes .readByte (2 + (1 + 3)) s = _ := execTimes_add hcopying <| execTimes_add
      (execTimes_one ((exec_readByte_copy (by exact ha) (by rfl)).trans hcopy)) hend
    refine ⟨_, hrun, rfl, rfl, rfl, rfl, rfl, ?_, rfl, rfl, rfl, rfl, rfl⟩
    rw [ringContents_afterRead (n := 1) h2 hr hw (by decide) hdata, hdrop]

end Sys2Proof.Machine
end

