-- ==== Sys2Proof/Proofs/WholeWrites.lean ====
section
/-!
PROOF. Whole writes: the fast path as rounds of W1S and W1P (R213), a payload that fits (R225 (2)), and one that does not and
times out (R221).
-/

namespace Sys2Proof.Machine

section
variable {i : Instr} {s : State}

/-! ### The fast path -/

/-- The first `k` payload bytes from where the fast path stands. -/
def nextBytes (s : State) (form : PayloadForm) (k : Nat) : List Byte :=
  (List.range k).map fun m => payloadAt s form (s.tx.i.toNat + m)

/-- The state after `k` rounds and one more W1S (R213). -/
def filled (form : PayloadForm) (k : Nat) (q : PriBus) (s : State) : State :=
  { s with
    drv := { s.drv with errMask := s.drv.errMask ||| (if s.cfg.hasLineStatus then s.per.hwerr else 0#4) }
    per := { s.per with txFifo := s.per.txFifo ++ nextBytes s form k, hwerr := 0#4 }
    pri := q
    tx := { s.tx with
      i := s.tx.i + BitVec.ofNat 32 k, phase := if s.per.txFifo.length + k = s.cfg.txDepth then .w3 else .w1p } }

theorem exec_w1s (hw : isWrite (some i) = true) (ha : s.appReady = true) (hp : s.tx.phase = .w1s) :
    exec i s = txW1S s := (exec_write_busy hw ha hp (by decide)).trans (txWriteStep_w1s _ hp)

theorem exec_w1p (hw : isWrite (some i) = true) (ha : s.appReady = true) (hp : s.tx.phase = .w1p) :
    exec i s = txW1P (formOf (some i)) s := (exec_write_busy hw ha hp (by decide)).trans (txWriteStep_w1p _ hp)

/-- The state after one round, W1S and W1P, that is not the last. -/
def roundDone (form : PayloadForm) (s : State) : State :=
  { s with
    drv := { s.drv with errMask := s.drv.errMask ||| (if s.cfg.hasLineStatus then s.per.hwerr else 0#4) }
    per := { s.per with txFifo := s.per.txFifo ++ [payloadByte s form], hwerr := 0#4 }
    pri := { s.pri with req := 0x10#8 ++ 0#16 ++ payloadByte s form, rsp := 0#32 }
    tx := { s.tx with i := s.tx.i + 1#32, phase := .w1s } }

theorem run_round (hw : isWrite (some i) = true) (ha : s.appReady = true) (hp : s.tx.phase = .w1s)
    (hroom : s.per.txFifo.length < s.cfg.txDepth) (hmore : s.tx.i + 1#32 ≠ payloadLen s (formOf (some i))) :
    execTimes i 2 s = .next (roundDone (formOf (some i)) s) := by
  have hs := (exec_w1s hw ha hp).trans (txW1S_eq s)
  rw [if_neg hroom.ne] at hs
  refine execTimes_step hs <| execTimes_one <| (exec_w1p hw (by exact ha) rfl).trans ?_
  cases hform : formOf (some i) with
  | memory => exact txW1P_more _ hroom (hform ▸ hmore)
  | immediate => exact txW1P_more _ hroom (hform ▸ hmore)

theorem filled_roundDone (form : PayloadForm) (k : Nat) (q : PriBus) (hi : (s.tx.i + 1#32).toNat = s.tx.i.toNat + 1) :
    filled form k q (roundDone form s) = filled form (k + 1) q s := by
  have hbytes : s.per.txFifo ++ [payloadByte s form] ++ nextBytes (roundDone form s) form k =
      s.per.txFifo ++ nextBytes s form (k + 1) := by
    have hat : ∀ m, payloadAt (roundDone form s) form m = payloadAt s form m := fun m => by cases form <;> rfl
    have hstart : (roundDone form s).tx.i.toNat = s.tx.i.toNat + 1 := hi
    rw [List.append_assoc, nextBytes, nextBytes, List.range_succ_eq_map, payloadByte_eq_payloadAt]
    simp only [hat, hstart, List.map_cons, List.map_map, Nat.add_zero, List.singleton_append, List.append_cancel_left_eq,
      List.cons.injEq, true_and]
    exact List.map_congr_left fun m _ => congrArg (payloadAt s form) (by omega : s.tx.i.toNat + 1 + m = s.tx.i.toNat + (m + 1))
  have hindex : s.tx.i + 1#32 + BitVec.ofNat 32 k = s.tx.i + BitVec.ofNat 32 (k + 1) := by
    rw [BitVec.add_assoc, BitVec.add_comm 1#32, BitVec.ofNat_add]
  have hlen : (s.per.txFifo ++ [payloadByte s form]).length + k = s.per.txFifo.length + (k + 1) := by
    rw [List.length_append, List.length_singleton]
    omega
  simp only [filled, ← hbytes, ← hindex, ← hlen]
  cases hline : s.cfg.hasLineStatus <;> simp [roundDone, hline]

/-- `k` rounds, none of them the last, and the look at the FIFO that follows. -/
theorem run_fill (hw : isWrite (some i) = true) (k : Nat) (ha : s.appReady = true) (hp : s.tx.phase = .w1s)
    (hroom : s.per.txFifo.length + k ≤ s.cfg.txDepth)
    (hlen : s.tx.i.toNat + k < (payloadLen s (formOf (some i))).toNat) :
    ∃ q, execTimes i (2 * k + 1) s = .next (filled (formOf (some i)) k q s) := by
  induction k generalizing s with
  | zero =>
    refine ⟨{ s.pri with req := 0x20000000#32, rsp := statusRsp (peripheralStatus s.cfg s.per) }, ?_⟩
    rw [execTimes_one ((exec_w1s hw ha hp).trans (txW1S_eq s))]
    simp [filled, nextBytes]
  | succ k ih =>
    have hbound := (payloadLen s (formOf (some i))).isLt
    have hi : (s.tx.i + 1#32).toNat = s.tx.i.toNat + 1 := by bv_omega
    have hround := run_round hw ha hp (by omega) fun h => by
      rw [← h, hi] at hlen
      omega
    have hsame : payloadLen (roundDone (formOf (some i)) s) (formOf (some i)) = payloadLen s (formOf (some i)) := by
      cases formOf (some i) <;> rfl
    have hlen' : (roundDone (formOf (some i)) s).tx.i.toNat + k < (payloadLen s (formOf (some i))).toNat := by
      show (s.tx.i + 1#32).toNat + k < _
      omega
    have hroom' : (roundDone (formOf (some i)) s).per.txFifo.length + k ≤ s.cfg.txDepth := by
      simp only [roundDone, List.length_append, List.length_singleton]
      omega
    obtain ⟨q, hrest⟩ := ih (s := roundDone (formOf (some i)) s) ha rfl hroom' (hsame ▸ hlen')
    rw [filled_roundDone _ _ _ hi] at hrest
    exact ⟨q, (congrArg (execTimes i · s) (by omega)).trans (execTimes_add hround hrest)⟩

/-! ### From the issue -/

/-- The state at W1S, just issued (R212). -/
def issuedWrite (i : Instr) (s : State) : State :=
  { s with
    regs := { s.regs with txRsp := busyWord, txN := 0#32 }
    tx := { s.tx with
      op := opcField (encode i), imm := immField (encode i), a0 := s.regs.txA0, a1 := s.regs.txA1, i := 0#32
      phase := .w1s } }

theorem exec_issue_write {len : Word} (hi : IssuesWrite i len s) (ha : s.appReady = true) (hp : s.tx.phase = .idle)
    (hon : s.drv.txEnabled = true) (hlen : len ≠ 0#32) : exec i s = .next (issuedWrite i s) :=
  (exec_write_idle hi (running_of_appReady ha) hp).trans (txW0_payload _ hon hlen)

theorem IssuesWrite.isWrite {len : Word} (hi : IssuesWrite i len s) : isWrite (some i) = true := by
  rcases hi with ⟨rfl, -⟩ | ⟨rfl, -⟩ | ⟨b, rfl, -⟩ <;> rfl

theorem IssuesWrite.payloadLen_issued {len : Word} (hi : IssuesWrite i len s) :
    payloadLen (issuedWrite i s) (formOf (some i)) = len := by
  rcases hi with ⟨rfl, rfl⟩ | ⟨rfl, rfl⟩ | ⟨b, rfl, rfl⟩ <;> rfl

/-- The issue, `k` rounds, none of them the last, and the look at the FIFO that follows. -/
theorem run_issue_fill {len : Word} (hi : IssuesWrite i len s) (k : Nat) (ha : s.appReady = true) (hp : s.tx.phase = .idle)
    (hon : s.drv.txEnabled = true) (hroom : s.per.txFifo.length + k ≤ s.cfg.txDepth) (hlen : k < len.toNat) :
    ∃ q, execTimes i (2 * k + 2) s = .next (filled (formOf (some i)) k q (issuedWrite i s)) := by
  have hne : len ≠ 0#32 := fun h => by simp [h] at hlen
  have hindex : (issuedWrite i s).tx.i.toNat + k < (payloadLen (issuedWrite i s) (formOf (some i))).toNat := by
    rw [hi.payloadLen_issued]
    simpa [issuedWrite] using hlen
  obtain ⟨q, hrun⟩ := run_fill (s := issuedWrite i s) hi.isWrite k ha rfl hroom hindex
  exact ⟨q, execTimes_step (exec_issue_write hi ha hp hon hne) hrun⟩

/-! ### A payload that fits (R213, R225 (2)) -/

/-- The state after a write that the fast path alone has completed. -/
def fastDone (i : Instr) (len : Word) (q : PriBus) (s : State) : State :=
  { s with
    regs := { s.regs with txRsp := 0#32, txN := len }
    drv := { s.drv with errMask := s.drv.errMask ||| (if s.cfg.hasLineStatus then s.per.hwerr else 0#4) }
    per := { s.per with
      txFifo := s.per.txFifo ++ nextBytes (issuedWrite i s) (formOf (some i)) len.toNat, hwerr := 0#4 }
    pri := q
    tx := { s.tx with
      op := opcField (encode i), imm := immField (encode i), a0 := s.regs.txA0, a1 := s.regs.txA1, i := len, phase := .idle } }

theorem nextBytes_succ (s : State) (form : PayloadForm) (k : Nat) :
    nextBytes s form (k + 1) = nextBytes s form k ++ [payloadAt s form (s.tx.i.toNat + k)] := by
  rw [nextBytes, nextBytes, List.range_succ, List.map_append, List.map_singleton]

/-- The last byte pushed by W1P ends the command (R213). -/
theorem exec_w1p_last {len : Word} {k : Nat} {q : PriBus} (hi : IssuesWrite i len s) (hk : len.toNat = k + 1)
    (ha : s.appReady = true) (hroom : s.per.txFifo.length + (k + 1) ≤ s.cfg.txDepth) :
    ∃ q', exec i (filled (formOf (some i)) k q (issuedWrite i s)) = .next (fastDone i len q' s) := by
  have hindex : BitVec.ofNat 32 k + 1#32 = len := by
    have := len.isLt
    bv_omega
  have hphase : (filled (formOf (some i)) k q (issuedWrite i s)).tx.phase = .w1p :=
    if_neg (by show s.per.txFifo.length + k ≠ s.cfg.txDepth; omega)
  have hlen : payloadLen (filled (formOf (some i)) k q (issuedWrite i s)) (formOf (some i)) = len := by
    rw [← hi.payloadLen_issued]
    cases formOf (some i) <;> rfl
  have hlast : (filled (formOf (some i)) k q (issuedWrite i s)).tx.i + 1#32 = len := by simp [filled, issuedWrite, hindex]
  have hbyte : payloadByte (filled (formOf (some i)) k q (issuedWrite i s)) (formOf (some i)) =
      payloadAt (issuedWrite i s) (formOf (some i)) ((issuedWrite i s).tx.i.toNat + k) := by
    cases formOf (some i) with
    | memory => simp [payloadByte, payloadAt, filled, issuedWrite, memRead]
    | immediate => rfl
  have hfifo : (filled (formOf (some i)) k q (issuedWrite i s)).per.txFifo.length < s.cfg.txDepth := by
    simp only [filled, nextBytes, issuedWrite, List.length_append, List.length_map, List.length_range]
    omega
  refine ⟨{ q with
    req := 0x10#8 ++ 0#16 ++ payloadAt (issuedWrite i s) (formOf (some i)) ((issuedWrite i s).tx.i.toNat + k)
    rsp := 0#32 }, ?_⟩
  rw [exec_w1p hi.isWrite (by exact ha) hphase, txW1P_last _ hfifo (hlast.trans hlen.symm), hbyte, hlen, hlast, fastDone, hk,
    nextBytes_succ, ← List.append_assoc]
  rfl

theorem run_fast {len : Word} (hi : IssuesWrite i len s) (ha : s.appReady = true) (hp : s.tx.phase = .idle)
    (hon : s.drv.txEnabled = true) (hlen : 1 ≤ len.toNat) (hfits : s.per.txFifo.length + len.toNat ≤ s.cfg.txDepth) :
    ∃ q, execTimes i (1 + 2 * len.toNat) s = .next (fastDone i len q s) := by
  obtain ⟨k, hk⟩ : ∃ k, len.toNat = k + 1 := ⟨len.toNat - 1, by omega⟩
  rw [hk] at hfits
  obtain ⟨q, hrun⟩ := run_issue_fill hi k ha hp hon (by omega) (by omega)
  obtain ⟨q', hlast⟩ := exec_w1p_last (q := q) hi hk ha hfits
  refine ⟨q', ?_⟩
  rw [hk, show 1 + 2 * (k + 1) = 2 * k + 2 + 1 by omega]
  exact execTimes_add hrun (execTimes_one hlast)

/-- The first `n` bytes of a payload in host memory. -/
theorem nextBytes_memory (i : Instr) (s : State) (n : Nat) :
    nextBytes (issuedWrite i s) .memory n = payloadList s s.regs.txA0 n :=
  List.map_congr_left fun m _ => by simp [payloadAt, issuedWrite, memRead]

end

/-- Settles O33. -/
theorem fastPathWritesThePayload : Obligations.FastPathWritesThePayload := by
  constructor
  · intro i s n hi ha hp hon hn hone hfits
    obtain ⟨-, hform⟩ := isWrite_of_memory hi
    have hissues : IssuesWrite i s.regs.txA1 s := hi.imp (⟨·, rfl⟩) fun h => .inl ⟨h, rfl⟩
    have himm : immField (encode i) = 0#16 := by rcases hi with rfl | rfl <;> rfl
    obtain ⟨q, hrun⟩ := run_fast hissues ha hp hon (hn ▸ hone) (hn ▸ hfits)
    rw [← hn] at hrun
    refine ⟨_, hrun, ?_⟩
    rw [fastDone, hform, nextBytes_memory, ← hn, himm, ← hp]
    rfl
  · intro b s ha hp hon hfits
    have himm : immField (encode (.writeByte b)) = 0#8 ++ b := by revert b; decide
    have hop : opcField (encode (.writeByte b)) = 0x24#8 := by revert b; decide
    have hbyte : nextBytes (issuedWrite (.writeByte b) s) .immediate 1 = [b] := by
      show [(immField (encode (.writeByte b))).extractLsb' 0 8] = [b]
      rw [himm]
      revert b
      decide
    obtain ⟨q, hrun⟩ := run_fast (i := .writeByte b) (.inr (.inr ⟨b, rfl, rfl⟩)) ha hp hon (by decide) hfits
    refine ⟨_, hrun, ?_⟩
    rw [fastDone, show formOf (some (.writeByte b)) = .immediate from rfl, show (1#32).toNat = 1 from rfl, hbyte, himm, hop,
      ← hp]

/-! ### A payload that does not fit (R214 to R221) -/

section
variable {i : Instr} {s : State}

/-- A step of a write command in flight is the step of its label (R212). -/
theorem exec_write_at {p : TxPhase} {r : Result} (hw : isWrite (some i) = true) (ha : s.appReady = true) (hp : s.tx.phase = p)
    (hbusy : p ≠ .idle) (h : txWriteStep (formOf (some i)) s = r) : exec i s = r :=
  (exec_write_busy hw ha hp hbusy).trans h

/-- The write at its sleep, five steps after W3 (R214 to R218). -/
def asleep (form : PayloadForm) (level : BitVec 8) (q : PriBus) (s : State) : State :=
  { s with
    drv := { s.drv with
      txPending := stagedDesc s form, txByte := stagedByte s form, txCursor := 0#32, txDone := false
      ie := s.drv.ie ||| srcTx }
    per := { s.per with txTrig := level, pmask := s.drv.ie ||| srcTx }
    pri := q
    tx := { s.tx with timer := s.tx.timer.arm s.drv.writeTimeout, phase := .w7l } }

/-- The remainder staged and the trigger level tuned to it (R214, R215). -/
def staged (form : PayloadForm) (level : BitVec 8) (q : PriBus) (s : State) : State :=
  { s with
    drv := { s.drv with txPending := stagedDesc s form, txByte := stagedByte s form, txCursor := 0#32 }
    per := { s.per with txTrig := level }
    pri := q
    tx := { s.tx with phase := .w5 } }

theorem run_staging (hw : isWrite (some i) = true) (hok : s.cfg.ok = true) (ha : s.appReady = true)
    (hp : s.tx.phase = .w3) : ∃ level q, execTimes i 2 s = .next (staged (formOf (some i)) level q s) := by
  have h3 := exec_write_at hw ha hp (by decide) (txWriteStep_w3 _ hp)
  have h4 := execTimes_step h3 <| execTimes_one <| exec_write_at hw (by exact ha) (p := .w4) (by rfl) (by decide)
    ((txWriteStep_w4 _ (by rfl)).trans (txW4_eq _ (by exact hok)))
  exact ⟨_, _, h4⟩

/-- The Note cleared, the enable set and the timer armed (R216 to R218). -/
theorem run_arming (hw : isWrite (some i) = true) (ha : s.appReady = true) (hp : s.tx.phase = .w5) :
    ∃ q, execTimes i 3 s = .next { s with
      drv := { s.drv with txDone := false, ie := s.drv.ie ||| srcTx }, per := { s.per with pmask := s.drv.ie ||| srcTx }
      pri := q
      tx := { s.tx with timer := s.tx.timer.arm s.drv.writeTimeout, phase := .w7l } } := by
  have h5 := exec_write_at hw ha hp (by decide) (txWriteStep_w5 _ hp)
  have h7 := execTimes_step h5 <|
    execTimes_step (exec_write_at hw (by exact ha) (p := .w6) (by rfl) (by decide) (txWriteStep_w6 _ (by rfl))) <|
    execTimes_one (exec_write_at hw (by exact ha) (p := .w7) (by rfl) (by decide) (txWriteStep_w7 _ (by rfl)))
  exact ⟨_, h7⟩

theorem run_to_sleep (hw : isWrite (some i) = true) (hok : s.cfg.ok = true) (ha : s.appReady = true)
    (hp : s.tx.phase = .w3) : ∃ level q, execTimes i 5 s = .next (asleep (formOf (some i)) level q s) := by
  obtain ⟨level, q, hstage⟩ := run_staging hw hok ha hp
  obtain ⟨q', harm⟩ := run_arming (s := staged (formOf (some i)) level q s) hw ha rfl
  exact ⟨level, q', execTimes_add hstage harm⟩

/-- Any number of ticks moves the two timers and nothing else (R137). -/
theorem tick_iterate (s : State) (k : Nat) :
    tick^[k] s = { s with
      rx := { s.rx with timer := Timer.tick^[k] s.rx.timer }, tx := { s.tx with timer := Timer.tick^[k] s.tx.timer } } := by
  induction k with
  | zero => rfl
  | succ k ih =>
    rw [Function.iterate_succ_apply', ih, Function.iterate_succ_apply', Function.iterate_succ_apply']
    rfl

theorem holds_at_w7l (hw : isWrite (some i) = true) (ha : s.appReady = true) (hp : s.tx.phase = .w7l)
    (hd : s.drv.txDone = false) (ht : s.tx.timer.expired = false) : exec i s = .next s :=
  exec_write_at hw ha hp (by decide) ((txWriteStep_w7l _ hp).trans (txW7L_hold hd ht))

/-- The state after a write that has timed out (R219 to R221). -/
def timedOut (q : PriBus) (s : State) : State :=
  { s with
    drv := { s.drv with ie := s.drv.ie &&& ~~~srcTx, txPending := TxDesc.empty, txCursor := 0#32 }
    per := { s.per with pmask := s.drv.ie &&& ~~~srcTx }
    pri := q
    regs := { s.regs with txRsp := 1#32, txN := s.tx.i + s.drv.txCursor }
    tx := { s.tx with waitOk := false, timer := s.tx.timer.disarm, phase := .idle } }

theorem run_timeout (hw : isWrite (some i) = true) (ha : s.appReady = true) (hp : s.tx.phase = .w7l)
    (hd : s.drv.txDone = false) (ht : s.tx.timer.expired = true) (hm : s.drv.isrState ≠ .inTx) :
    ∃ q, execTimes i 4 s = .next (timedOut q s) := by
  have h7 := exec_write_at hw ha hp (by decide) ((txWriteStep_w7l _ hp).trans (txW7L_expired hd ht))
  exact ⟨_, execTimes_step h7 <|
    execTimes_step (exec_write_at hw (by exact ha) (p := .w8) (by rfl) (by decide) (txWriteStep_w8 _ (by rfl))) <|
    execTimes_step (exec_write_at hw (by exact ha) (p := .w9) (by rfl) (by decide)
      ((txWriteStep_w9 _ (by rfl)).trans (txW9_leave (by exact hm)))) <|
    execTimes_one (exec_write_at hw (by exact ha) (p := .w10) (by rfl) (by decide)
      ((txWriteStep_w10 _ (by rfl)).trans (txW10_eq _)))⟩

/-- A write asleep with a finite timeout sleeps on at every tick before the last, and then times out (R136, R218 to R221). -/
theorem sleep_times_out {timer : Timer} {limit : Word} (hw : isWrite (some i) = true) (ha : s.appReady = true)
    (hp : s.tx.phase = .w7l) (hd : s.drv.txDone = false) (hm : s.drv.isrState ≠ .inTx)
    (htimer : s.tx.timer = timer.arm limit) (hfinite : limit ≠ infTimeout) :
    (∀ k, k < limit.toNat → exec i (tick^[k] s) = .next (tick^[k] s)) ∧
      ∃ q, execTimes i 4 (tick^[limit.toNat] s) = .next (timedOut q (tick^[limit.toNat] s)) := by
  have hexpired (k : Nat) : (Timer.tick^[k] s.tx.timer).expired = true ↔ limit.toNat ≤ k := by
    rw [htimer]
    exact Timer.expired_iterate_arm timer k hfinite
  refine ⟨fun k hk => ?_, ?_⟩
  · rw [tick_iterate]
    exact holds_at_w7l hw ha hp hd (Bool.eq_false_iff.mpr ((hexpired k).not.mpr (Nat.not_le.mpr hk)))
  · rw [tick_iterate]
    exact run_timeout hw ha hp hd ((hexpired _).mpr le_rfl) hm

theorem ie_restored : ∀ m : BitVec 3, hasTx m = false → (m ||| srcTx) &&& ~~~srcTx = m := by decide

end

/-- Settles O34. -/
theorem stalledWriteReportsTheFastPath : Obligations.StalledWriteReportsTheFastPath := by
  intro i s n len bytes hkind hg ha hp _ hon hfinite hn hlen
  have hissues : IssuesWrite i len s := by
    rcases hkind with ⟨hi, hl, -⟩ | ⟨b, hi, hl, -⟩
    · exact hi.imp (⟨·, hl⟩) fun h => .inl ⟨h, hl⟩
    · exact .inr (.inr ⟨b, hi, hl⟩)
  have hbytes : nextBytes (issuedWrite i s) (formOf (some i)) n = bytes := by
    rcases hkind with ⟨hi, -, hb⟩ | ⟨b, rfl, rfl, hb⟩
    · rw [(isWrite_of_memory hi).2, nextBytes_memory, hb]
    · obtain rfl : n = 0 := Nat.lt_one_iff.mp hlen
      exact hb.symm
  have hclosed := hg.windowClosed (by rw [hp]; rfl)
  have hfits := hg.peripheral.txFits
  have hw := hissues.isWrite
  obtain ⟨q, hfill⟩ := run_issue_fill hissues n ha hp hon (by omega) hlen
  have hfull : (filled (formOf (some i)) n q (issuedWrite i s)).tx.phase = .w3 :=
    if_pos (by show s.per.txFifo.length + n = s.cfg.txDepth; omega)
  obtain ⟨level, q', hsleep⟩ := run_to_sleep (s := filled (formOf (some i)) n q (issuedWrite i s)) hw hg.cfgOk ha hfull
  obtain ⟨hwait, q'', hend⟩ := sleep_times_out
    (s := asleep (formOf (some i)) level q' (filled (formOf (some i)) n q (issuedWrite i s))) hw ha rfl rfl
    hclosed.mark rfl hfinite
  refine ⟨_, _, execTimes_add (j := 2 * n + 2) (k := 5) hfill hsleep, rfl, hwait, hend, rfl, rfl, ?_⟩
  rw [tick_iterate]
  refine ⟨?_, ?_, ?_, ?_, rfl, rfl, rfl, rfl, rfl, rfl⟩
  · have hcount : (BitVec.ofNat 32 n).toNat = n := Nat.mod_eq_of_lt (hlen.trans len.isLt)
    show (0#32 + BitVec.ofNat 32 n + 0#32).toNat = n
    rw [BitVec.zero_add, BitVec.add_zero, hcount]
  · exact congrArg (s.per.txFifo ++ ·) hbytes
  · exact ie_restored _ hclosed.enable
  · exact ie_restored _ hclosed.enable

end Sys2Proof.Machine
end
